-- ==== Sys2Proof/Word.lean ====
section
/-! DEFINITION. The word types of the engine, by the widths of spec/00_scope.md R7 and spec/10_state.md R21. -/

namespace Sys2Proof

/-- A byte of SRC, DST or the token stream (R8). -/
abbrev Byte := BitVec 8

/-- A 32-bit control register, and the 4-byte hash word (R26, R52). -/
abbrev Word := BitVec 32

/-- A position in SRC or DST, `AW` = 32 bits (R7, R12). -/
abbrev Pos := BitVec 32

/-- The length accumulator, `LENW` = 40 bits (R7, R22). -/
abbrev Len := BitVec 40

/-- The register `ref`: 33 bits, signed (R21). -/
abbrev Ref := BitVec 33

/-- A hash bucket index: 13 bits, of which the wide hash uses 12 (R21, R122, R123). -/
abbrev Bucket := BitVec 13

end Sys2Proof
end

