-- ==== Sys2Proof/Syntax.lean ====
section
/-! DEFINITION. The instructions: one constructor for each of the 56 rows of spec/opcode_table.json, with the operands the
row's rule gives it. An operand the rule names as a register (`ip` and `len` of TUN.EXT, `variant` of HT.CLEAR) is read
from that register and is no argument here. -/

namespace Sys2Proof

/-- The two byte memories a copy can read (R32, R50). -/
inductive Space where
  | src
  | dst
  deriving DecidableEq, Repr

/-- The two forms of the match copy (R229). -/
inductive CopyForm where
  | exact
  | wild
  deriving DecidableEq, Repr

/-- Where the bits of an instruction stand. A byte of the token stream has a meaning only in a decoder state (R81); a
command code stands in CMD (R85); an operation identifier is a label of its own (R87). -/
inductive Ctx where
  /-- the byte read in D.TOKEN -/
  | token
  /-- a byte read in D.LITEXT or D.MLEXT -/
  | ext
  /-- a byte read in D.LITCOPY -/
  | literal
  /-- the two bytes read in D.OFFSET -/
  | offset
  /-- the value written to CMD -/
  | cmd
  /-- an operation identifier, with the operands of a unit operation after it -/
  | opid
  deriving DecidableEq, Repr

inductive Instr where
  -- wire elements (R72, R74, R77, R78)
  | token (ll ml : BitVec 4)
  | extCont
  | extTerm (v : Byte)
  | literal (b : Byte)
  | offset (off : BitVec 16)
  -- host commands (R251 to R254)
  | maxlen
  | compress
  | decompressKnown
  | decompressStream
  -- host and terminal states (R25, R251, R154, R190, R191)
  | idle
  | mMaxlen
  | done
  | error
  -- token unpacker and packer (R100 to R106)
  | tunSplit (t : Byte)
  | tunExt
  | tunLen (c : BitVec 4)
  | packToken (l : Len)
  | packExt (r : Len)
  -- hash and hash table (R121 to R128)
  | hashW (w : Word)
  | hashN (w : Word)
  | htSelect (n : Word)
  | htClear
  | htLookup (i : Bucket)
  | htInsert (i : Bucket) (p : Pos)
  | htProbe (p : Pos)
  | htAccept (ref : Ref) (ip : Pos)
  -- encoder steps (R141 to R153)
  | eInit
  | eSearchInit
  | eProbe
  | eCatchup
  | eLitlen
  | eLitcopy
  | eOffset
  | eExtend
  | eMlen
  | eEndchk
  | eChain
  | eRehash
  | eLast
  -- decoder steps (R181 to R189)
  | dInit
  | dToken
  | dLitext
  | dLitcopy
  | dEofchk
  | dOffset
  | dMlext
  | dMatch4
  | dMatchcopy
  -- fast copy (R221 to R229); the destination memory of every copy is DST
  | cp16 (m : Space) (a d : Pos)
  | cp8 (m : Space) (a d : Pos)
  | cp4 (m : Space) (a d : Pos)
  | cp2 (m : Space) (a d : Pos)
  | cp1 (m : Space) (a d : Pos)
  | fcpExact (a d : Pos) (n : Len)
  | fcpWild (a d : Pos) (n : Len)
  | mcopy (ref : Ref) (op : Pos) (n : Len) (form : CopyForm)
  deriving DecidableEq, Repr

end Sys2Proof
end

