-- ==== Sys2Proof/WellFormed.lean ====
section
/-! DEFINITION. Which instructions are well-formed: EXT.TERM is never 0xFF (R74), a position is at most 2^31 - 1 and a length
at most 15 + 255 * (2^31 - 1) (R22), and a candidate of HT.ACCEPT is no negative position (R21). -/

namespace Sys2Proof

/-- R22: every position is at most `2^31 - 1`. -/
def posOk (p : Pos) : Bool := decide (p.toNat ≤ 2147483647)

/-- R22: a length is at most `15 + 255 * (2^31 - 1)`. -/
def lenOk (l : Len) : Bool := decide (l.toNat ≤ 15 + 255 * 2147483647)

/-- The extreme values of the signed register `ref` that a position or `op - off` can take (R21, R60). -/
def refOk (r : Ref) : Bool := decide (-65535 ≤ r.toInt ∧ r.toInt ≤ 2147483647)

/-- Well-formedness of an instruction's operands. -/
def Instr.wf : Instr → Bool
  | .extTerm v => v != 0xFF#8
  | .packToken l => lenOk l
  | .packExt r => lenOk r
  | .htInsert _ p => posOk p
  | .htProbe p => posOk p
  | .htAccept ref ip => decide (0 ≤ ref.toInt) && refOk ref && posOk ip
  | .cp16 _ a d => posOk a && posOk d
  | .cp8 _ a d => posOk a && posOk d
  | .cp4 _ a d => posOk a && posOk d
  | .cp2 _ a d => posOk a && posOk d
  | .cp1 _ a d => posOk a && posOk d
  | .fcpExact a d n => posOk a && posOk d && lenOk n
  | .fcpWild a d n => posOk a && posOk d && lenOk n
  | .mcopy ref op n _ => refOk ref && posOk op && lenOk n
  | .token _ _ | .extCont | .literal _ | .offset _ => true
  | .maxlen | .compress | .decompressKnown | .decompressStream => true
  | .idle | .mMaxlen | .done | .error => true
  | .tunSplit _ | .tunExt | .tunLen _ => true
  | .hashW _ | .hashN _ | .htSelect _ | .htClear | .htLookup _ => true
  | .eInit | .eSearchInit | .eProbe | .eCatchup | .eLitlen | .eLitcopy | .eOffset | .eExtend | .eMlen | .eEndchk
  | .eChain | .eRehash | .eLast => true
  | .dInit | .dToken | .dLitext | .dLitcopy | .dEofchk | .dOffset | .dMlext | .dMatch4 | .dMatchcopy => true

end Sys2Proof
end

