-- ==== Sys2Proof/Decode.lean ====
section
/-! DEFINITION. The decoder, total on any bytes, and after it the encoder.

The wire elements and the command codes are the spec's (R72, R74, R77, R78, R85). An operation identifier is one byte (R87);
the operands a unit operation takes when it is run alone follow it, in the order its rule lists them, each little-endian in
whole bytes: that operand layout is the model's (log entry 8), since the labels appear on no bus and in no memory. -/

namespace Sys2Proof

/-- Why bytes are no instruction. -/
inductive DecodeError where
  /-- fewer bytes than the instruction has -/
  | truncated
  /-- a value of CMD other than 1 to 4 (R86) -/
  | reservedCommand (w : Word)
  /-- a byte that labels no operation (R87) -/
  | reservedOpid (b : Byte)
  /-- an operand outside the range WellFormed gives it -/
  | badOperand
  deriving DecidableEq, Repr

/-- `n` bytes of `v`, least significant first (R53). -/
def leBytes : Nat → Nat → List Byte
  | 0, _ => []
  | n + 1, v => BitVec.ofNat 8 v :: leBytes n (v / 256)

/-- The unsigned little-endian value of a list of bytes (R53). -/
def leValue : List Byte → Nat
  | [] => 0
  | b :: bs => b.toNat + 256 * leValue bs

/-- Take `n` bytes as an unsigned little-endian value. -/
def takeNat : Nat → List Byte → Option (Nat × List Byte)
  | 0, bs => some (0, bs)
  | _ + 1, [] => none
  | n + 1, b :: bs =>
    match takeNat n bs with
    | some (v, rest) => some (b.toNat + 256 * v, rest)
    | none => none

/-- Take an operand of `w` bits that stands in `n` bytes; the bits above `w` are 0. -/
def takeOperand (w n : Nat) (bs : List Byte) : Except DecodeError (BitVec w × List Byte) :=
  match takeNat n bs with
  | none => .error .truncated
  | some (v, rest) => if v < 2 ^ w then .ok (BitVec.ofNat w v, rest) else .error .badOperand

/-- Accept an instruction that is well-formed. -/
def checked (i : Instr) (rest : List Byte) : Except DecodeError (Instr × List Byte) :=
  if i.wf then .ok (i, rest) else .error .badOperand

/-- The memory a stride move reads, by its operand byte. -/
def spaceOf (b : BitVec 1) : Space := if b = 0#1 then .src else .dst

/-- The form of a match copy, by its operand byte. -/
def formOf (b : BitVec 1) : CopyForm := if b = 0#1 then .exact else .wild

/-- The operands `S`, `s`, `d` of a stride move. -/
def takeStride (k : Space → Pos → Pos → Instr) (bs : List Byte) : Except DecodeError (Instr × List Byte) := do
  let (m, bs) ← takeOperand 1 1 bs
  let (a, bs) ← takeOperand 32 4 bs
  let (d, bs) ← takeOperand 32 4 bs
  checked (k (spaceOf m) a d) bs

/-- The operands `s`, `d`, `n` of a literal copy. -/
def takeRun (k : Pos → Pos → Len → Instr) (bs : List Byte) : Except DecodeError (Instr × List Byte) := do
  let (a, bs) ← takeOperand 32 4 bs
  let (d, bs) ← takeOperand 32 4 bs
  let (n, bs) ← takeOperand 40 5 bs
  checked (k a d n) bs

/-- One operand of `w` bits in `n` bytes. -/
def takeOne (w n : Nat) (k : BitVec w → Instr) (bs : List Byte) : Except DecodeError (Instr × List Byte) := do
  let (x, bs) ← takeOperand w n bs
  checked (k x) bs

/-- Operation identifiers, units 0 and 3 and 4: the states (R25, R87). They take no operand. -/
def decodeStateOpid : Nat → Option Instr
  | 0x00 => some .idle
  | 0x0E => some .mMaxlen
  | 0x1E => some .done
  | 0x1F => some .error
  | 0x61 => some .eInit
  | 0x62 => some .eSearchInit
  | 0x63 => some .eProbe
  | 0x64 => some .eCatchup
  | 0x65 => some .eLitlen
  | 0x66 => some .eLitcopy
  | 0x67 => some .eOffset
  | 0x68 => some .eExtend
  | 0x69 => some .eMlen
  | 0x6A => some .eEndchk
  | 0x6B => some .eChain
  | 0x6C => some .eRehash
  | 0x6D => some .eLast
  | 0x81 => some .dInit
  | 0x82 => some .dToken
  | 0x83 => some .dLitext
  | 0x84 => some .dLitcopy
  | 0x85 => some .dEofchk
  | 0x86 => some .dOffset
  | 0x87 => some .dMlext
  | 0x88 => some .dMatch4
  | 0x89 => some .dMatchcopy
  | _ => none

/-- Operation identifiers, units 1, 2 and 5: TUN and PACK, the hash table, FCP (R87), with their operands. -/
def decodeUnitOpid (b : Byte) (bs : List Byte) : Except DecodeError (Instr × List Byte) :=
  match b.toNat with
  | 0x21 => takeOne 8 1 .tunSplit bs
  | 0x22 => .ok (.tunExt, bs)
  | 0x23 => takeOne 4 1 .tunLen bs
  | 0x24 => takeOne 40 5 .packToken bs
  | 0x25 => takeOne 40 5 .packExt bs
  | 0x41 => takeOne 32 4 .hashW bs
  | 0x42 => takeOne 32 4 .hashN bs
  | 0x43 => takeOne 32 4 .htSelect bs
  | 0x44 => .ok (.htClear, bs)
  | 0x45 => takeOne 13 2 .htLookup bs
  | 0x46 => do
    let (i, bs) ← takeOperand 13 2 bs
    let (p, bs) ← takeOperand 32 4 bs
    checked (.htInsert i p) bs
  | 0x47 => takeOne 32 4 .htProbe bs
  | 0x48 => do
    let (r, bs) ← takeOperand 33 5 bs
    let (p, bs) ← takeOperand 32 4 bs
    checked (.htAccept r p) bs
  | 0xA1 => takeStride .cp16 bs
  | 0xA2 => takeStride .cp8 bs
  | 0xA3 => takeStride .cp4 bs
  | 0xA4 => takeStride .cp2 bs
  | 0xA5 => takeStride .cp1 bs
  | 0xA6 => takeRun .fcpExact bs
  | 0xA7 => takeRun .fcpWild bs
  | 0xA8 => do
    let (r, bs) ← takeOperand 33 5 bs
    let (o, bs) ← takeOperand 32 4 bs
    let (n, bs) ← takeOperand 40 5 bs
    let (f, bs) ← takeOperand 1 1 bs
    checked (.mcopy r o n (formOf f)) bs
  | _ => .error (.reservedOpid b)

/-- An operation identifier and its operands (R87). -/
def decodeOpid : List Byte → Except DecodeError (Instr × List Byte)
  | [] => .error .truncated
  | b :: bs =>
    match decodeStateOpid b.toNat with
    | some i => .ok (i, bs)
    | none => decodeUnitOpid b bs

/-- The value written to CMD (R85, R86). -/
def decodeCmd (w : Word) : Except DecodeError Instr :=
  match w.toNat with
  | 1 => .ok .maxlen
  | 2 => .ok .compress
  | 3 => .ok .decompressKnown
  | 4 => .ok .decompressStream
  | _ => .error (.reservedCommand w)

/-- The high nibble of a byte (R72). -/
def highNibble (b : Byte) : BitVec 4 := b.extractLsb' 4 4

/-- The low nibble of a byte (R72). -/
def lowNibble (b : Byte) : BitVec 4 := b.extractLsb' 0 4

/-- The decoder: one instruction from the head of the bytes, and the bytes after it. -/
def decode : Ctx → List Byte → Except DecodeError (Instr × List Byte)
  | .token, b :: bs => .ok (.token (highNibble b) (lowNibble b), bs)
  | .ext, b :: bs => .ok (if b = 0xFF#8 then .extCont else .extTerm b, bs)
  | .literal, b :: bs => .ok (.literal b, bs)
  | .offset, l :: h :: bs => .ok (.offset (h ++ l), bs)
  | .cmd, bs => do
    let (w, bs) ← takeOperand 32 4 bs
    let i ← decodeCmd w
    .ok (i, bs)
  | .opid, bs => decodeOpid bs
  | .token, [] | .ext, [] | .literal, [] | .offset, [] | .offset, [_] => .error .truncated

/-- Where an instruction's bits stand. -/
def Instr.ctx : Instr → Ctx
  | .token _ _ => .token
  | .extCont | .extTerm _ => .ext
  | .literal _ => .literal
  | .offset _ => .offset
  | .maxlen | .compress | .decompressKnown | .decompressStream => .cmd
  | .idle | .mMaxlen | .done | .error => .opid
  | .tunSplit _ | .tunExt | .tunLen _ | .packToken _ | .packExt _ => .opid
  | .hashW _ | .hashN _ | .htSelect _ | .htClear | .htLookup _ | .htInsert _ _ | .htProbe _ | .htAccept _ _ => .opid
  | .eInit | .eSearchInit | .eProbe | .eCatchup | .eLitlen | .eLitcopy | .eOffset | .eExtend | .eMlen | .eEndchk
  | .eChain | .eRehash | .eLast => .opid
  | .dInit | .dToken | .dLitext | .dLitcopy | .dEofchk | .dOffset | .dMlext | .dMatch4 | .dMatchcopy => .opid
  | .cp16 _ _ _ | .cp8 _ _ _ | .cp4 _ _ _ | .cp2 _ _ _ | .cp1 _ _ _ => .opid
  | .fcpExact _ _ _ | .fcpWild _ _ _ | .mcopy _ _ _ _ => .opid

/-- The bytes of a stride move's operands. -/
def strideBytes (m : Space) (a d : Pos) : List Byte :=
  leBytes 1 (if m = .src then 0 else 1) ++ leBytes 4 a.toNat ++ leBytes 4 d.toNat

/-- The bytes of a literal copy's operands. -/
def runBytes (a d : Pos) (n : Len) : List Byte :=
  leBytes 4 a.toNat ++ leBytes 4 d.toNat ++ leBytes 5 n.toNat

/-- The encoder: the bytes of an instruction (R72, R74, R77, R78, R85, R87). -/
def encode : Instr → List Byte
  | .token ll ml => [ll ++ ml]
  | .extCont => [0xFF#8]
  | .extTerm v => [v]
  | .literal b => [b]
  | .offset o => leBytes 2 o.toNat
  | .maxlen => leBytes 4 1
  | .compress => leBytes 4 2
  | .decompressKnown => leBytes 4 3
  | .decompressStream => leBytes 4 4
  | .idle => [0x00#8]
  | .mMaxlen => [0x0E#8]
  | .done => [0x1E#8]
  | .error => [0x1F#8]
  | .tunSplit t => 0x21#8 :: [t]
  | .tunExt => [0x22#8]
  | .tunLen c => 0x23#8 :: leBytes 1 c.toNat
  | .packToken l => 0x24#8 :: leBytes 5 l.toNat
  | .packExt r => 0x25#8 :: leBytes 5 r.toNat
  | .hashW w => 0x41#8 :: leBytes 4 w.toNat
  | .hashN w => 0x42#8 :: leBytes 4 w.toNat
  | .htSelect n => 0x43#8 :: leBytes 4 n.toNat
  | .htClear => [0x44#8]
  | .htLookup i => 0x45#8 :: leBytes 2 i.toNat
  | .htInsert i p => 0x46#8 :: (leBytes 2 i.toNat ++ leBytes 4 p.toNat)
  | .htProbe p => 0x47#8 :: leBytes 4 p.toNat
  | .htAccept r p => 0x48#8 :: (leBytes 5 r.toNat ++ leBytes 4 p.toNat)
  | .eInit => [0x61#8]
  | .eSearchInit => [0x62#8]
  | .eProbe => [0x63#8]
  | .eCatchup => [0x64#8]
  | .eLitlen => [0x65#8]
  | .eLitcopy => [0x66#8]
  | .eOffset => [0x67#8]
  | .eExtend => [0x68#8]
  | .eMlen => [0x69#8]
  | .eEndchk => [0x6A#8]
  | .eChain => [0x6B#8]
  | .eRehash => [0x6C#8]
  | .eLast => [0x6D#8]
  | .dInit => [0x81#8]
  | .dToken => [0x82#8]
  | .dLitext => [0x83#8]
  | .dLitcopy => [0x84#8]
  | .dEofchk => [0x85#8]
  | .dOffset => [0x86#8]
  | .dMlext => [0x87#8]
  | .dMatch4 => [0x88#8]
  | .dMatchcopy => [0x89#8]
  | .cp16 m a d => 0xA1#8 :: strideBytes m a d
  | .cp8 m a d => 0xA2#8 :: strideBytes m a d
  | .cp4 m a d => 0xA3#8 :: strideBytes m a d
  | .cp2 m a d => 0xA4#8 :: strideBytes m a d
  | .cp1 m a d => 0xA5#8 :: strideBytes m a d
  | .fcpExact a d n => 0xA6#8 :: runBytes a d n
  | .fcpWild a d n => 0xA7#8 :: runBytes a d n
  | .mcopy r o n f =>
    0xA8#8 :: (leBytes 5 r.toNat ++ leBytes 4 o.toNat ++ leBytes 5 n.toNat ++ leBytes 1 (if f = .exact then 0 else 1))

/-- The longest instruction is MCOPY: its label and 15 operand bytes. -/
def longestOperands : Nat := 15

/-- The bytes of a table word: `nbits` bits of `w`, the least significant byte first, and zeros above them up to the longest
instruction. -/
def tableBytes (nbits w : Nat) : List Byte :=
  leBytes (nbits / 8) w ++ List.replicate longestOperands 0#8

/-- Which of the three encodings a table word of `nbits` bits belongs to. A 32-bit word is a value of CMD and a 16-bit word
an OFFSET. An 8-bit word that labels an operation is that label; of the other bytes 0xFF is EXT.CONT and the rest are TOKENs.
The wire bytes overlap the labels and one another (only the decoder state tells them apart, R81), so this choice is the
model's (log entry 11). -/
def tableCtx (nbits w : Nat) : Option Ctx :=
  if 2 ^ nbits ≤ w then none
  else if nbits = 32 then some .cmd
  else if nbits = 16 then some .offset
  else if nbits = 8 then
    match decodeOpid (tableBytes nbits w) with
    | .ok _ => some .opid
    | .error _ => if w = 0xFF then some .ext else some .token
  else none

/-- The instruction the decoder reads from a word numbered as spec/opcode_table.json numbers it. -/
def decodeTableWord (nbits w : Nat) : Option Instr :=
  match tableCtx nbits w with
  | none => none
  | some c =>
    match decode c (tableBytes nbits w) with
    | .ok (i, _) => some i
    | .error _ => none

end Sys2Proof
end

