-- ==== Sys2Proof/Config.lean ====
section
/-! DEFINITION. The free values: what the spec says is unspecified or drawn, as constants with no body, so that nothing can be
proved about any one of them. -/

namespace Sys2Proof.Config

/-- The byte an address of SRC or DST holds while nothing has written it since reset (R35, U10, U3, U2): unspecified, so a
free value for each memory and address (log entry 2). -/
opaque powerOnByte : Space → Nat → BitVec 8

/-- The `draw()` of R227, R228 and D38: the value of the k-th byte drawn since reset (log entries 4, 25). -/
opaque drawByte : Nat → BitVec 8

/-- The `z <- some value in 0 .. 7` of R229, for the copy that begins at the k-th draw (log entry 5). -/
opaque zoneSize : Nat → BitVec 3

/-- What an entry of the narrow table holds after the insertion of a position that does not fit its 16 bits, which R126 does not
say: a free value for each bucket and position, as ENC has no draw (R158; log entry 15). -/
opaque narrowEntry : BitVec 13 → BitVec 32 → BitVec 16

/-- What a lookup at an index the wide table has not returns, which R126 does not say: a free value for the k-th draw (log entry 15). -/
opaque strayEntry : Nat → BitVec 32

/-- Which entry of the wide table, if any, an insertion at an index the table has not overwrites, which R126 does not say: a free value
for the k-th draw (log entry 15). -/
opaque strayBucket : Nat → Option (BitVec 12)

end Sys2Proof.Config
end

