-- ==== Sys2Proof/Machine/Constants.lean ====
section
/-! DEFINITION. The constants of spec/00_scope.md R5, R6, R7 under the spec's names. -/

namespace Sys2Proof.Machine

/-- R5: the shortest match. -/
abbrev minMatch : Nat := 4
/-- R5: the last bytes of a block, never covered by a match. -/
abbrev lastLiterals : Nat := 5
/-- R5: the search stops within this many bytes of the input end. -/
abbrev mfLimit : Nat := 12
/-- R5: a shorter block skips the main loop. -/
abbrev minLength : Nat := 17
/-- R5: the wide stride and the near-end margin of the decoder. -/
abbrev copyLength : Nat := 8
/-- R5: the search step is `attempts >> skipStrength`. -/
abbrev skipStrength : Nat := 6
/-- R5: the largest backward distance. -/
abbrev maxDistance : Nat := 65535
/-- R5: the index width of the wide table. -/
abbrev hashLog : Nat := 12
/-- R5: the multiplier of the hash. -/
def hashMul : Word := 2654435761#32
/-- R5: the saturating value of the literal length code. -/
abbrev runMask : Nat := 15
/-- R5: the saturating value of the match length code. -/
abbrev mlMask : Nat := 15
/-- R6: the width of the match length field of a token. -/
abbrev mlBits : Nat := 4
/-- R6: the number of entries of the wide table. -/
abbrev tableSizeW : Nat := 4096
/-- R6: the number of entries of the narrow table. -/
abbrev tableSizeN : Nat := 8192
/-- R6: a shorter input uses the narrow table. -/
abbrev limit64K : Nat := 65546
/-- R6: the initial search attempt counter. -/
def attemptsInit : Word := 67#32
/-- R7: the largest input length of MAXLEN and COMPRESS. -/
abbrev maxSrcLen : Nat := 2139095024
/-- R7: SRC and DST are at most `2^31 - 1` bytes. -/
abbrev maxMemSize : Nat := 2147483647

/-- R251: `maxCompressedLength(n)`. -/
def maxCompressed (n : Nat) : Nat := n + n / 255 + 16

end Sys2Proof.Machine
end

