-- ==== Sys2Proof/Machine/State.lean ====
section
/-! DEFINITION. The state of the engine as plain data, the reasons a step can stop, and the state after reset. -/

namespace Sys2Proof.Machine

/-- The values of the state register `st` (R24, R25). -/
inductive St where
  | idle | mMaxlen
  | eInit | eSearchInit | eProbe | eCatchup | eLitlen | eLitcopy | eOffset | eExtend | eMlen | eEndchk | eChain | eRehash | eLast
  | dInit | dToken | dLitext | dLitcopy | dEofchk | dOffset | dMlext | dMatch4 | dMatchcopy
  | done | error
  deriving DecidableEq, Repr

/-- The field STATUS.STATE (R27). -/
inductive EngState where
  | idle | busy | done | error
  deriving DecidableEq, Repr

/-- The decoder variant, register `mode` (R21): 0 known-size, 1 streaming. -/
inductive Mode where
  | known | streaming
  deriving DecidableEq, Repr

/-- The hash table variant, register `variant` (R21): 0 narrow, 1 wide. -/
inductive Variant where
  | narrow | wide
  deriving DecidableEq, Repr

/-- The six control and status registers (R26). -/
inductive Csr where
  | cmd | status | srcLen | dstCap | expLen | result
  deriving DecidableEq, Repr

/-- STATUS by its fields (R27); `Status.word` in Machine/Flags.lean is the register as the host reads it. -/
structure Status where
  state : EngState
  variant : Variant
  lenmis : Bool
  errcode : BitVec 4
  deriving DecidableEq, Repr

/-- The moves of the host (R259). The last two are the ways it lets a command run (R250 (d); log entry 12). -/
inductive HostMove where
  | writeSrc (a : Pos) (b : Byte)
  | writeDst (a : Pos) (b : Byte)
  | readSrc (a : Pos)
  | readDst (a : Pos)
  | writeCsr (c : Csr) (v : Word)
  | readCsr (c : Csr)
  /-- wait, for one step of the engine while a command runs -/
  | wait
  /-- read STATUS, again and again, until its STATE is DONE or ERROR -/
  | pollEnd
  deriving DecidableEq, Repr

/-- A byte memory: address and byte, in the canonical form of `Memory.wf` (Machine/Ops.lean). -/
abbrev Memory := List Host.Cell

/-- A hash table: index and entry, in the canonical form of `Table.wf` (Machine/Ops.lean). -/
abbrev Table (w : Nat) := List (Nat × BitVec w)

/-- Everything the spec gives the machine, and the model's own fields at the end. -/
structure State where
  /-- SRC_SIZE (R7, R32): a parameter, which no step changes (log entry 1). -/
  srcSize : Nat
  /-- DST_SIZE (R7, R32): a parameter, which no step changes (log entry 1). -/
  dstSize : Nat
  ip : Pos
  op : Pos
  anchor : Pos
  ref : Ref
  fwd : Pos
  attempts : Word
  h : Bucket
  tokpos : Pos
  mstart : Pos
  iend : Pos
  mflimit : Pos
  matchlimit : Pos
  oend : Pos
  tok : Byte
  ll : BitVec 4
  ml : BitVec 4
  len : Len
  cpy : Len
  off : BitVec 16
  mode : Mode
  variant : Variant
  st : St
  /-- CMD as the engine reads it (R50, R181); the host reads 0 (R26). -/
  cmd : Word
  status : Status
  srcLen : Word
  dstCap : Word
  expLen : Word
  result : Word
  htW : Table 32
  htN : Table 16
  src : Memory
  dst : Memory
  /-- the model's own: how many draws have been used (log entry 4) -/
  draws : Nat
  /-- the model's own: the result `more` of TUN.EXT run alone (log entry 9) -/
  more : Bool
  /-- the model's own: the result of HT.ACCEPT run alone (log entry 9) -/
  accepted : Bool
  /-- the model's own: the bytes of the operation of a label (R87) to be run alone (log entry 8) -/
  invoke : List Byte
  /-- the model's own: the host moves still to be performed, in order (log entry 12) -/
  host : List HostMove
  /-- the model's own: what the host's last read returned (log entry 12) -/
  hostData : Word
  deriving DecidableEq, Repr

/-- Why the machine stops with a fault. -/
inductive Fault where
  /-- R285 SrcRange: a SRC read at an address that SRC has not (R59). Raised by every operation that reads SRC. Safe: the
  spec gives the read no value. -/
  | srcRange
  /-- R285 BadRef: a DST read at a negative address (R60). Raised by D.MATCH4 and MCOPY. Safe: the spec gives the read no
  value. -/
  | badRef
  /-- The model's own: a DST access at an address that DST has not (R50, R58, R61, R62). Raised by every operation that
  writes or reads DST. Safe: there is no memory there (log entry 14). -/
  | dstRange
  deriving DecidableEq, Repr

/-- Why the machine gives no meaning. -/
inductive Refusal where
  /-- No meaning written yet, by mnemonic. Raised by no arm of exec. Safe. -/
  | notModelled (mnemonic : String)
  /-- R86, R256: a reserved value written to CMD. Raised by the step. Safe: the spec refuses the run. -/
  | reservedCommand (w : Word)
  /-- R258 row 1, R251: SRC_LEN > MAX_SRC_LEN. Raised by MAXLEN, COMPRESS and M.MAXLEN. Safe: the spec refuses. -/
  | srcLenTooLarge
  /-- R58, R258 rows 1 and 6, D9: SRC_LEN > SRC_SIZE. Raised by MAXLEN, COMPRESS, DECOMPRESS_STREAM and M.MAXLEN. Safe: the spec
  refuses (for MAXLEN: log entry 28). -/
  | srcLenBeyondSrc
  /-- R258 row 2: DST_CAP below the bound. Raised by COMPRESS. Safe: the spec refuses. -/
  | dstCapTooSmall
  /-- R258 row 3: DST_CAP > DST_SIZE. Raised by COMPRESS and DECOMPRESS_STREAM. Safe: the spec refuses. -/
  | dstCapBeyondDst
  /-- R258 row 6: DST_CAP >= 2^31. Raised by DECOMPRESS_STREAM. Safe: the spec refuses. -/
  | dstCapTooLarge
  /-- R258 row 5: EXP_LEN > DST_SIZE. Raised by DECOMPRESS_KNOWN. Safe: the spec refuses. -/
  | expLenBeyondDst
  /-- R258 row 5: EXP_LEN >= 2^31. Raised by DECOMPRESS_KNOWN. Safe: the spec refuses. -/
  | expLenTooLarge
  /-- R258 row 7, R259: a command while STATUS.STATE is BUSY, which is no host move. Raised by the four commands. Safe. -/
  | busy
  /-- The model's own: a wire element outside the decoder state that gives it its meaning (R81). Raised by the five wire
  elements. Safe (log entry 11). -/
  | outOfContext (mnemonic : String)
  /-- The model's own: a host access to an address SRC or DST has not (R259). Raised by the host moves. Safe (log entry 20). -/
  | hostRange
  /-- The model's own: bytes in `invoke` that the decoder reads as no label of R87 with its operands. Raised by the step.
  Safe (log entry 8). -/
  | badInvocation
  deriving DecidableEq, Repr

/-- The outcome of a meaning. -/
abbrev Out := Host.Outcome State Fault Refusal

/-- The machine right after reset (R35). The cursor registers and the hash tables have no reset value in the spec: 0 (log
entry 3); the sizes are the largest R7 allows (log entry 1). -/
def State.reset : State where
  srcSize := maxMemSize
  dstSize := maxMemSize
  ip := 0#32
  op := 0#32
  anchor := 0#32
  ref := 0#33
  fwd := 0#32
  attempts := 0#32
  h := 0#13
  tokpos := 0#32
  mstart := 0#32
  iend := 0#32
  mflimit := 0#32
  matchlimit := 0#32
  oend := 0#32
  tok := 0#8
  ll := 0#4
  ml := 0#4
  len := 0#40
  cpy := 0#40
  off := 0#16
  mode := .known
  variant := .narrow
  st := .idle
  cmd := 0#32
  status := { state := .idle, variant := .narrow, lenmis := false, errcode := 0#4 }
  srcLen := 0#32
  dstCap := 0#32
  expLen := 0#32
  result := 0#32
  htW := []
  htN := []
  src := []
  dst := []
  draws := 0
  more := false
  accepted := false
  invoke := []
  host := []
  hostData := 0#32

end Sys2Proof.Machine
end

