-- ==== Sys2Proof/Machine/Flags.lean ====
section
/-! DEFINITION. The status fields. The engine has no arithmetic flags (R28): the only flags are the fields of STATUS (R27),
and the decoder's saturation result `more` (R102) is a value, not a flag. -/

namespace Sys2Proof.Machine

/-- R27: the two bits of STATUS.STATE. -/
def EngState.code : EngState → BitVec 2
  | .idle => 0#2
  | .busy => 1#2
  | .done => 2#2
  | .error => 3#2

/-- R21, R27: the bit of a table variant. -/
def Variant.bit : Variant → BitVec 1
  | .narrow => 0#1
  | .wide => 1#1

/-- R21: the bit of a decoder variant. -/
def Mode.bit : Mode → BitVec 1
  | .known => 0#1
  | .streaming => 1#1

/-- R27: STATUS as the host reads it. STATE in 1:0, VARIANT in 2, LENMIS in 3, ERRCODE in 7:4, and 31:8 read as 0. -/
def Status.word (s : Status) : Word :=
  0#24 ++ s.errcode ++ BitVec.ofBool s.lenmis ++ s.variant.bit ++ s.state.code

/-- R26: the number of a control and status register. -/
def Csr.number : Csr → Nat
  | .cmd => 0
  | .status => 1
  | .srcLen => 2
  | .dstCap => 3
  | .expLen => 4
  | .result => 5

/-- R26: its byte offset from the base of the CSR space. -/
def Csr.offset (c : Csr) : Nat := 4 * c.number

/-- R250: STATUS at the start of a command. VARIANT is cleared by every command but COMPRESS. -/
def Status.start (isCompress : Bool) (s : Status) : Status :=
  { state := .busy, variant := if isCompress then s.variant else .narrow, lenmis := false, errcode := 0#4 }

/-- R154, R251: STATUS when a command ends in success. -/
def Status.finish (s : Status) : Status := { s with state := .done }

/-- R190, R197: STATUS when a decompress command ends in success. -/
def Status.finishDec (lenmis : Bool) (s : Status) : Status := { s with state := .done, lenmis := lenmis }

/-- R283: STATUS on an output overflow. -/
def Status.fail (s : Status) : Status := { s with state := .error, errcode := 1#4 }

/-- R141: E.INIT mirrors the variant it chose. -/
def Status.withVariant (v : Variant) (s : Status) : Status := { s with variant := v }

/-- R197: LENMIS at DONE, set when a known-size decompress produced another length than EXP_LEN. -/
def lenMismatch (s : State) : Bool := decide (s.mode = .known) && decide (s.op ≠ s.oend)

end Sys2Proof.Machine
end

