-- ==== Sys2Proof/Machine/Ops.lean ====
section
/-! DEFINITION. The named operations: association lists in canonical form, reading and writing SRC, DST, HT and the CSRs,
moving a cursor, drawing free bytes, starting a command, ending one, and the one architected error (R283). -/

namespace Sys2Proof.Machine

/-- Go on with a value, or stop with its fault. -/
def orFault {α : Type} (r : Except Fault α) (k : α → Out) : Out :=
  match r with
  | .ok a => k a
  | .error f => .fault f

/-! ### Association lists -/

/-- The value listed at a key. -/
def Assoc.lookup {α : Type} : List (Nat × α) → Nat → Option α
  | [], _ => none
  | (k, v) :: m, a => if a = k then some v else Assoc.lookup m a

/-- List a value at a key, keeping the keys in rising order. -/
def Assoc.insert {α : Type} : List (Nat × α) → Nat → α → List (Nat × α)
  | [], a, b => [(a, b)]
  | (k, v) :: m, a, b =>
    if a < k then (a, b) :: (k, v) :: m
    else if a = k then (a, b) :: m
    else (k, v) :: Assoc.insert m a b

/-- List nothing at a key. -/
def Assoc.erase {α : Type} (m : List (Nat × α)) (a : Nat) : List (Nat × α) :=
  m.filter fun e => decide (e.1 ≠ a)

/-! ### The byte memories -/

/-- The canonical form of a memory: addresses strictly rising. An unlisted address has no value of its own: nothing has
written it since reset, so no entry can equal what it reads as (log entry 2). -/
abbrev Memory.wf (m : Memory) : Prop := m.Pairwise fun x y => x.1 < y.1

/-- What one address reads as: the byte listed, or a free value where nothing has written since reset (R35, R59, U10). -/
def Memory.byte (sp : Space) (m : Memory) (a : Nat) : Byte :=
  (Assoc.lookup m a).getD (Config.powerOnByte sp a)

/-- `n` consecutive bytes from address `a` up. -/
def Memory.bytes (sp : Space) (m : Memory) (a : Nat) : Nat → List Byte
  | 0 => []
  | n + 1 => Memory.byte sp m a :: Memory.bytes sp m (a + 1) n

/-- Write consecutive bytes from address `a` up, in ascending order (R53). -/
def Memory.store (m : Memory) (a : Nat) : List Byte → Memory
  | [] => m
  | b :: bs => Memory.store (Assoc.insert m a b) (a + 1) bs

/-- The byte-serial forward copy inside one memory: each read sees every earlier write (R63, R188, R229). -/
def Memory.copyUp (sp : Space) (m : Memory) (r d : Nat) : Nat → Memory
  | 0 => m
  | n + 1 => Memory.copyUp sp (Assoc.insert m d (Memory.byte sp m r)) (r + 1) (d + 1) n

/-- The contents of SRC or DST. -/
def State.mem (s : State) : Space → Memory
  | .src => s.src
  | .dst => s.dst

/-- SRC_SIZE or DST_SIZE (R32). -/
def State.size (s : State) : Space → Nat
  | .src => s.srcSize
  | .dst => s.dstSize

/-- The byte at an address of SRC, wherever it is. -/
def State.srcAt (s : State) (a : Nat) : Byte := Memory.byte .src s.src a

/-- The byte at an address of DST, wherever it is. -/
def State.dstAt (s : State) (a : Nat) : Byte := Memory.byte .dst s.dst a

/-- The fault of reading a memory below its address 0. For DST it is R60's. For SRC the spec names none, as R59 and R285 speak of
addresses at or above SRC_SIZE only: SrcRange is the model's (DESIGN CHOICE, log entry 14). -/
def faultBelow : Space → Fault
  | .src => .srcRange
  | .dst => .badRef

/-- The fault of reading a memory at or above its size (R59, R285; DST: log entry 14). -/
def faultAbove : Space → Fault
  | .src => .srcRange
  | .dst => .dstRange

/-- R53, R59, R60: read `n` consecutive bytes, each of which must be in the memory. -/
def State.readBytes (s : State) (sp : Space) (a : Int) (n : Nat) : Except Fault (List Byte) :=
  if n = 0 then .ok []
  else if a < 0 then .error (faultBelow sp)
  else if a.toNat + n ≤ s.size sp then .ok (Memory.bytes sp (s.mem sp) a.toNat n)
  else .error (faultAbove sp)

/-- R53: read one byte. -/
def State.readByte (s : State) (sp : Space) (a : Int) : Except Fault Byte :=
  if a < 0 then .error (faultBelow sp)
  else if a.toNat < s.size sp then .ok (Memory.byte sp (s.mem sp) a.toNat)
  else .error (faultAbove sp)

/-- R53, R9 `MemRead`: the unsigned little-endian value of `n` bytes. -/
def State.memRead (s : State) (sp : Space) (a : Int) (n : Nat) : Except Fault Nat :=
  (s.readBytes sp a n).map leValue

/-- R53: write consecutive bytes of DST, each of which must be in DST (log entry 14). -/
def State.writeDst (s : State) (a : Nat) (bs : List Byte) : Except Fault State :=
  if bs.isEmpty then .ok s
  else if a + bs.length ≤ s.dstSize then .ok { s with dst := Memory.store s.dst a bs }
  else .error .dstRange

/-- R53, R9 `MemWrite` to DST: the `n` low-order bytes of `v`. -/
def State.memWrite (s : State) (a n v : Nat) : Except Fault State := s.writeDst a (leBytes n v)

/-- `n` cells from address `a` up that hold drawn bytes, from the `k`-th draw on. -/
def drawCells (k a : Nat) : Nat → Memory
  | 0 => []
  | n + 1 => (a, Config.drawByte k) :: drawCells (k + 1) (a + 1) n

/-- The memory with the bytes of `n` addresses from `a` up drawn anew, from the `k`-th draw on, and every other byte as it is. -/
def Memory.redraw (m : Memory) (k a n : Nat) : Memory :=
  (m.filter fun e => decide (e.1 < a)) ++ drawCells k a n ++ m.filter fun e => decide (a + n ≤ e.1)

/-! ### Cursors -/

/-- Move a position up, exactly, narrowed at the register (R8, R22; log entry 13). -/
def advance (p : Pos) (n : Nat) : Pos := BitVec.ofNat 32 (p.toNat + n)

/-! ### The hash table -/

/-- The canonical form of a table: indexes strictly rising, and no entry that is 0, which is what an unlisted index reads as
(R125). -/
abbrev Table.wf {w : Nat} (t : Table w) : Prop :=
  (t.Pairwise fun x y => x.1 < y.1) ∧ ∀ e ∈ t, e.2 ≠ 0#w

/-- An entry; an unlisted one is 0 (R125). -/
def Table.get {w : Nat} (t : Table w) (i : Nat) : BitVec w := (Assoc.lookup t i).getD 0#w

/-- Write an entry. -/
def Table.set {w : Nat} (t : Table w) (i : Nat) (v : BitVec w) : Table w :=
  if v = 0#w then Assoc.erase t i else Assoc.insert t i v

/-- The entry of the selected variant, wherever the index is. -/
def State.htAt (s : State) (i : Bucket) : Word :=
  match s.variant with
  | .wide => Table.get s.htW i.toNat
  | .narrow => (Table.get s.htN i.toNat).setWidth 32

/-- Whether the selected variant has an index: the narrow one has every 13-bit index, the wide one the lower half (R31). -/
abbrev State.bucketOk (s : State) (i : Bucket) : Prop := s.variant = .wide → i.toNat < tableSizeW

/-- Whether a position fits an entry of the selected variant: 16 bits in the narrow one (R31, R126). -/
abbrev State.entryOk (s : State) (p : Pos) : Prop := s.variant = .narrow → p.toNat < 2 ^ 16

/-- The 16 bits a narrow entry holds after the insertion of a position: the position, or a free value where it does not fit (R126; log
entry 15). -/
def narrowEntryOf (i : Bucket) (p : Pos) : BitVec 16 :=
  if p.toNat < 2 ^ 16 then p.setWidth 16 else Config.narrowEntry i p

/-- The state with an entry of the selected variant written. -/
def State.htPut (s : State) (i : Bucket) (p : Pos) : State :=
  match s.variant with
  | .wide => { s with htW := Table.set s.htW i.toNat p }
  | .narrow => { s with htN := Table.set s.htN i.toNat (narrowEntryOf i p) }

/-- The wide table after an insertion at an index it has not: some entry overwritten, or none (log entry 15). -/
def State.strayPut (s : State) (p : Pos) : Table 32 :=
  match Config.strayBucket s.draws with
  | some j => Table.set s.htW j.toNat p
  | none => s.htW

/-- R126 HT.LOOKUP in the selected variant: the entry, and the state after. At an index the table has not the entry is a free value, and
a draw is used (log entry 15). -/
def State.htGet (s : State) (i : Bucket) : Word × State :=
  if s.bucketOk i then (s.htAt i, s) else (Config.strayEntry s.draws, { s with draws := s.draws + 1 })

/-- R126 HT.INSERT in the selected variant. At an index the table has not, the entry that is overwritten is free, and a draw is used (log
entry 15). -/
def State.htSet (s : State) (i : Bucket) (p : Pos) : State :=
  if s.bucketOk i then s.htPut i p else { s with htW := s.strayPut p, draws := s.draws + 1 }

/-- R125 HT.CLEAR: every entry of the selected variant is 0 (log entry 17). -/
def State.htReset (s : State) : State :=
  match s.variant with
  | .wide => { s with htW := [] }
  | .narrow => { s with htN := [] }

/-! ### Draws -/

/-- `n` drawn bytes, from the `k`-th draw on (R228; log entry 4). -/
def drawBytes (k n : Nat) : List Byte := (List.range n).map fun j => Config.drawByte (k + j)

/-- The bytes of the seven addresses a wild match copy may overrun into, from address `e` and not beyond DST: the first `z` of them
drawn, with `z` free in 0 .. 7, the rest as they are (R229; log entry 5). Run alone past the caller's bound, the zone is not cut at the
output limit `oend` (DESIGN CHOICE, log entry 5). -/
def State.zoneBytes (s : State) (e : Nat) : List Byte :=
  (List.range (min 7 (s.dstSize - e))).map fun j =>
    if j < (Config.zoneSize s.draws).toNat then Config.drawByte (s.draws + j) else s.dstAt (e + j)

/-! ### Commands -/

/-- The code of COMPRESS in CMD (R85). -/
def cmdCompress : Word := 2#32
/-- The code of MAXLEN in CMD (R85). -/
def cmdMaxlen : Word := 1#32
/-- The code of DECOMPRESS_KNOWN in CMD (R85). -/
def cmdKnown : Word := 3#32
/-- The code of DECOMPRESS_STREAM in CMD (R85). -/
def cmdStream : Word := 4#32

/-- R250: the effect of writing a defined code to CMD, as one step. -/
def State.startCommand (s : State) (code : Word) (st : St) : State :=
  { s with cmd := code, status := s.status.start (decide (code = cmdCompress)), st := st }

/-- R251: the end of MAXLEN. -/
def State.endMaxlen (s : State) : State :=
  { s with result := BitVec.ofNat 32 (maxCompressed s.srcLen.toNat), status := s.status.finish, st := .done }

/-- R154: DONE after ENC. -/
def State.endEnc (s : State) : State :=
  { s with result := s.op, status := s.status.finish, st := .done }

/-- How many bytes of DST lie from `op` up to the output limit (R193); the limit is inside DST in every command (R258). -/
def State.tailSize (s : State) : Nat := min s.oend.toNat s.dstSize - s.op.toNat

/-- R33 (c), R193, R284, U6, D38: at the end of a decompress command, whatever its outcome, each byte of DST from `op` up to the output
limit is unspecified: it is drawn (log entry 25). -/
def State.loseTail (s : State) : State :=
  if s.tailSize = 0 then s
  else { s with dst := Memory.redraw s.dst s.draws s.op.toNat s.tailSize, draws := s.draws + s.tailSize }

/-- R190, R197: DONE after DEC. What DST holds from `op` to the output limit is unspecified then (R193; log entry 25). -/
def State.endDec (s : State) : State :=
  { s.loseTail with
    result := (match s.mode with
      | .known => s.ip
      | .streaming => s.op)
    status := s.status.finishDec (lenMismatch s)
    st := .done }

/-- R283: the error entry, `raise OutputOverflow(ip)`, as one step. It is the one exception of this hardware; there is no
return from it (R288). What DST holds from `op` to the output limit is unspecified then (R284; log entry 25). -/
def State.raiseOverflow (s : State) : State :=
  { s.loseTail with result := -s.ip, status := s.status.fail, st := .error }

/-! ### The host -/

/-- R26: what the host reads from a control and status register. -/
def State.csrRead (s : State) : Csr → Word
  | .cmd => 0#32
  | .status => s.status.word
  | .srcLen => s.srcLen
  | .dstCap => s.dstCap
  | .expLen => s.expLen
  | .result => s.result

/-- R26: a host write to a register other than CMD; STATUS and RESULT ignore it. A write to CMD is a command and is not
performed here (Machine/Fetch.lean). -/
def State.csrWrite (s : State) (c : Csr) (v : Word) : State :=
  match c with
  | .cmd => s
  | .status => s
  | .srcLen => { s with srcLen := v }
  | .dstCap => { s with dstCap := v }
  | .expLen => { s with expLen := v }
  | .result => s

/-- R259: a host move other than a command, when no command runs. A byte outside SRC or DST is no byte of it (log entry 20). There
is nothing to wait for, and `pollEnd` reads STATUS once more. -/
def hostMove (m : HostMove) (s : State) : Out :=
  match m with
  | .writeSrc a b =>
    if a.toNat < s.srcSize then .next { s with src := Memory.store s.src a.toNat [b] } else .refused .hostRange
  | .writeDst a b =>
    if a.toNat < s.dstSize then .next { s with dst := Memory.store s.dst a.toNat [b] } else .refused .hostRange
  | .readSrc a =>
    if a.toNat < s.srcSize then .next { s with hostData := (s.srcAt a.toNat).setWidth 32 } else .refused .hostRange
  | .readDst a =>
    if a.toNat < s.dstSize then .next { s with hostData := (s.dstAt a.toNat).setWidth 32 } else .refused .hostRange
  | .writeCsr c v => .next (s.csrWrite c v)
  | .readCsr c => .next { s with hostData := s.csrRead c }
  | .wait => .next s
  | .pollEnd => .next { s with hostData := s.csrRead .status }

/-- R64, R250 (d), R259: what the host does beside a step of a running command. It reads STATUS, once or as part of `pollEnd`, or it
waits; any other move of its own waits until the command has ended (log entry 12). The read returns the whole of STATUS, VARIANT as E.INIT
has written it included (R27, R141), although R250 has the host observe STATE = BUSY alone (DESIGN CHOICE, log entry 12). -/
def State.hostBusy (s : State) : State :=
  match s.host with
  | .readCsr .status :: rest => { s with host := rest, hostData := s.csrRead .status }
  | .wait :: rest => { s with host := rest }
  | .pollEnd :: _ => { s with hostData := s.csrRead .status }
  | _ => s

end Sys2Proof.Machine
end

