-- ==== Sys2Proof/Machine/Commands.lean ====
section
/-! DEFINITION. The meanings of the four host commands (their start, R250, with the preconditions of R258) and of the host and
terminal states IDLE, M.MAXLEN, DONE and ERROR. -/

namespace Sys2Proof.Machine

/-- R251: start MAXLEN. Preconditions R251 and R58, D9, U9: both parts of R258 row 1, whose words "first part" beside MAXLEN read
otherwise (DEDUCED, log entry 28). -/
def execMaxlen (s : State) : Out :=
  if s.status.state = .busy then .refused .busy
  else if maxSrcLen < s.srcLen.toNat then .refused .srcLenTooLarge
  else if s.srcSize < s.srcLen.toNat then .refused .srcLenBeyondSrc
  else .next (s.startCommand cmdMaxlen .mMaxlen)

/-- R252: start COMPRESS. Preconditions R258 rows 1 to 3. -/
def execCompress (s : State) : Out :=
  if s.status.state = .busy then .refused .busy
  else if maxSrcLen < s.srcLen.toNat then .refused .srcLenTooLarge
  else if s.srcSize < s.srcLen.toNat then .refused .srcLenBeyondSrc
  else if s.dstCap.toNat < maxCompressed s.srcLen.toNat then .refused .dstCapTooSmall
  else if s.dstSize < s.dstCap.toNat then .refused .dstCapBeyondDst
  else .next (s.startCommand cmdCompress .eInit)

/-- R253: start DECOMPRESS_KNOWN. Preconditions R258 row 5. -/
def execDecompressKnown (s : State) : Out :=
  if s.status.state = .busy then .refused .busy
  else if s.dstSize < s.expLen.toNat then .refused .expLenBeyondDst
  else if maxMemSize < s.expLen.toNat then .refused .expLenTooLarge
  else .next (s.startCommand cmdKnown .dInit)

/-- R254: start DECOMPRESS_STREAM. Preconditions R258 rows 3 and 6. -/
def execDecompressStream (s : State) : Out :=
  if s.status.state = .busy then .refused .busy
  else if s.srcSize < s.srcLen.toNat then .refused .srcLenBeyondSrc
  else if s.dstSize < s.dstCap.toNat then .refused .dstCapBeyondDst
  else if maxMemSize < s.dstCap.toNat then .refused .dstCapTooLarge
  else .next (s.startCommand cmdStream .dInit)

/-- R27, R292, R312: the engine waits for the host to write CMD. -/
def execIdle (s : State) : Out := .next s

/-- R251: the one step of MAXLEN. It repeats the preconditions of the command (DEDUCED, log entries 21, 28). -/
def execMMaxlen (s : State) : Out :=
  if maxSrcLen < s.srcLen.toNat then .refused .srcLenTooLarge
  else if s.srcSize < s.srcLen.toNat then .refused .srcLenBeyondSrc
  else .next s.endMaxlen

/-- The terminal state DONE. After ENC it is R154, after DEC R190; M.MAXLEN has written its RESULT itself (R251; log entry 21).
DESIGN CHOICE (log entry 21): where no command has been started (CMD holds 0, as after reset), which the spec does not speak of, it is
DONE after DEC. -/
def execDone (s : State) : Out :=
  if s.cmd = cmdCompress then .next s.endEnc
  else if s.cmd = cmdMaxlen then .next { s with status := s.status.finish, st := .done }
  else .next s.endDec

/-- R191: the terminal state ERROR, the error entry of R283. -/
def execError (s : State) : Out := .next s.raiseOverflow

end Sys2Proof.Machine
end

