-- ==== Sys2Proof/Machine/Operands.lean ====
section
/-! DEFINITION. The operand forms: the 4-byte word at a position and its hash, the acceptance test, the saturating length codes
with their extension bytes in both directions, and the signed register `ref`. -/

namespace Sys2Proof.Machine

/-- A position register as an integer. -/
def pos (p : Pos) : Int := p.toNat

/-- The little-endian 4-byte word at an address of SRC, wherever it is (R9, R52). -/
def State.wordAt (s : State) (a : Nat) : Word := BitVec.ofNat 32 (leValue (Memory.bytes .src s.src a 4))

/-- `word(p)`: the little-endian 4-byte word of SRC at `p` (R9, R52). -/
def State.word (s : State) (p : Int) : Except Fault Word :=
  (s.memRead .src p 4).map fun v => BitVec.ofNat 32 v

/-- R122: the wide hash, the top 12 bits of the low 32 bits of the product. -/
def hashWide (w : Word) : BitVec 12 := ((w * hashMul) >>> (32 - hashLog)).setWidth 12

/-- R123: the narrow hash, the top 13 bits. -/
def hashNarrow (w : Word) : BitVec 13 := ((w * hashMul) >>> (32 - (hashLog + 1))).setWidth 13

/-- R124: the hash of the selected variant, as a bucket index. -/
def hashOf : Variant → Word → Bucket
  | .wide, w => (hashWide w).setWidth 13
  | .narrow, w => hashNarrow w

/-- R124: `HASH(p)`. -/
def State.hashAt (s : State) (p : Int) : Except Fault Bucket :=
  (s.word p).map fun w => hashOf s.variant w

/-- R121: the variant an input of `n` bytes uses. -/
def selectVariant (n : Nat) : Variant := if n < limit64K then .narrow else .wide

/-- R127: look up the bucket of a position, then insert the position. -/
def State.htProbeAt (s : State) (p : Pos) : Except Fault State := do
  let h ← s.hashAt (pos p)
  let r := s.htGet h
  .ok { r.2.htSet h p with h := h, ref := r.1.setWidth 33 }

/-- R128: whether a candidate is a match. The words are read only for a candidate at a legal distance (log entry 16). -/
def State.accept (s : State) (ref ip : Int) : Except Fault Bool :=
  if 1 ≤ ip - ref ∧ ip - ref ≤ maxDistance then do
    let a ← s.word ref
    let b ← s.word ip
    .ok (decide (a = b))
  else .ok false

/-- R72, R105: the token byte of a literal length, the match length code still 0. -/
def tokenByte (l : Nat) : Byte := BitVec.ofNat 8 ((if runMask ≤ l then runMask else l) <<< mlBits)

/-- R106: the extension bytes of `r = length - 15`: `r / 255` bytes 0xFF and a final byte. -/
def extBytes (r : Nat) : List Byte := List.replicate (r / 255) 0xFF#8 ++ [BitVec.ofNat 8 (r % 255)]

/-- R105 PACK.TOKEN. -/
def State.packToken (s : State) (l : Nat) : Except Fault State := do
  let t ← s.writeDst s.op.toNat [tokenByte l]
  .ok { t with tokpos := s.op, op := advance s.op 1 }

/-- R106 PACK.EXT. -/
def State.packExt (s : State) (r : Nat) : Except Fault State := do
  let t ← s.writeDst s.op.toNat (extBytes r)
  .ok { t with op := advance s.op (extBytes r).length }

/-- R145, R153: a token and, for a saturated code, its extension bytes. -/
def State.packLen (s : State) (l : Nat) : Except Fault State := do
  let t ← s.packToken l
  if runMask ≤ l then t.packExt (l - runMask) else .ok t

/-- R100 TUN.SPLIT. -/
def State.tunSplit (s : State) (t : Byte) : State := { s with ll := highNibble t, ml := lowNibble t }

/-- R102: consume one extension byte `b`. -/
def State.takeExt (s : State) (b : Byte) : State :=
  { s with ip := advance s.ip 1, len := BitVec.ofNat 40 (s.len.toNat + b.toNat) }

/-- R102: whether another extension byte follows. -/
def extMore (b : Byte) : Bool := decide (b = 0xFF#8)

/-- R102 TUN.EXT: the state after, and `more`. -/
def State.tunExt (s : State) : Except Fault (State × Bool) := do
  let b ← s.readByte .src (pos s.ip)
  .ok (s.takeExt b, extMore b)

/-- R103: repeat TUN.EXT until `more` is 0. A SRC of `n` bytes from the cursor on holds at most `n` extension bytes, and the
read after them faults. -/
def State.tunLoop : Nat → State → Except Fault State
  | 0, _ => .error .srcRange
  | n + 1, s =>
    match s.tunExt with
    | .error f => .error f
    | .ok (t, more) => if more then State.tunLoop n t else .ok t

/-- R103 TUN.LEN. -/
def State.tunLen (s : State) (c : BitVec 4) : Except Fault State :=
  let t := { s with len := c.setWidth 40 }
  if c = 15#4 then State.tunLoop (s.srcSize - s.ip.toNat) t else .ok t

end Sys2Proof.Machine
end

