-- ==== Sys2Proof/Machine/Copies.lean ====
section
/-! DEFINITION. The copies of spec/44_fast_copy.md by their effect in bytes, and the stride schedule and the back-offset table
that implement them (R226, R230), which the steps do not use. -/

namespace Sys2Proof.Machine

/-- R220: a stride move of `k` bytes into DST; all `k` bytes are read before any is written. -/
def State.stride (s : State) (k : Nat) (m : Space) (a d : Nat) : Except Fault State := do
  let bs ← s.readBytes m a k
  s.writeDst d bs

/-- R226 FCP.EXACT: exactly `n` bytes of SRC to DST. -/
def State.fcpExact (s : State) (a d n : Nat) : Except Fault State := s.stride n .src a d

/-- R227: the size of the overrun zone of a wide copy of `n` bytes. -/
def zoneOf (n : Nat) : Nat := (8 - n % 8) % 8

/-- R227 FCP.WILD: the logical run, then an overrun zone of drawn bytes (R228; log entry 4). Run alone without the caller's guarantee
`d + n + 8 <= oend` it does the same and looks at no `oend` (DESIGN CHOICE, log entry 4). -/
def State.fcpWild (s : State) (a d n : Nat) : Except Fault State := do
  let t ← s.fcpExact a d n
  let t ← t.writeDst (d + n) (drawBytes s.draws (zoneOf n))
  .ok { t with draws := s.draws + zoneOf n }

/-- R229 MCOPY, exact form: the byte-serial copy of `n` bytes inside DST. With offset 0 (`ref = d`) each read returns the byte DST holds
(R60, R63, R188), although U2 models it as drawn (DEDUCED, log entry 26). -/
def State.mcopyExact (s : State) (ref : Int) (d n : Nat) : Except Fault State :=
  if ref < 0 then .error .badRef
  else if n = 0 then .ok s
  else if ref.toNat + n ≤ s.dstSize ∧ d + n ≤ s.dstSize then
    .ok { s with dst := Memory.copyUp .dst s.dst ref.toNat d n }
  else .error .dstRange

/-- R229 MCOPY, wild form: the same bytes, then up to 7 bytes of overrun (R228). It looks at no `oend`, also where it is run alone past
the bound of R229 on the zone (DESIGN CHOICE, log entry 5). -/
def State.mcopyWild (s : State) (ref : Int) (d n : Nat) : Except Fault State := do
  let t ← s.mcopyExact ref d n
  let t ← t.writeDst (d + n) (t.zoneBytes (d + n))
  .ok { t with draws := s.draws + 7 }

/-- R229 MCOPY. -/
def State.matchCopy (s : State) (ref : Int) (d n : Nat) : CopyForm → Except Fault State
  | .exact => s.mcopyExact ref d n
  | .wild => s.mcopyWild ref d n

/-- R226: the tail of the stride schedule: for each stride of a list, one move if so many bytes remain. -/
def State.strideTail (s : State) (a d n : Nat) : List Nat → Except Fault State
  | [] => .ok s
  | k :: ks =>
    if k ≤ n then do
      let t ← s.stride k .src a d
      t.strideTail (a + k) (d + k) (n - k) ks
    else s.strideTail a d n ks

/-- R226: the stride schedule, `q` moves of 16 bytes and the tail. -/
def State.strideLoop (s : State) (a d r : Nat) : Nat → Except Fault State
  | 0 => s.strideTail a d r [8, 4, 2, 1]
  | q + 1 => do
    let t ← s.stride 16 .src a d
    t.strideLoop (a + 16) (d + 16) r q

/-- R226: the stride schedule of `n` bytes, "16-byte double-word pairs while `n ≥ 16`, then 8, then 4, then 2, then a final
single byte". -/
def State.fcpSchedule (s : State) (a d n : Nat) : Except Fault State := s.strideLoop a d (n % 16) (n / 16)

/-- R230: the back-offset table, indexed by the gap. -/
def backOffset : Nat → Nat
  | 0 => 0
  | 1 => 3
  | 2 => 2
  | 3 => 3
  | _ => 0

/-- R230: `q` moves of 4 bytes inside DST. -/
def Memory.strides4 (m : Memory) (r d : Nat) : Nat → Memory
  | 0 => m
  | q + 1 => Memory.strides4 (Memory.store m d (Memory.bytes .dst m r 4)) (r + 4) (d + 4) q

/-- R230: a match of `4 + n` bytes by the back-offset table: the first 4 bytes one at a time where the gap is below 4, else by one
CP4; then, from the adjusted source, moves of 4 bytes and the bytes that remain. -/
def Memory.tableCopy (m : Memory) (r d n : Nat) : Memory :=
  let off := d - r
  let m := if off < 4 then Memory.copyUp .dst m r d 4 else Memory.store m d (Memory.bytes .dst m r 4)
  let r := if off < 4 then r + 4 - backOffset off else r + 4
  Memory.copyUp .dst (Memory.strides4 m r (d + 4) (n / 4)) (r + 4 * (n / 4)) (d + 4 + 4 * (n / 4)) (n % 4)

end Sys2Proof.Machine
end

