-- ==== Sys2Proof/Machine/Decoder.lean ====
section
/-! DEFINITION. The steps of DEC (spec/43_decoder.md). -/

namespace Sys2Proof.Machine

/-- R181 D.INIT. -/
def execDInit (s : State) : Out :=
  let t := { s with ip := 0#32, op := 0#32 }
  if s.cmd = cmdKnown then .next { t with mode := .known, oend := s.expLen, st := .dToken }
  else .next { t with mode := .streaming, oend := s.dstCap, iend := s.srcLen, st := .dToken }

/-- R182: consume and split the token byte `b`. -/
def State.takeToken (s : State) (b : Byte) : State :=
  let t := ({ s with tok := b, ip := advance s.ip 1 } : State).tunSplit b
  { t with len := t.ll.setWidth 40, st := if t.ll = 15#4 then .dLitext else .dLitcopy }

/-- R182 D.TOKEN. -/
def execDToken (s : State) : Out :=
  if s.mode = .streaming ∧ s.iend.toNat ≤ s.ip.toNat then .next s.endDec
  else orFault (s.readByte .src (pos s.ip)) fun b => .next (s.takeToken b)

/-- R183 D.LITEXT. -/
def execDLitext (s : State) : Out :=
  orFault s.tunExt fun r => .next { r.1 with st := if r.2 then .dLitext else .dLitcopy }

/-- R184, R189: whether a run that ends at `cpy` is near the end of the output. -/
def nearEnd (cpy : Nat) (s : State) : Bool := decide (s.oend.toNat < cpy + copyLength)

/-- R184 D.LITCOPY. -/
def execDLitcopy (s : State) : Out :=
  let n := s.len.toNat
  let c := s.op.toNat + n
  let t := { s with cpy := BitVec.ofNat 40 c }
  if nearEnd c s then
    if s.oend.toNat < c then .next t.raiseOverflow
    else
      orFault (t.fcpExact s.ip.toNat s.op.toNat n) fun u =>
        .next ({ u with ip := advance s.ip n, op := BitVec.ofNat 32 c } : State).endDec
  else
    orFault (t.fcpWild s.ip.toNat s.op.toNat n) fun u =>
      .next { u with ip := advance s.ip n, op := BitVec.ofNat 32 c, st := .dEofchk }

/-- R185 D.EOFCHK. -/
def execDEofchk (s : State) : Out :=
  if s.mode = .known ∧ s.op = s.oend then .next s.endDec
  else if s.mode = .streaming ∧ s.iend.toNat ≤ s.ip.toNat then .next s.endDec
  else .next { s with st := .dOffset }

/-- R186: consume the offset `o`. -/
def State.takeOffset (s : State) (o : BitVec 16) : State :=
  { s with
    off := o, ip := advance s.ip 2, ref := BitVec.ofInt 33 (pos s.op - o.toNat), len := s.ml.setWidth 40,
    st := if s.ml = 15#4 then .dMlext else .dMatch4 }

/-- R186 D.OFFSET. -/
def execDOffset (s : State) : Out :=
  orFault (s.memRead .src (pos s.ip) 2) fun v => .next (s.takeOffset (BitVec.ofNat 16 v))

/-- R187 D.MLEXT. -/
def execDMlext (s : State) : Out :=
  orFault s.tunExt fun r => .next { r.1 with st := if r.2 then .dMlext else .dMatch4 }

/-- R188 D.MATCH4. -/
def execDMatch4 (s : State) : Out :=
  orFault (s.mcopyExact s.ref.toInt s.op.toNat minMatch) fun t =>
    .next { t with op := advance s.op minMatch, ref := BitVec.ofInt 33 (s.ref.toInt + minMatch), st := .dMatchcopy }

/-- R189 D.MATCHCOPY. -/
def execDMatchcopy (s : State) : Out :=
  let n := s.len.toNat
  let c := s.op.toNat + n
  let t := { s with cpy := BitVec.ofNat 40 c }
  if nearEnd c s then
    if s.oend.toNat < c then .next t.raiseOverflow
    else
      orFault (t.matchCopy s.ref.toInt s.op.toNat n .exact) fun u =>
        let v := { u with op := BitVec.ofNat 32 c }
        if c = s.oend.toNat then .next v.endDec else .next { v with st := .dToken }
  else
    orFault (t.matchCopy s.ref.toInt s.op.toNat n .wild) fun u =>
      .next { u with op := BitVec.ofNat 32 c, st := .dToken }

end Sys2Proof.Machine
end

