-- ==== Sys2Proof/Machine/Encoder.lean ====
section
/-! DEFINITION. The steps of ENC (spec/42_encoder.md). A difference of positions is taken exactly and narrowed at its register;
in every state a COMPRESS reaches it is no negative number (R156; log entry 13). -/

namespace Sys2Proof.Machine

/-- R141 E.INIT. -/
def execEInit (s : State) : Out :=
  let v := selectVariant s.srcLen.toNat
  let t := { s with
    iend := s.srcLen, ip := 0#32, anchor := 0#32, op := 0#32, variant := v, status := s.status.withVariant v }
  let t := t.htReset
  if s.srcLen.toNat < minLength then .next { t with st := .eLast }
  else .next { t with
    mflimit := BitVec.ofNat 32 (s.srcLen.toNat - mfLimit)
    matchlimit := BitVec.ofNat 32 (s.srcLen.toNat - lastLiterals)
    st := .eSearchInit }

/-- R142 E.SEARCH_INIT. -/
def execESearchInit (s : State) : Out :=
  .next { s with attempts := attemptsInit, fwd := s.ip, st := .eProbe }

/-- R143 E.PROBE. The rule moves `ip` to `fwd` before it tests it, so that a probe that gives up can leave `ip` past `iend`, although R155
says that `ip` never exceeds `iend`: the model follows R143 (DEDUCED, log entry 27). -/
def execEProbe (s : State) : Out :=
  let t := { s with
    attempts := s.attempts + 1#32, ip := s.fwd, fwd := advance s.fwd (s.attempts >>> skipStrength).toNat }
  if s.mflimit.toNat < s.fwd.toNat then .next { t with st := .eLast }
  else
    orFault (t.htProbeAt s.fwd) fun u =>
      orFault (u.accept u.ref.toInt (pos u.ip)) fun ok => .next { u with st := if ok then .eCatchup else .eProbe }

/-- R144: the loop of E.CATCHUP; `n` bounds how often `ip` can move before it meets `anchor`. -/
def catchupLoop : Nat → State → Except Fault State
  | 0, s => .ok s
  | n + 1, s =>
    if s.anchor.toNat < s.ip.toNat ∧ 0 < s.ref.toInt then
      match s.readByte .src (pos s.ip - 1), s.readByte .src (s.ref.toInt - 1) with
      | .ok a, .ok b =>
        if a = b then
          catchupLoop n { s with ip := BitVec.ofInt 32 (pos s.ip - 1), ref := BitVec.ofInt 33 (s.ref.toInt - 1) }
        else .ok s
      | .error f, _ => .error f
      | .ok _, .error f => .error f
    else .ok s

/-- R144 E.CATCHUP. -/
def execECatchup (s : State) : Out :=
  orFault (catchupLoop (s.ip.toNat - s.anchor.toNat) s) fun t => .next { t with st := .eLitlen }

/-- R145 E.LITLEN. -/
def execELitlen (s : State) : Out :=
  let t := { s with len := BitVec.ofInt 40 (pos s.ip - pos s.anchor) }
  orFault (t.packLen t.len.toNat) fun u => .next { u with st := .eLitcopy }

/-- R146 E.LITCOPY. -/
def execELitcopy (s : State) : Out :=
  orFault (s.fcpExact s.anchor.toNat s.op.toNat s.len.toNat) fun t =>
    .next { t with op := advance s.op s.len.toNat, st := .eOffset }

/-- R147 E.OFFSET. -/
def execEOffset (s : State) : Out :=
  orFault (s.memWrite s.op.toNat 2 (BitVec.ofInt 16 (pos s.ip - s.ref.toInt)).toNat) fun t =>
    .next { t with op := advance s.op 2, st := .eExtend }

/-- R148: the forward extension; `n` bounds how often `ip` can move before it meets `matchlimit`. -/
def extendLoop : Nat → State → Except Fault State
  | 0, s => .ok s
  | n + 1, s =>
    if s.ip.toNat < s.matchlimit.toNat then
      match s.readByte .src s.ref.toInt, s.readByte .src (pos s.ip) with
      | .ok a, .ok b =>
        if a = b then extendLoop n { s with ip := advance s.ip 1, ref := BitVec.ofInt 33 (s.ref.toInt + 1) }
        else .ok s
      | .error f, _ => .error f
      | .ok _, .error f => .error f
    else .ok s

/-- R148 E.EXTEND. -/
def execEExtend (s : State) : Out :=
  let ip := advance s.ip minMatch
  let t := { s with ip := ip, ref := BitVec.ofInt 33 (s.ref.toInt + minMatch), mstart := ip }
  orFault (extendLoop (t.matchlimit.toNat - t.ip.toNat) t) fun u => .next { u with st := .eMlen }

/-- R149 E.MLEN. -/
def execEMlen (s : State) : Out :=
  let t := { s with len := BitVec.ofInt 40 (pos s.ip - pos s.mstart) }
  let l := t.len.toNat
  orFault (t.memRead .dst (pos t.tokpos) 1) fun b =>
    orFault (t.memWrite t.tokpos.toNat 1 (b + if mlMask ≤ l then mlMask else l)) fun u =>
      orFault (if mlMask ≤ l then u.packExt (l - mlMask) else .ok u) fun v => .next { v with st := .eEndchk }

/-- R150 E.ENDCHK. -/
def execEEndchk (s : State) : Out :=
  if s.mflimit.toNat < s.ip.toNat then .next { s with anchor := s.ip, st := .eLast }
  else .next { s with st := .eChain }

/-- R151 E.CHAIN. -/
def execEChain (s : State) : Out :=
  orFault (s.hashAt (pos s.ip)) fun h =>
    let r := s.htGet h
    let t := { r.2 with h := h, ref := r.1.setWidth 33 }
    orFault (t.accept t.ref.toInt (pos t.ip)) fun ok =>
      if ok then orFault (t.packToken 0) fun u => .next { u with st := .eOffset }
      else .next { t with st := .eRehash }

/-- R152: insert a position into the bucket of its own word. -/
def State.insertAt (s : State) (p : Int) : Except Fault State := do
  let h ← s.hashAt p
  .ok (s.htSet h (BitVec.ofInt 32 p))

/-- R152 E.REHASH. -/
def execERehash (s : State) : Out :=
  orFault (s.insertAt (pos s.ip - 2)) fun t =>
    orFault (t.insertAt (pos s.ip)) fun u =>
      .next { u with anchor := s.ip, ip := advance s.ip 1, st := .eSearchInit }

/-- R153 E.LAST, which enters DONE (R154; log entry 6). -/
def execELast (s : State) : Out :=
  let t := { s with len := BitVec.ofInt 40 (pos s.iend - pos s.anchor) }
  let l := t.len.toNat
  orFault (t.packLen l) fun u =>
    orFault (u.fcpExact u.anchor.toNat u.op.toNat l) fun v =>
      .next ({ v with op := advance u.op l } : State).endEnc

end Sys2Proof.Machine
end

