-- ==== Sys2Proof/Machine/FastCopy.lean ====
section
/-! DEFINITION. The meanings of the copies run alone (spec/44_fast_copy.md). The destination memory is DST (log entry 10). -/

namespace Sys2Proof.Machine

/-- R221. -/
def execCp16 (m : Space) (a d : Pos) (s : State) : Out := orFault (s.stride 16 m a.toNat d.toNat) .next

/-- R222. -/
def execCp8 (m : Space) (a d : Pos) (s : State) : Out := orFault (s.stride 8 m a.toNat d.toNat) .next

/-- R223. -/
def execCp4 (m : Space) (a d : Pos) (s : State) : Out := orFault (s.stride 4 m a.toNat d.toNat) .next

/-- R224. -/
def execCp2 (m : Space) (a d : Pos) (s : State) : Out := orFault (s.stride 2 m a.toNat d.toNat) .next

/-- R225. -/
def execCp1 (m : Space) (a d : Pos) (s : State) : Out := orFault (s.stride 1 m a.toNat d.toNat) .next

/-- R226. -/
def execFcpExact (a d : Pos) (n : Len) (s : State) : Out := orFault (s.fcpExact a.toNat d.toNat n.toNat) .next

/-- R227. -/
def execFcpWild (a d : Pos) (n : Len) (s : State) : Out := orFault (s.fcpWild a.toNat d.toNat n.toNat) .next

/-- R229. -/
def execMcopy (ref : Ref) (op : Pos) (n : Len) (form : CopyForm) (s : State) : Out :=
  orFault (s.matchCopy ref.toInt op.toNat n.toNat form) .next

end Sys2Proof.Machine
end

