-- ==== Sys2Proof/Machine/Hash.lean ====
section
/-! DEFINITION. The meanings of the hash and hash table operations run alone (spec/41_hash_table.md). An index goes to `h`, an
entry to `ref`, the Boolean of HT.ACCEPT to `accepted` (log entry 9). -/

namespace Sys2Proof.Machine

/-- R122. -/
def execHashW (w : Word) (s : State) : Out := .next { s with h := hashOf .wide w }

/-- R123. -/
def execHashN (w : Word) (s : State) : Out := .next { s with h := hashOf .narrow w }

/-- R121. -/
def execHtSelect (n : Word) (s : State) : Out := .next { s with variant := selectVariant n.toNat }

/-- R125. -/
def execHtClear (s : State) : Out := .next s.htReset

/-- R126. -/
def execHtLookup (i : Bucket) (s : State) : Out :=
  let r := s.htGet i
  .next { r.2 with ref := r.1.setWidth 33 }

/-- R126. -/
def execHtInsert (i : Bucket) (p : Pos) (s : State) : Out := .next (s.htSet i p)

/-- R127. -/
def execHtProbe (p : Pos) (s : State) : Out := orFault (s.htProbeAt p) .next

/-- R128. -/
def execHtAccept (ref : Ref) (ip : Pos) (s : State) : Out :=
  orFault (s.accept ref.toInt (pos ip)) fun b => .next { s with accepted := b }

end Sys2Proof.Machine
end

