-- ==== Sys2Proof/Machine/Tun.lean ====
section
/-! DEFINITION. The meanings of the token unpacker and packer run alone (spec/40_token_unpacker.md). -/

namespace Sys2Proof.Machine

/-- R100. -/
def execTunSplit (t : Byte) (s : State) : Out := .next (s.tunSplit t)

/-- R102: `len` and `ip` move on, and the result `more` is latched (log entry 9). -/
def execTunExt (s : State) : Out := orFault s.tunExt fun r => .next { r.1 with more := r.2 }

/-- R103. -/
def execTunLen (c : BitVec 4) (s : State) : Out := orFault (s.tunLen c) .next

/-- R105. -/
def execPackToken (l : Len) (s : State) : Out := orFault (s.packToken l.toNat) .next

/-- R106. -/
def execPackExt (r : Len) (s : State) : Out := orFault (s.packExt r.toNat) .next

end Sys2Proof.Machine
end

