-- ==== Sys2Proof/Machine/Wire.lean ====
section
/-! DEFINITION. The meanings of the wire elements: what DEC does with the element in the decoder state that reads it (R81). A
byte has no meaning as a wire element in another state. DESIGN CHOICE (log entry 11): an element run alone brings its bits with it. It reads
no SRC, so it does not fault where `ip` is at or above SRC_SIZE, as the step of DEC that reads the byte does (R59). -/

namespace Sys2Proof.Machine

/-- R72, R182: a token, read in D.TOKEN. DESIGN CHOICE (log entry 11): run alone it is consumed whatever `ip` is, also at or past `iend` in
streaming mode, where D.TOKEN reads no token and ends the command. -/
def execToken (ll ml : BitVec 4) (s : State) : Out :=
  if s.st = .dToken then .next (s.takeToken (ll ++ ml)) else .refused (.outOfContext "TOKEN")

/-- R74, R102: an extension byte that continues, read in D.LITEXT or D.MLEXT. Run alone it reads no SRC (log entry 11). -/
def execExtCont (s : State) : Out :=
  if s.st = .dLitext ∨ s.st = .dMlext then .next (s.takeExt 0xFF#8) else .refused (.outOfContext "EXT.CONT")

/-- R74, R102: an extension byte that ends the extension. The byte 0xFF is no EXT.TERM. Run alone it reads no
SRC (log entry 11). -/
def execExtTerm (v : Byte) (s : State) : Out :=
  if v = 0xFF#8 then .refused (.outOfContext "EXT.TERM")
  else if s.st = .dLitext then .next { s.takeExt v with st := .dLitcopy }
  else if s.st = .dMlext then .next { s.takeExt v with st := .dMatch4 }
  else .refused (.outOfContext "EXT.TERM")

/-- R78: one raw byte of the literal run, read in D.LITCOPY: copied verbatim to the output, and both cursors move on. DESIGN CHOICE (log
entry 11): the byte alone neither counts `len` down nor tests the output limit, which R184 tests for the whole run only; it is written at
`op` whatever `len` and `oend` are. -/
def execLiteral (b : Byte) (s : State) : Out :=
  if s.st = .dLitcopy then
    orFault (s.writeDst s.op.toNat [b]) fun t => .next { t with ip := advance s.ip 1, op := advance s.op 1 }
  else .refused (.outOfContext "LITERAL")

/-- R77, R186: the offset, read in D.OFFSET. Run alone it reads no SRC (log entry 11). -/
def execOffset (off : BitVec 16) (s : State) : Out :=
  if s.st = .dOffset then .next (s.takeOffset off) else .refused (.outOfContext "OFFSET")

end Sys2Proof.Machine
end

