-- ==== Sys2Proof/Machine/Dispatch.lean ====
section
/-! DEFINITION. The dispatch: one arm for each constructor of Instr, each a direct call of its meaning. -/

namespace Sys2Proof.Machine

def exec (i : Instr) (s : State) : Host.Outcome State Fault Refusal :=
  match i with
  | .token ll ml => Sys2Proof.Machine.execToken ll ml s
  | .extCont => Sys2Proof.Machine.execExtCont s
  | .extTerm v => Sys2Proof.Machine.execExtTerm v s
  | .literal b => Sys2Proof.Machine.execLiteral b s
  | .offset off => Sys2Proof.Machine.execOffset off s
  | .maxlen => Sys2Proof.Machine.execMaxlen s
  | .compress => Sys2Proof.Machine.execCompress s
  | .decompressKnown => Sys2Proof.Machine.execDecompressKnown s
  | .decompressStream => Sys2Proof.Machine.execDecompressStream s
  | .idle => Sys2Proof.Machine.execIdle s
  | .mMaxlen => Sys2Proof.Machine.execMMaxlen s
  | .done => Sys2Proof.Machine.execDone s
  | .error => Sys2Proof.Machine.execError s
  | .tunSplit t => Sys2Proof.Machine.execTunSplit t s
  | .tunExt => Sys2Proof.Machine.execTunExt s
  | .tunLen c => Sys2Proof.Machine.execTunLen c s
  | .packToken l => Sys2Proof.Machine.execPackToken l s
  | .packExt r => Sys2Proof.Machine.execPackExt r s
  | .hashW w => Sys2Proof.Machine.execHashW w s
  | .hashN w => Sys2Proof.Machine.execHashN w s
  | .htSelect n => Sys2Proof.Machine.execHtSelect n s
  | .htClear => Sys2Proof.Machine.execHtClear s
  | .htLookup k => Sys2Proof.Machine.execHtLookup k s
  | .htInsert k p => Sys2Proof.Machine.execHtInsert k p s
  | .htProbe p => Sys2Proof.Machine.execHtProbe p s
  | .htAccept ref ip => Sys2Proof.Machine.execHtAccept ref ip s
  | .eInit => Sys2Proof.Machine.execEInit s
  | .eSearchInit => Sys2Proof.Machine.execESearchInit s
  | .eProbe => Sys2Proof.Machine.execEProbe s
  | .eCatchup => Sys2Proof.Machine.execECatchup s
  | .eLitlen => Sys2Proof.Machine.execELitlen s
  | .eLitcopy => Sys2Proof.Machine.execELitcopy s
  | .eOffset => Sys2Proof.Machine.execEOffset s
  | .eExtend => Sys2Proof.Machine.execEExtend s
  | .eMlen => Sys2Proof.Machine.execEMlen s
  | .eEndchk => Sys2Proof.Machine.execEEndchk s
  | .eChain => Sys2Proof.Machine.execEChain s
  | .eRehash => Sys2Proof.Machine.execERehash s
  | .eLast => Sys2Proof.Machine.execELast s
  | .dInit => Sys2Proof.Machine.execDInit s
  | .dToken => Sys2Proof.Machine.execDToken s
  | .dLitext => Sys2Proof.Machine.execDLitext s
  | .dLitcopy => Sys2Proof.Machine.execDLitcopy s
  | .dEofchk => Sys2Proof.Machine.execDEofchk s
  | .dOffset => Sys2Proof.Machine.execDOffset s
  | .dMlext => Sys2Proof.Machine.execDMlext s
  | .dMatch4 => Sys2Proof.Machine.execDMatch4 s
  | .dMatchcopy => Sys2Proof.Machine.execDMatchcopy s
  | .cp16 m a d => Sys2Proof.Machine.execCp16 m a d s
  | .cp8 m a d => Sys2Proof.Machine.execCp8 m a d s
  | .cp4 m a d => Sys2Proof.Machine.execCp4 m a d s
  | .cp2 m a d => Sys2Proof.Machine.execCp2 m a d s
  | .cp1 m a d => Sys2Proof.Machine.execCp1 m a d s
  | .fcpExact a d n => Sys2Proof.Machine.execFcpExact a d n s
  | .fcpWild a d n => Sys2Proof.Machine.execFcpWild a d n s
  | .mcopy ref op n form => Sys2Proof.Machine.execMcopy ref op n form s

end Sys2Proof.Machine
end

