-- ==== Sys2Proof/Machine/Fetch.lean ====
section
/-! DEFINITION. What the machine does next: the instruction the engine runs, or the host move it takes. -/

namespace Sys2Proof.Machine

/-- The engine step of a state (R25). -/
def St.instr : St → Instr
  | .idle => .idle
  | .mMaxlen => .mMaxlen
  | .eInit => .eInit
  | .eSearchInit => .eSearchInit
  | .eProbe => .eProbe
  | .eCatchup => .eCatchup
  | .eLitlen => .eLitlen
  | .eLitcopy => .eLitcopy
  | .eOffset => .eOffset
  | .eExtend => .eExtend
  | .eMlen => .eMlen
  | .eEndchk => .eEndchk
  | .eChain => .eChain
  | .eRehash => .eRehash
  | .eLast => .eLast
  | .dInit => .dInit
  | .dToken => .dToken
  | .dLitext => .dLitext
  | .dLitcopy => .dLitcopy
  | .dEofchk => .dEofchk
  | .dOffset => .dOffset
  | .dMlext => .dMlext
  | .dMatch4 => .dMatch4
  | .dMatchcopy => .dMatchcopy
  | .done => .done
  | .error => .error

/-- R25: the 8-bit code of a state. -/
def St.code : St → BitVec 8
  | .idle => 0x00#8
  | .mMaxlen => 0x0E#8
  | .eInit => 0x61#8
  | .eSearchInit => 0x62#8
  | .eProbe => 0x63#8
  | .eCatchup => 0x64#8
  | .eLitlen => 0x65#8
  | .eLitcopy => 0x66#8
  | .eOffset => 0x67#8
  | .eExtend => 0x68#8
  | .eMlen => 0x69#8
  | .eEndchk => 0x6A#8
  | .eChain => 0x6B#8
  | .eRehash => 0x6C#8
  | .eLast => 0x6D#8
  | .dInit => 0x81#8
  | .dToken => 0x82#8
  | .dLitext => 0x83#8
  | .dLitcopy => 0x84#8
  | .dEofchk => 0x85#8
  | .dOffset => 0x86#8
  | .dMlext => 0x87#8
  | .dMatch4 => 0x88#8
  | .dMatchcopy => 0x89#8
  | .done => 0x1E#8
  | .error => 0x1F#8

/-- The state whose step an instruction is, if it is one. -/
def stOf : Instr → Option St
  | .idle => some .idle
  | .mMaxlen => some .mMaxlen
  | .eInit => some .eInit
  | .eSearchInit => some .eSearchInit
  | .eProbe => some .eProbe
  | .eCatchup => some .eCatchup
  | .eLitlen => some .eLitlen
  | .eLitcopy => some .eLitcopy
  | .eOffset => some .eOffset
  | .eExtend => some .eExtend
  | .eMlen => some .eMlen
  | .eEndchk => some .eEndchk
  | .eChain => some .eChain
  | .eRehash => some .eRehash
  | .eLast => some .eLast
  | .dInit => some .dInit
  | .dToken => some .dToken
  | .dLitext => some .dLitext
  | .dLitcopy => some .dLitcopy
  | .dEofchk => some .dEofchk
  | .dOffset => some .dOffset
  | .dMlext => some .dMlext
  | .dMatch4 => some .dMatch4
  | .dMatchcopy => some .dMatchcopy
  | .done => some .done
  | .error => some .error
  | .token _ _ | .extCont | .extTerm _ | .literal _ | .offset _ => none
  | .maxlen | .compress | .decompressKnown | .decompressStream => none
  | .tunSplit _ | .tunExt | .tunLen _ | .packToken _ | .packExt _ => none
  | .hashW _ | .hashN _ | .htSelect _ | .htClear | .htLookup _ | .htInsert _ _ | .htProbe _ | .htAccept _ _ => none
  | .cp16 _ _ _ | .cp8 _ _ _ | .cp4 _ _ _ | .cp2 _ _ _ | .cp1 _ _ _ => none
  | .fcpExact _ _ _ | .fcpWild _ _ _ | .mcopy _ _ _ _ => none

/-- What comes next. -/
inductive NextAct where
  /-- the engine runs an instruction at a state -/
  | run (i : Instr) (s : State)
  /-- the host makes a move at a state -/
  | move (m : HostMove) (s : State)
  /-- the bits are no instruction -/
  | refuse (r : Refusal)
  deriving DecidableEq, Repr

/-- The decoder's error at CMD as a refusal (R86, R256). -/
def refusalOf : DecodeError → Refusal
  | .reservedCommand w => .reservedCommand w
  | .truncated => .badInvocation
  | .reservedOpid _ => .badInvocation
  | .badOperand => .badInvocation

/-- A write to CMD: the decoder reads the code (R85, R250). -/
def fetchCommand (w : Word) (s : State) : NextAct :=
  match decode .cmd (leBytes 4 w.toNat) with
  | .ok (i, _) => .run i s
  | .error e => .refuse (refusalOf e)

/-- A unit operation to be run alone: the decoder reads its label and operands (log entry 8). The label of a state is decoded too, and
that step run whatever `st` and STATUS are, which the hardware has no move for (DESIGN CHOICE, log entry 8). -/
def fetchInvocation (s : State) : NextAct :=
  match decode .opid s.invoke with
  | .ok (i, _) => .run i { s with invoke := [] }
  | .error e => .refuse (refusalOf e)

/-- What comes next. A unit operation put into `invoke` runs first (log entry 8). While STATUS.STATE is BUSY every step runs the step
of `st`, and beside it the host may read STATUS or wait (R64, R259), so that no polling holds the engine up. Otherwise the host makes its
next move, a write to CMD being a command (R250), and `pollEnd` going on while no command has ended; with none left the engine waits
(R312; log entries 12, 24). -/
def nextAct (s : State) : NextAct :=
  if s.invoke ≠ [] then fetchInvocation s
  else if s.status.state = .busy then .run s.st.instr s.hostBusy
  else
    match s.host with
    | [] => .run .idle s
    | .writeCsr .cmd w :: rest => fetchCommand w { s with host := rest }
    | .pollEnd :: rest => .move .pollEnd { s with host := if s.status.state = .idle then s.host else rest }
    | m :: rest => .move m { s with host := rest }

/-- The state with STATUS.STATE as an engine in `st` has it (R27). -/
def State.atState (s : State) (x : St) : State :=
  { s with
    st := x
    status := { s.status with state := if x = .idle then .idle else .busy }
    invoke := []
    host := [] }

/-- The engine about to read stream bytes in a decoder state: the bytes stand at `ip` in SRC, and the known-size decoder reads them
whatever the declared input length is (R182). -/
def State.atStream (s : State) (x : St) (bs : List Byte) : State :=
  { s.atState x with src := Memory.store s.src s.ip.toNat bs, mode := .known }

/-- The host about to write `w` to CMD, the engine not busy. For COMPRESS the host has done its duty of R314.3 and made DST_CAP at
least the bound of SRC_LEN (log entry 18). -/
def State.atCommand (s : State) (w : Word) : State :=
  { s with
    status := { s.status with state := if s.status.state = .busy then .idle else s.status.state }
    invoke := []
    host := [.writeCsr .cmd w]
    dstCap :=
      if w = cmdCompress ∧ s.dstCap.toNat < maxCompressed s.srcLen.toNat then
        BitVec.ofNat 32 (maxCompressed s.srcLen.toNat)
      else s.dstCap }

/-- The state whose next step fetches and runs a table word (log entries 11, 18). -/
def State.placeWord (s : State) (nbits w : Nat) : State :=
  match tableCtx nbits w with
  | some .cmd => s.atCommand (BitVec.ofNat 32 w)
  | some .offset => s.atStream .dOffset (leBytes 2 w)
  | some .ext => s.atStream .dLitext (leBytes 1 w)
  | some .token => s.atStream .dToken (leBytes 1 w)
  | some .literal => s.atStream .dLitcopy (leBytes 1 w)
  | some .opid =>
    match decodeStateOpid w with
    | some i =>
      match stOf i with
      | some x => s.atState x
      | none => s
    | none => { s with invoke := tableBytes nbits w }
  | none => s

end Sys2Proof.Machine
end

