-- ==== Sys2Proof/Machine/Step.lean ====
section
/-! DEFINITION. One step of the machine, and the state in which the next step runs a given table word. -/

namespace Sys2Proof.Machine

/-- One step: the engine runs its next instruction, or the host makes its next move (R250, R259). -/
def step (s : State) : Host.Outcome State Fault Refusal :=
  match nextAct s with
  | .run i t => exec i t
  | .move m t => hostMove m t
  | .refuse r => .refused r

/-- `s` with the instruction of a table word stored where `step` fetches its next one. -/
def State.withFetchWord (s : State) (nbits w : Nat) : State := s.placeWord nbits w

end Sys2Proof.Machine
end

