-- ==== Sys2Proof/Safety.lean ====
section
/-! DEFINITION. What counts as a good state and a safe run, in the terms the statements use: the canonical form of the data, the
agreement of STATUS with `st`, and what ENC and DEC keep true of their cursors between steps. -/

namespace Sys2Proof.Machine

/-- R7, U14: the two memory sizes are in their range. -/
abbrev State.sizesOk (s : State) : Prop :=
  1 ≤ s.srcSize ∧ s.srcSize ≤ maxMemSize ∧ 1 ≤ s.dstSize ∧ s.dstSize ≤ maxMemSize

/-- The memories and tables are in canonical form and list nothing outside their spaces (R31, R32, R50). -/
abbrev State.memOk (s : State) : Prop :=
  Memory.wf s.src ∧ Memory.wf s.dst ∧ Table.wf s.htW ∧ Table.wf s.htN ∧
  (∀ e ∈ s.src, e.1 < s.srcSize) ∧ (∀ e ∈ s.dst, e.1 < s.dstSize) ∧
  (∀ e ∈ s.htW, e.1 < tableSizeW) ∧ (∀ e ∈ s.htN, e.1 < tableSizeN)

/-- STATUS.STATE as R25, R27 and R250 pair it with `st`. -/
def St.engState : St → EngState
  | .idle => .idle
  | .done => .done
  | .error => .error
  | .mMaxlen => .busy
  | .eInit | .eSearchInit | .eProbe | .eCatchup | .eLitlen | .eLitcopy | .eOffset | .eExtend | .eMlen | .eEndchk
  | .eChain | .eRehash | .eLast => .busy
  | .dInit | .dToken | .dLitext | .dLitcopy | .dEofchk | .dOffset | .dMlext | .dMatch4 | .dMatchcopy => .busy

/-- R25, R27, R28: STATUS.STATE goes with `st`, and ERRCODE is 1 in ERROR and 0 elsewhere. -/
abbrev State.statusOk (s : State) : Prop :=
  s.status.state = s.st.engState ∧ s.status.errcode = if s.status.state = .error then 1#4 else 0#4

/-- R28: once a command has ended, ERROR and a negative RESULT are the same thing. -/
abbrev State.resultOk (s : State) : Prop :=
  s.status.state ≠ .busy → (s.status.state = .error ↔ s.result.toInt < 0)

/-- The cursors of DEC between steps: the output cursor at most at the limit, the limit inside DST, the input cursor inside or
just past SRC. -/
abbrev State.decCursors (s : State) : Prop :=
  s.op.toNat ≤ s.oend.toNat ∧ s.oend.toNat ≤ s.dstSize ∧ s.ip.toNat ≤ s.srcSize

/-- What holds of the cursors in each state of `st` (R58, R184, R188, R283). -/
def State.phaseOk (s : State) : Prop :=
  match s.st with
  | .idle | .done | .error | .mMaxlen | .eInit => True
  | .eSearchInit | .eProbe | .eCatchup | .eLitlen | .eLitcopy | .eOffset | .eExtend | .eMlen | .eEndchk | .eChain
  | .eRehash | .eLast => s.op.toNat ≤ s.dstSize
  | .dInit => if s.cmd = cmdKnown then s.expLen.toNat ≤ s.dstSize else s.dstCap.toNat ≤ s.dstSize
  | .dToken => s.decCursors
  | .dLitext | .dLitcopy => s.decCursors ∧ 1 ≤ s.ip.toNat
  | .dEofchk | .dOffset | .dMlext | .dMatch4 => s.decCursors ∧ 1 ≤ s.ip.toNat ∧ s.op.toNat + 8 ≤ s.oend.toNat
  | .dMatchcopy => s.decCursors ∧ 1 ≤ s.ip.toNat ∧ s.op.toNat + 4 ≤ s.oend.toNat

/-- Where `ref` is a match source (R186 to R189) it is not past the output cursor. -/
def State.refOk (s : State) : Prop :=
  match s.st with
  | .dMlext | .dMatch4 | .dMatchcopy => s.ref.toInt ≤ s.op.toNat
  | .dInit | .dToken | .dLitext | .dLitcopy | .dEofchk | .dOffset => True
  | .idle | .mMaxlen | .done | .error => True
  | .eInit | .eSearchInit | .eProbe | .eCatchup | .eLitlen | .eLitcopy | .eOffset | .eExtend | .eMlen | .eEndchk
  | .eChain | .eRehash | .eLast => True

/-- The whole-machine invariant of a run: it holds at reset and every step keeps it. -/
abbrev State.Inv (s : State) : Prop :=
  s.sizesOk ∧ s.memOk ∧ s.statusOk ∧ s.resultOk ∧ s.phaseOk ∧ s.invoke = []

/-- The states of DEC. -/
def St.isDec : St → Bool
  | .dInit | .dToken | .dLitext | .dLitcopy | .dEofchk | .dOffset | .dMlext | .dMatch4 | .dMatchcopy => true
  | .idle | .mMaxlen | .done | .error => false
  | .eInit | .eSearchInit | .eProbe | .eCatchup | .eLitlen | .eLitcopy | .eOffset | .eExtend | .eMlen | .eEndchk
  | .eChain | .eRehash | .eLast => false

/-- The states of ENC. -/
def St.isEnc : St → Bool
  | .eInit | .eSearchInit | .eProbe | .eCatchup | .eLitlen | .eLitcopy | .eOffset | .eExtend | .eMlen | .eEndchk
  | .eChain | .eRehash | .eLast => true
  | .idle | .mMaxlen | .done | .error => false
  | .dInit | .dToken | .dLitext | .dLitcopy | .dEofchk | .dOffset | .dMlext | .dMatch4 | .dMatchcopy => false

/-- The number of extension bytes of a length (R71). -/
def extCount (l : Nat) : Nat := if l < 15 then 0 else (l - 15) / 255 + 1

/-- The extension bytes of a length: none below 15, else its `0xFF` bytes and the final byte (R71, R74). -/
def extOf (l : Nat) : List Byte :=
  if l < 15 then [] else List.replicate ((l - 15) / 255) 0xFF#8 ++ [BitVec.ofNat 8 ((l - 15) % 255)]

/-- The bytes that open a sequence of literal length `l`: its token, with match length code 0, and its extension bytes (R71, R72). -/
def headOf (l : Nat) : List Byte := BitVec.ofNat 8 (16 * min l 15) :: extOf l

/-- `t` holds the bytes `bs` in DST from address `a` on, and every other byte of DST as `s` has it. -/
abbrev State.wrote (s t : State) (a : Nat) (bs : List Byte) : Prop :=
  ∀ c, t.dstAt c = if a ≤ c ∧ c < a + bs.length then bs.getD (c - a) 0#8 else s.dstAt c

/-- The table of the variant other than `v` is in `t` what it is in `s`: the model has two tables (log entry 17). -/
abbrev State.otherTableKept (s t : State) (v : Variant) : Prop := (v = .wide → t.htN = s.htN) ∧ (v = .narrow → t.htW = s.htW)

/-- Every byte of DST below `lo`, or at or above `hi`, is in `t` what it is in `s`. -/
abbrev State.keptOutside (s t : State) (lo hi : Nat) : Prop := ∀ c, ¬(lo ≤ c ∧ c < hi) → t.dstAt c = s.dstAt c

/-- Byte `i` of a match copy from `ref` to `d` (R229): the bytes from `ref` to `d` repeated, when the source is before the
destination; otherwise no byte the copy writes is read after it is written. -/
def State.matchByte (s : State) (ref d i : Nat) : Byte :=
  if ref < d then s.dstAt (ref + i % (d - ref)) else s.dstAt (ref + i)

/-- How much output ENC may have written for the first `n` input bytes (R83, R156 (f)). -/
def encBudget (n : Nat) : Nat := n + n / 255

/-- The block ENC works on, once the main loop has been entered (R141, R58, R258 row 2). -/
abbrev State.encBlock (s : State) : Prop :=
  minLength ≤ s.iend.toNat ∧ s.iend.toNat ≤ s.srcSize ∧ maxCompressed s.iend.toNat ≤ s.dstSize ∧
  s.mflimit.toNat + mfLimit = s.iend.toNat ∧ s.matchlimit.toNat + lastLiterals = s.iend.toNat ∧
  s.variant = selectVariant s.iend.toNat

/-- R156 (c), (d): a candidate at a legal distance whose 4 bytes equal those at `ip`, which is no later than `mflimit` (R156 (e)). -/
abbrev State.encMatch (s : State) : Prop :=
  s.ip.toNat ≤ s.mflimit.toNat ∧ 0 ≤ s.ref.toInt ∧ 1 ≤ pos s.ip - s.ref.toInt ∧ pos s.ip - s.ref.toInt ≤ maxDistance ∧
  ∀ j < 4, s.srcAt (s.ref.toInt.toNat + j) = s.srcAt (s.ip.toNat + j)

/-- R156 (d), (e): a match that began 4 bytes before `mstart` and now ends at `ip`, no later than `matchlimit`, every byte of which
equals the byte at the same distance before it. -/
abbrev State.encExtended (s : State) : Prop :=
  minMatch ≤ s.mstart.toNat ∧ s.mstart.toNat ≤ s.ip.toNat ∧ s.ip.toNat ≤ s.matchlimit.toNat ∧
  0 ≤ s.ref.toInt ∧ 1 ≤ pos s.ip - s.ref.toInt ∧
  ∀ j, s.mstart.toNat - minMatch ≤ j → j < s.ip.toNat →
    s.srcAt (j - (pos s.ip - s.ref.toInt).toNat) = s.srcAt j

/-- What ENC keeps true between its steps (R156): reads in range, offsets legal, matches real, tails kept, output bounded. -/
def State.EncInv (s : State) : Prop :=
  s.sizesOk ∧
  match s.st with
  | .eInit => s.srcLen.toNat ≤ s.srcSize ∧ maxCompressed s.srcLen.toNat ≤ s.dstSize
  | .eSearchInit =>
    s.encBlock ∧ s.anchor.toNat ≤ s.ip.toNat ∧ s.ip.toNat ≤ s.mflimit.toNat + 1 ∧ s.op.toNat ≤ encBudget s.anchor.toNat
  | .eProbe =>
    s.encBlock ∧ s.anchor.toNat ≤ s.fwd.toNat ∧ s.anchor.toNat ≤ s.iend.toNat ∧ s.op.toNat ≤ encBudget s.anchor.toNat
  | .eCatchup | .eLitlen =>
    s.encBlock ∧ s.encMatch ∧ s.anchor.toNat ≤ s.ip.toNat ∧ s.op.toNat ≤ encBudget s.anchor.toNat
  | .eLitcopy =>
    s.encBlock ∧ s.encMatch ∧ s.anchor.toNat ≤ s.ip.toNat ∧ s.len.toNat = s.ip.toNat - s.anchor.toNat ∧
    s.tokpos.toNat < s.op.toNat ∧ s.op.toNat ≤ encBudget s.anchor.toNat + 1 + extCount s.len.toNat
  | .eOffset => s.encBlock ∧ s.encMatch ∧ s.tokpos.toNat < s.op.toNat ∧ s.op.toNat ≤ encBudget s.ip.toNat + 2
  | .eExtend => s.encBlock ∧ s.encMatch ∧ s.tokpos.toNat < s.op.toNat ∧ s.op.toNat ≤ encBudget s.ip.toNat + 4
  | .eMlen =>
    s.encBlock ∧ s.encExtended ∧ s.tokpos.toNat < s.op.toNat ∧
    s.op.toNat ≤ encBudget (s.mstart.toNat - minMatch) + 4
  | .eEndchk =>
    s.encBlock ∧ minMatch ≤ s.ip.toNat ∧ s.ip.toNat ≤ s.matchlimit.toNat ∧ s.op.toNat ≤ encBudget s.ip.toNat
  | .eChain | .eRehash =>
    s.encBlock ∧ minMatch ≤ s.ip.toNat ∧ s.ip.toNat ≤ s.mflimit.toNat ∧ s.op.toNat ≤ encBudget s.ip.toNat
  | .eLast =>
    s.iend.toNat ≤ s.srcSize ∧ maxCompressed s.iend.toNat ≤ s.dstSize ∧ s.anchor.toNat ≤ s.iend.toNat ∧
    s.op.toNat ≤ encBudget s.anchor.toNat
  | .idle | .done | .error | .mMaxlen => False
  | .dInit | .dToken | .dLitext | .dLitcopy | .dEofchk | .dOffset | .dMlext | .dMatch4 | .dMatchcopy => False

/-- The DST bytes an instruction may store to, as (address, count) pairs computed from the state it runs in: the address is the
one its meaning stores to. The step that ends a decompress command counts every byte from `op` to the output limit as stored to, since
they are unspecified then (R193, R284). An instruction that stores nothing has none. -/
def storedAt (i : Instr) (s : State) : List (Nat × Nat) :=
  match i with
  | .literal _ => [(s.op.toNat, 1)]
  | .packToken _ => [(s.op.toNat, 1)]
  | .packExt r => [(s.op.toNat, r.toNat / 255 + 1)]
  | .eLitlen => [(s.op.toNat, 1 + extCount (BitVec.ofInt 40 (pos s.ip - pos s.anchor)).toNat)]
  | .eLitcopy => [(s.op.toNat, s.len.toNat)]
  | .eOffset => [(s.op.toNat, 2)]
  | .eMlen => [(s.tokpos.toNat, 1), (s.op.toNat, extCount (BitVec.ofInt 40 (pos s.ip - pos s.mstart)).toNat)]
  | .eChain => [(s.op.toNat, 1)]
  | .eLast =>
    let l := (BitVec.ofInt 40 (pos s.iend - pos s.anchor)).toNat
    [(s.op.toNat, 1 + extCount l + l)]
  | .dLitcopy =>
    if nearEnd (s.op.toNat + s.len.toNat) s then [(s.op.toNat, s.oend.toNat - s.op.toNat)]
    else [(s.op.toNat, s.len.toNat + zoneOf s.len.toNat)]
  | .dMatch4 => [(s.op.toNat, 4)]
  | .dMatchcopy =>
    if s.oend.toNat < s.op.toNat + s.len.toNat then [(s.op.toNat, s.oend.toNat - s.op.toNat)]
    else if nearEnd (s.op.toNat + s.len.toNat) s then [(s.op.toNat, s.len.toNat)]
    else [(s.op.toNat, s.len.toNat + 7)]
  | .dToken | .dEofchk =>
    if s.mode = .streaming ∧ s.iend.toNat ≤ s.ip.toNat then [(s.op.toNat, s.oend.toNat - s.op.toNat)] else []
  | .done => if s.cmd = cmdCompress ∨ s.cmd = cmdMaxlen then [] else [(s.op.toNat, s.oend.toNat - s.op.toNat)]
  | .error => [(s.op.toNat, s.oend.toNat - s.op.toNat)]
  | .cp16 _ _ d => [(d.toNat, 16)]
  | .cp8 _ _ d => [(d.toNat, 8)]
  | .cp4 _ _ d => [(d.toNat, 4)]
  | .cp2 _ _ d => [(d.toNat, 2)]
  | .cp1 _ _ d => [(d.toNat, 1)]
  | .fcpExact _ d n => [(d.toNat, n.toNat)]
  | .fcpWild _ d n => [(d.toNat, n.toNat + zoneOf n.toNat)]
  | .mcopy _ o n .exact => [(o.toNat, n.toNat)]
  | .mcopy _ o n .wild => [(o.toNat, n.toNat + 7)]
  | .token _ _ | .extCont | .extTerm _ | .offset _ => []
  | .maxlen | .compress | .decompressKnown | .decompressStream | .idle | .mMaxlen => []
  | .tunSplit _ | .tunExt | .tunLen _ => []
  | .hashW _ | .hashN _ | .htSelect _ | .htClear | .htLookup _ | .htInsert _ _ | .htProbe _ | .htAccept _ _ => []
  | .eInit | .eSearchInit | .eProbe | .eCatchup | .eExtend | .eEndchk | .eRehash => []
  | .dInit | .dLitext | .dOffset | .dMlext => []

/-- R155: the transitions of ENC, complete. -/
def encEdge : St → St → Bool
  | .eInit, .eLast | .eInit, .eSearchInit => true
  | .eSearchInit, .eProbe => true
  | .eProbe, .eLast | .eProbe, .eCatchup | .eProbe, .eProbe => true
  | .eCatchup, .eLitlen | .eLitlen, .eLitcopy | .eLitcopy, .eOffset | .eOffset, .eExtend | .eExtend, .eMlen => true
  | .eMlen, .eEndchk => true
  | .eEndchk, .eLast | .eEndchk, .eChain => true
  | .eChain, .eOffset | .eChain, .eRehash => true
  | .eRehash, .eSearchInit => true
  | .eLast, .done => true
  | _, _ => false

/-- R192: the transitions of DEC, complete. -/
def decEdge : St → St → Bool
  | .dInit, .dToken => true
  | .dToken, .done | .dToken, .dLitext | .dToken, .dLitcopy => true
  | .dLitext, .dLitext | .dLitext, .dLitcopy => true
  | .dLitcopy, .error | .dLitcopy, .done | .dLitcopy, .dEofchk => true
  | .dEofchk, .done | .dEofchk, .dOffset => true
  | .dOffset, .dMlext | .dOffset, .dMatch4 => true
  | .dMlext, .dMlext | .dMlext, .dMatch4 => true
  | .dMatch4, .dMatchcopy => true
  | .dMatchcopy, .error | .dMatchcopy, .done | .dMatchcopy, .dToken => true
  | _, _ => false

/-- The engine's steps while it is in a state of DEC, at most `n` of them. -/
def runDec : Nat → State → Out
  | 0, s => .next s
  | n + 1, s =>
    if s.st.isDec then
      match exec s.st.instr s with
      | .next t => runDec n t
      | .fault f => .fault f
      | .refused r => .refused r
    else .next s

/-- Run the wire element LITERAL on `n` consecutive bytes of the stream (R71, R78). -/
def runLiterals : Nat → State → Out
  | 0, s => .next s
  | n + 1, s =>
    match exec (.literal (s.srcAt s.ip.toNat)) s with
    | .next t => runLiterals n t
    | .fault f => .fault f
    | .refused r => .refused r

end Sys2Proof.Machine
end

