-- ==== Sys2Proof/Certificates/Slice0/Obligations.lean ====
section
/-! DEFINITION. The statements for the provers. `State.wrote s t a bs` (Safety) says of every byte of DST what it is in `t`: the
bytes `bs` from `a` on, and elsewhere what it is in `s`. A result written `t = { s with ... }` says that every other field is as
in `s`: that is the frame. -/

open Sys2Proof Sys2Proof.Machine

/-! ### Encoding -/

/-- Decoding the bytes of a well-formed instruction, whatever follows them, gives the instruction back with every operand and leaves
what follows (R72, R74, R77, R85, R87). The operand bytes of a unit operation are the model's layout (log entry 8). -/
def Obligations.DecodeEncodeRoundTrip : Prop :=
  ∀ (i : Instr) (rest : List Byte), i.wf = true → decode i.ctx (encode i ++ rest) = .ok (i, rest)

/-- The decoder reads nothing but encodings: what it accepts is a well-formed instruction of that context, from exactly the bytes the
encoder gives it, so each instruction has one encoding and no byte falls through to a neighbour (R74, R82, R86, R87). -/
def Obligations.DecodeReadsOnlyEncodings : Prop :=
  ∀ (c : Ctx) (bs : List Byte) (i : Instr) (rest : List Byte), decode c bs = .ok (i, rest) →
    i.wf = true ∧ i.ctx = c ∧ bs = encode i ++ rest

/-- Words written out from the encodings of the spec: the token `0x1A` of R100, the bytes `0xFF` and `0x21` of R74 and R102, the offset
`FF 00` of R77, the four codes of R85, and a label of each unit of R87 (the operands of 0x23, 0x45 and 0xA5 in the model's layout,
log entry 8). -/
def Obligations.SpecWordsDecode : Prop :=
  decode .token [0x1A#8] = .ok (.token 1#4 10#4, []) ∧
  decode .ext [0xFF#8] = .ok (.extCont, []) ∧
  decode .ext [0x21#8] = .ok (.extTerm 0x21#8, []) ∧
  decode .offset [0xFF#8, 0x00#8] = .ok (.offset 255#16, []) ∧
  decodeCmd 1#32 = .ok .maxlen ∧ decodeCmd 2#32 = .ok .compress ∧
  decodeCmd 3#32 = .ok .decompressKnown ∧ decodeCmd 4#32 = .ok .decompressStream ∧
  decode .opid [0x0E#8] = .ok (.mMaxlen, []) ∧
  decode .opid [0x23#8, 0x0F#8] = .ok (.tunLen 15#4, []) ∧
  decode .opid [0x45#8, 0xA6#8, 0x04#8] = .ok (.htLookup 1190#13, []) ∧
  decode .opid [0x6C#8] = .ok (.eRehash, []) ∧
  decode .opid [0x89#8] = .ok (.dMatchcopy, []) ∧
  decode .opid [0xA5#8, 0x01#8, 2#8, 0#8, 0#8, 0#8, 7#8, 0#8, 0#8, 0#8] = .ok (.cp1 .dst 2#32 7#32, [])

/-- R86: a value of CMD other than 1 to 4 is reserved, and the run in which it is written is refused. -/
def Obligations.ReservedCommandRefused : Prop :=
  ∀ (s : State) (w : Word) (rest : List HostMove),
    s.invoke = [] → s.status.state ≠ .busy → s.host = .writeCsr .cmd w :: rest → w.toNat = 0 ∨ 4 < w.toNat →
    step s = .refused (.reservedCommand w)

/-! ### The step -/

/-- A step runs the decoded instruction: the bytes of `invoke` first (the model's own way to run the operation of a label alone, log entry 8);
while BUSY the step of `st`, whose label is the code of `st` (R25, R87), with what the host does beside it in its own fields (`hostBusy`,
which `BusyHostOnlyPolls` spells out; log entry 12); otherwise the code the host writes to CMD (R250); and with no host move left the step
of IDLE (log entry 24). -/
def Obligations.StepRunsDecodedInstruction : Prop :=
  ∀ s : State,
    (s.invoke ≠ [] → ∀ i rest, decode .opid s.invoke = .ok (i, rest) → step s = exec i { s with invoke := [] }) ∧
    (s.invoke = [] → s.status.state = .busy →
      decode .opid [s.st.code] = .ok (s.st.instr, []) ∧ step s = exec s.st.instr s.hostBusy ∧
        s.hostBusy = { s with host := s.hostBusy.host, hostData := s.hostBusy.hostData }) ∧
    (s.invoke = [] → s.status.state ≠ .busy → ∀ w rest i, s.host = .writeCsr .cmd w :: rest →
      decode .cmd (leBytes 4 w.toNat) = .ok (i, []) → step s = exec i { s with host := rest }) ∧
    (s.invoke = [] → s.status.state ≠ .busy → s.host = [] → step s = exec .idle s)

/-- R81: in a decoder state that reads one element, the step of the state is the element that the bytes at `ip` decode to: a token in
D.TOKEN, an extension byte in D.LITEXT and D.MLEXT, the two bytes of an offset in D.OFFSET. What the host does beside it, in its own fields
only, is `hostBusy` (log entry 12). -/
def Obligations.StreamStepRunsElement : Prop :=
  ∀ s : State, s.invoke = [] → s.status.state = .busy →
    (∀ i, s.st = .dToken → (s.mode = .streaming → s.ip.toNat < s.iend.toNat) → s.ip.toNat + 1 ≤ s.srcSize →
      decode .token [s.srcAt s.ip.toNat] = .ok (i, []) → step s = exec i s.hostBusy) ∧
    (∀ i, s.st = .dLitext ∨ s.st = .dMlext → s.ip.toNat + 1 ≤ s.srcSize →
      decode .ext [s.srcAt s.ip.toNat] = .ok (i, []) → step s = exec i s.hostBusy) ∧
    (∀ i, s.st = .dOffset → s.ip.toNat + 2 ≤ s.srcSize →
      decode .offset [s.srcAt s.ip.toNat, s.srcAt (s.ip.toNat + 1)] = .ok (i, []) → step s = exec i s.hostBusy)

/-- R78, R81, R184: a near-end literal run of D.LITCOPY is the wire element LITERAL on each of its bytes in turn, and then DONE. The rules
give the run as a whole: that LITERAL is one byte, moves both cursors, leaves `len` and tests no limit is the model's choice (log entry
11), and that DONE's effects are in the step of D.LITCOPY is its reading (log entry 6). -/
def Obligations.NearEndRunIsItsLiterals : Prop :=
  ∀ s : State, s.sizesOk → s.st = .dLitcopy → s.op.toNat + s.len.toNat ≤ s.oend.toNat →
    s.oend.toNat < s.op.toNat + s.len.toNat + 8 → s.oend.toNat ≤ s.dstSize → s.ip.toNat + s.len.toNat ≤ s.srcSize →
    ∃ t, runLiterals s.len.toNat s = .next t ∧
      exec .dLitcopy s = .next ({ t with cpy := BitVec.ofNat 40 (s.op.toNat + s.len.toNat) } : State).endDec

/-- R259, R26: between commands the host reads and writes bytes of SRC and DST, reads any register and writes the operand registers,
one move a step; CMD reads 0; STATUS and RESULT ignore a write. A byte the memory has not is refused (log entry 20). R250 (d): the host
that reads STATUS until it is DONE or ERROR has its last read then, and goes on (the form of that move: log entry 12). -/
def Obligations.HostMovesBetweenCommands : Prop :=
  ∀ (s : State) (rest : List HostMove) (m : HostMove),
    s.invoke = [] → s.status.state ≠ .busy → s.host = m :: rest →
    match m with
    | .writeSrc a b =>
      if a.toNat < s.srcSize then
        ∃ t, step s = .next t ∧ t = { s with host := rest, src := t.src } ∧
          ∀ c, t.srcAt c = if c = a.toNat then b else s.srcAt c
      else step s = .refused .hostRange
    | .writeDst a b =>
      if a.toNat < s.dstSize then
        ∃ t, step s = .next t ∧ t = { s with host := rest, dst := t.dst } ∧ s.wrote t a.toNat [b]
      else step s = .refused .hostRange
    | .readSrc a =>
      step s = if a.toNat < s.srcSize then
        .next { s with host := rest, hostData := BitVec.ofNat 32 (s.srcAt a.toNat).toNat } else .refused .hostRange
    | .readDst a =>
      step s = if a.toNat < s.dstSize then
        .next { s with host := rest, hostData := BitVec.ofNat 32 (s.dstAt a.toNat).toNat } else .refused .hostRange
    | .readCsr .cmd => step s = .next { s with host := rest, hostData := 0#32 }
    | .readCsr .status => step s = .next { s with host := rest, hostData := s.status.word }
    | .readCsr .srcLen => step s = .next { s with host := rest, hostData := s.srcLen }
    | .readCsr .dstCap => step s = .next { s with host := rest, hostData := s.dstCap }
    | .readCsr .expLen => step s = .next { s with host := rest, hostData := s.expLen }
    | .readCsr .result => step s = .next { s with host := rest, hostData := s.result }
    | .writeCsr .srcLen v => step s = .next { s with host := rest, srcLen := v }
    | .writeCsr .dstCap v => step s = .next { s with host := rest, dstCap := v }
    | .writeCsr .expLen v => step s = .next { s with host := rest, expLen := v }
    | .writeCsr .status _ => step s = .next { s with host := rest }
    | .writeCsr .result _ => step s = .next { s with host := rest }
    | .writeCsr .cmd _ => True
    | .wait => step s = .next { s with host := rest }
    | .pollEnd => step s = .next { s with
        host := if s.status.state = .idle then s.host else rest, hostData := s.status.word }

/-- R259, R64, R250: while a command runs every step is the engine's, and beside it the host only reads STATUS, which reads STATE = BUSY
(the whole word is returned: log entry 12), or waits; any other move of the host, a write to CMD among them, waits until the command has
ended (the list of moves: log entry 12). Running one of the four commands while BUSY is refused. -/
def Obligations.BusyHostOnlyPolls : Prop :=
  ∀ s : State, s.invoke = [] → s.status.state = .busy →
    s.status.word.toNat % 4 = 1 ∧
    (∀ rest, s.host = .readCsr .status :: rest →
      step s = exec s.st.instr { s with host := rest, hostData := s.status.word }) ∧
    (∀ rest, s.host = .pollEnd :: rest → step s = exec s.st.instr { s with hostData := s.status.word }) ∧
    (∀ rest, s.host = .wait :: rest → step s = exec s.st.instr { s with host := rest }) ∧
    ((∀ m rest, s.host = m :: rest → m ≠ .readCsr .status ∧ m ≠ .pollEnd ∧ m ≠ .wait) → step s = exec s.st.instr s) ∧
    (∀ i, i = .maxlen ∨ i = .compress ∨ i = .decompressKnown ∨ i = .decompressStream → exec i s = .refused .busy)

/-- R26, R32, R50, R66: no instruction writes SRC or the operand registers: the stream cannot change under DEC. That none changes the
sizes of the memories, the host's moves and its last read, or the unit operation to be run alone is about fields of the model's own (log
entries 1, 12, 8). -/
def Obligations.EngineLeavesHostSide : Prop :=
  ∀ (i : Instr) (s t : State), exec i s = .next t →
    t.src = s.src ∧ t.srcSize = s.srcSize ∧ t.dstSize = s.dstSize ∧ t.srcLen = s.srcLen ∧ t.dstCap = s.dstCap ∧
    t.expLen = s.expLen ∧ t.host = s.host ∧ t.hostData = s.hostData ∧ t.invoke = s.invoke

/-- The frame of DST for every instruction: a byte outside the ranges its meaning stores to, at the addresses its meaning computes,
is unchanged (R53, R226, R227, R229). The seven addresses after a wild match copy count as stored to (log entry 5), and so do those from
`op` to the output limit in a step that ends a decompress command (R193, R284; log entry 25). -/
def Obligations.StoresStayInTheirRange : Prop :=
  ∀ (i : Instr) (s t : State), s.sizesOk → exec i s = .next t →
    ∀ c, (∀ r ∈ storedAt i s, c < r.1 ∨ r.1 + r.2 ≤ c) → t.dstAt c = s.dstAt c

/-- R26, R27: STATUS as the host reads it, field by field. -/
def Obligations.StatusLayout : Prop :=
  ∀ s : Status,
    (s.word.extractLsb' 0 2).toNat =
      (match s.state with
        | .idle => 0
        | .busy => 1
        | .done => 2
        | .error => 3) ∧
    (s.word.extractLsb' 2 1).toNat = (if s.variant = .wide then 1 else 0) ∧
    (s.word.extractLsb' 3 1).toNat = (if s.lenmis then 1 else 0) ∧
    s.word.extractLsb' 4 4 = s.errcode ∧ s.word.extractLsb' 8 24 = 0#24

/-! ### Reset -/

/-- R35: what reset leaves in the state the rule gives a value: `st`, STATUS, RESULT, CMD and the operand registers. -/
def Obligations.ResetState : Prop :=
  State.reset.st = .idle ∧ State.reset.csrRead .status = 0#32 ∧ State.reset.csrRead .result = 0#32 ∧
  State.reset.csrRead .cmd = 0#32 ∧ State.reset.cmd = 0#32 ∧ State.reset.csrRead .srcLen = 0#32 ∧
  State.reset.csrRead .dstCap = 0#32 ∧ State.reset.csrRead .expLen = 0#32

/-- The invariant of `StepKeepsInv` holds at reset. The clauses on the memories, the tables and the sizes rest on the model's choices
(log entries 1, 2, 3). -/
def Obligations.ResetMeetsInv : Prop := State.reset.Inv

/-- Every step keeps the invariant: the memories and tables stay in canonical form and inside their spaces, STATUS agrees with `st`
(R25, R27), a negative RESULT is an error and only that (R28), and the cursors of DEC stay inside the output limit and the memories
(R58, R61, R184). -/
def Obligations.StepKeepsInv : Prop := ∀ s t : State, s.Inv → step s = .next t → t.Inv

/-! ### The commands and the terminal states -/

/-- R250, R85, R58, R258: a command whose preconditions hold starts when the engine is not BUSY, as one step. That SRC_LEN at most
SRC_SIZE is a precondition of MAXLEN too follows R58 and D9 (log entry 28); CMD keeps its code (log entry 7). -/
def Obligations.CommandsStart : Prop :=
  ∀ s : State, s.status.state ≠ .busy →
    let started (v : Variant) : Status := { state := .busy, variant := v, lenmis := false, errcode := 0#4 }
    (s.srcLen.toNat ≤ 2139095024 → s.srcLen.toNat ≤ s.srcSize →
      exec .maxlen s = .next { s with cmd := 1#32, status := started .narrow, st := .mMaxlen }) ∧
    (s.srcLen.toNat ≤ 2139095024 → s.srcLen.toNat ≤ s.srcSize →
      s.srcLen.toNat + s.srcLen.toNat / 255 + 16 ≤ s.dstCap.toNat → s.dstCap.toNat ≤ s.dstSize →
      exec .compress s = .next { s with cmd := 2#32, status := started s.status.variant, st := .eInit }) ∧
    (s.expLen.toNat ≤ s.dstSize → s.expLen.toNat < 2 ^ 31 →
      exec .decompressKnown s = .next { s with cmd := 3#32, status := started .narrow, st := .dInit }) ∧
    (s.srcLen.toNat ≤ s.srcSize → s.dstCap.toNat < 2 ^ 31 → s.dstCap.toNat ≤ s.dstSize →
      exec .decompressStream s = .next { s with cmd := 4#32, status := started .narrow, st := .dInit })

/-- R58, R258: each row of the preconditions, refused where it is broken. That row 1 applies to MAXLEN in both parts follows R58 and D9
(log entry 28). -/
def Obligations.BrokenPreconditionRefused : Prop :=
  ∀ s : State,
    (2139095024 < s.srcLen.toNat ∨ s.srcSize < s.srcLen.toNat →
      (∃ r, exec .maxlen s = .refused r) ∧ ∃ r, exec .compress s = .refused r) ∧
    (s.dstCap.toNat < s.srcLen.toNat + s.srcLen.toNat / 255 + 16 → ∃ r, exec .compress s = .refused r) ∧
    (s.dstSize < s.dstCap.toNat → (∃ r, exec .compress s = .refused r) ∧ ∃ r, exec .decompressStream s = .refused r) ∧
    (s.dstSize < s.expLen.toNat ∨ 2 ^ 31 ≤ s.expLen.toNat → ∃ r, exec .decompressKnown s = .refused r) ∧
    (s.srcSize < s.srcLen.toNat ∨ 2 ^ 31 ≤ s.dstCap.toNat → ∃ r, exec .decompressStream s = .refused r)

/-- R251: MAXLEN writes `SRC_LEN + floor(SRC_LEN / 255) + 16`, which fits the signed RESULT, and ends DONE. That the step itself refuses
a larger SRC_LEN, as the command does, is the model's reading (log entry 21); so is that it refuses one above SRC_SIZE (log entry 28). -/
def Obligations.MaxlenResult : Prop :=
  ∀ s : State,
    if s.srcLen.toNat ≤ 2139095024 ∧ s.srcLen.toNat ≤ s.srcSize then
      ∃ t, exec .mMaxlen s = .next t ∧
        t = { s with result := t.result, status := { s.status with state := .done }, st := .done } ∧
        t.result.toInt = s.srcLen.toNat + s.srcLen.toNat / 255 + 16
    else ∃ r, exec .mMaxlen s = .refused r

/-- R312, R292: the step of IDLE waits, and nothing changes. R154, R190, R197: what DONE writes after ENC and after DEC. Which of the
two it is, `cmd` says; after MAXLEN, RESULT stands as M.MAXLEN wrote it (log entry 21). That a row DONE is run as a step of its own is log
entry 6; that DONE after no command at all (CMD 0, as after reset) is DONE after DEC is the model's choice (log entry 21). After DEC nothing
is said of the bytes of DST from `op` to the output limit (R193; log entry 25). -/
def Obligations.IdleWaitsAndDoneWrites : Prop :=
  ∀ s : State,
    exec .idle s = .next s ∧
    (s.cmd = 2#32 → exec .done s = .next { s with result := s.op, status := { s.status with state := .done }, st := .done }) ∧
    (s.cmd ≠ 1#32 → s.cmd ≠ 2#32 →
      ∃ t, exec .done s = .next t ∧ s.keptOutside t s.op.toNat s.oend.toNat ∧
        t = { s with
          result := if s.mode = .known then s.ip else s.op
          status := { s.status with state := .done, lenmis := decide (s.mode = .known ∧ s.op ≠ s.oend) }
          st := .done, dst := t.dst, draws := t.draws }) ∧
    (s.cmd = 1#32 → exec .done s = .next { s with status := { s.status with state := .done }, st := .done })

/-- R283: the error entry. RESULT is the negated count of input bytes consumed, negative whenever a byte has been consumed, ERRCODE
is 1, STATE and `st` are ERROR, and nothing else is saved. That a row ERROR is run as a step of its own is the model's reading (log entry
6; R191, R289). Nothing is said of the bytes of DST from `op` to the output limit (R284; log entry 25). -/
def Obligations.ErrorEntry : Prop :=
  ∀ s : State, 1 ≤ s.ip.toNat → s.ip.toNat < 2 ^ 31 →
    ∃ t, exec .error s = .next t ∧ s.keptOutside t s.op.toNat s.oend.toNat ∧
      t = { s with
        result := t.result, status := { s.status with state := .error, errcode := 1#4 }, st := .error
        dst := t.dst, draws := t.draws } ∧
      t.result.toInt = -(s.ip.toNat : Int) ∧ t.result.toInt ≤ -1

/-! ### Wire elements, TUN and PACK -/

/-- R72, R74, R77, R78, R81: each wire element in the decoder state that reads it. That an element run alone brings its bits with it, and
reads no SRC and tests no `iend`, and that LITERAL is run byte by byte, is the model's choice (log entry 11). -/
def Obligations.ElementsInContext : Prop :=
  ∀ s : State,
    (∀ ll ml, s.st = .dToken →
      exec (.token ll ml) s = .next { s with
        tok := ll ++ ml, ll := ll, ml := ml, len := BitVec.ofNat 40 ll.toNat, ip := advance s.ip 1
        st := if ll = 15#4 then .dLitext else .dLitcopy }) ∧
    (s.st = .dLitext ∨ s.st = .dMlext →
      exec .extCont s = .next { s with ip := advance s.ip 1, len := BitVec.ofNat 40 (s.len.toNat + 255) }) ∧
    (∀ v : Byte, v ≠ 0xFF#8 → s.st = .dLitext ∨ s.st = .dMlext →
      exec (.extTerm v) s = .next { s with
        ip := advance s.ip 1, len := BitVec.ofNat 40 (s.len.toNat + v.toNat)
        st := if s.st = .dLitext then .dLitcopy else .dMatch4 }) ∧
    (∀ b : Byte, s.st = .dLitcopy → s.op.toNat + 1 ≤ s.dstSize →
      ∃ t, exec (.literal b) s = .next t ∧
        t = { s with dst := t.dst, ip := advance s.ip 1, op := advance s.op 1 } ∧ s.wrote t s.op.toNat [b]) ∧
    (∀ o : BitVec 16, s.st = .dOffset →
      exec (.offset o) s = .next { s with
        off := o, ip := advance s.ip 2, ref := BitVec.ofInt 33 ((s.op.toNat : Int) - o.toNat)
        len := BitVec.ofNat 40 s.ml.toNat, st := if s.ml = 15#4 then .dMlext else .dMatch4 })

/-- A wire element outside the decoder state that reads it is refused by its own name: the model's choice (log entry 11), since by R81
the byte is then another element. -/
def Obligations.ElementsOutOfContext : Prop :=
  ∀ s : State,
    (∀ ll ml, s.st ≠ .dToken → exec (.token ll ml) s = .refused (.outOfContext "TOKEN")) ∧
    (s.st ≠ .dLitext → s.st ≠ .dMlext → exec .extCont s = .refused (.outOfContext "EXT.CONT")) ∧
    (∀ v, (s.st ≠ .dLitext ∧ s.st ≠ .dMlext) ∨ v = 0xFF#8 → exec (.extTerm v) s = .refused (.outOfContext "EXT.TERM")) ∧
    (∀ b, s.st ≠ .dLitcopy → exec (.literal b) s = .refused (.outOfContext "LITERAL")) ∧
    (∀ o, s.st ≠ .dOffset → exec (.offset o) s = .refused (.outOfContext "OFFSET"))

/-- R100: TUN.SPLIT, `ll = t >> 4` and `ml = t mod 16`. R102: TUN.EXT adds the byte at `ip` to `len`, moves `ip` by 1 and answers
whether the byte was 255; it faults where SRC has no byte. The latch of the answer in `more` is the model's (log entry 9). -/
def Obligations.SplitAndExtension : Prop :=
  ∀ s : State,
    (∀ t : Byte, exec (.tunSplit t) s =
      .next { s with ll := BitVec.ofNat 4 (t.toNat / 16), ml := BitVec.ofNat 4 (t.toNat % 16) }) ∧
    exec .tunExt s =
      if s.ip.toNat < s.srcSize then
        .next { s with
          ip := advance s.ip 1, len := BitVec.ofNat 40 (s.len.toNat + (s.srcAt s.ip.toNat).toNat)
          more := decide ((s.srcAt s.ip.toNat).toNat = 255) }
      else .fault .srcRange

/-- R101, R103, R74: TUN.LEN. A code below 15 is the length and reads nothing; the code 15 with `k` bytes `0xFF` and a final byte `v`
below 255 gives `15 + 255 * k + v`; a SRC that holds only `0xFF` from `ip` on faults. -/
def Obligations.LengthAssembly : Prop :=
  ∀ s : State, s.sizesOk →
    (∀ c : BitVec 4, c.toNat < 15 → exec (.tunLen c) s = .next { s with len := BitVec.ofNat 40 c.toNat }) ∧
    (∀ k v : Nat, v < 255 → s.ip.toNat + k + 1 ≤ s.srcSize → (∀ j < k, (s.srcAt (s.ip.toNat + j)).toNat = 255) →
      (s.srcAt (s.ip.toNat + k)).toNat = v →
      exec (.tunLen 15#4) s = .next { s with len := BitVec.ofNat 40 (15 + 255 * k + v), ip := advance s.ip (k + 1) }) ∧
    ((∀ a, s.ip.toNat ≤ a → a < s.srcSize → (s.srcAt a).toNat = 255) → exec (.tunLen 15#4) s = .fault .srcRange)

/-- R105: PACK.TOKEN writes one byte, the literal length code in its high nibble and 0 in its low nibble, and moves `op`. R106:
PACK.EXT writes `floor(r / 255)` bytes `0xFF` and the final byte `r mod 255`, and moves `op` past them. -/
def Obligations.PackWrites : Prop :=
  ∀ s : State,
    (∀ l : Len, s.op.toNat + 1 ≤ s.dstSize →
      ∃ t, exec (.packToken l) s = .next t ∧ t = { s with dst := t.dst, tokpos := s.op, op := advance s.op 1 } ∧
        s.wrote t s.op.toNat [if 15 ≤ l.toNat then 0xF0#8 else BitVec.ofNat 8 (16 * l.toNat)]) ∧
    ∀ r : Len, s.op.toNat + r.toNat / 255 + 1 ≤ s.dstSize →
      ∃ t, exec (.packExt r) s = .next t ∧ t = { s with dst := t.dst, op := advance s.op (r.toNat / 255 + 1) } ∧
        s.wrote t s.op.toNat (List.replicate (r.toNat / 255) 0xFF#8 ++ [BitVec.ofNat 8 (r.toNat % 255)])

/-- R107: TUN.LEN is the inverse of PACK.TOKEN and PACK.EXT. From the code `min(L, 15)` and the bytes PACK.EXT writes for `L - 15` it
returns `L` and consumes exactly those bytes; and whenever it returns `L`, its code and the bytes it consumed are that pair. -/
def Obligations.PackThenUnpack : Prop :=
  ∀ s : State, s.sizesOk →
    (∀ L : Nat, L < 2 ^ 40 → s.ip.toNat + (extOf L).length ≤ s.srcSize →
      Memory.bytes .src s.src s.ip.toNat (extOf L).length = extOf L →
      exec (.tunLen (BitVec.ofNat 4 (min L 15))) s =
        .next { s with len := BitVec.ofNat 40 L, ip := advance s.ip (extOf L).length }) ∧
    (∀ (c : BitVec 4) (t : State), exec (.tunLen c) s = .next t →
      c.toNat = min t.len.toNat 15 ∧ t.ip.toNat = s.ip.toNat + (extOf t.len.toNat).length ∧
      Memory.bytes .src s.src s.ip.toNat (extOf t.len.toNat).length = extOf t.len.toNat)

/-! ### Hash and hash table -/

/-- R122, R123: the two hashes of a word, and that the wide one is the narrow one shifted right by 1. The latch of the index in `h` is
the model's (log entry 9). -/
def Obligations.HashFunctions : Prop :=
  ∀ (w : Word) (s : State),
    exec (.hashW w) s = .next { s with h := BitVec.ofNat 13 (w.toNat * 2654435761 % 2 ^ 32 / 2 ^ 20) } ∧
    exec (.hashN w) s = .next { s with h := BitVec.ofNat 13 (w.toNat * 2654435761 % 2 ^ 32 / 2 ^ 19) } ∧
    (hashOf .wide w).toNat = (hashOf .narrow w).toNat / 2

/-- R121, R125: HT.SELECT takes the narrow variant exactly below 65546; HT.CLEAR makes every entry of the selected variant 0, and leaves
the other variant's entries (log entry 17). -/
def Obligations.SelectAndClear : Prop :=
  ∀ s : State,
    (∀ n : Word, exec (.htSelect n) s = .next { s with variant := if n.toNat < 65546 then .narrow else .wide }) ∧
    ∃ t, exec .htClear s = .next t ∧ t = { s with htW := t.htW, htN := t.htN } ∧ (∀ i, t.htAt i = 0#32) ∧
      s.otherTableKept t s.variant

/-- R126: HT.LOOKUP returns the entry; HT.INSERT overwrites it and no other, the other variant's table included (log entry 17). Where the
rule gives no result the instruction runs and a value is free (log entry 15): what the narrow entry holds once a position above 65535 was
inserted, what a lookup at an index the wide table has not returns, and which entry of it, if any, such an insertion overwrites. The latch
of the entry in `ref` is the model's (log entry 9). -/
def Obligations.LookupAndInsert : Prop :=
  ∀ (s : State) (i : Bucket),
    ((s.variant = .wide → i.toNat < 4096) →
      exec (.htLookup i) s = .next { s with ref := BitVec.ofNat 33 (s.htAt i).toNat }) ∧
    (s.variant = .wide → 4096 ≤ i.toNat →
      ∃ (v : Word) (d : Nat), exec (.htLookup i) s = .next { s with ref := BitVec.ofNat 33 v.toNat, draws := d }) ∧
    ∀ p : Pos,
      ((s.variant = .wide → i.toNat < 4096) →
        ∃ t, exec (.htInsert i p) s = .next t ∧ t = { s with htW := t.htW, htN := t.htN } ∧ s.otherTableKept t s.variant ∧
          (∀ j, j ≠ i → t.htAt j = s.htAt j) ∧ ((s.variant = .narrow → p.toNat < 65536) → t.htAt i = p)) ∧
      (s.variant = .wide → 4096 ≤ i.toNat →
        ∃ t, exec (.htInsert i p) s = .next t ∧ t = { s with htW := t.htW, draws := t.draws } ∧
          ∃ k : Option Bucket, ∀ j, t.htAt j = if k = some j then p else s.htAt j)

/-- R127, R124: HT.PROBE returns the entry of the bucket of the word at `p` as it was, and then writes `p` there. That
the other variant's table is as before rests on the model's two tables (log entry 17). What a narrow entry holds where `p` does not fit its
16 bits the rules do not say, and nothing is said of it (log entry 15). -/
def Obligations.ProbeLooksUpThenInserts : Prop :=
  ∀ (s : State) (p : Pos), p.toNat + 4 ≤ s.srcSize →
    let h := hashOf s.variant (s.wordAt p.toNat)
    ∃ t, exec (.htProbe p) s = .next t ∧
      t = { s with h := h, ref := BitVec.ofNat 33 (s.htAt h).toNat, htW := t.htW, htN := t.htN } ∧
      s.otherTableKept t s.variant ∧ (∀ j, j ≠ h → t.htAt j = s.htAt j) ∧
      ((s.variant = .narrow → p.toNat < 65536) → t.htAt h = p)

/-- R128: HT.ACCEPT, a candidate strictly earlier, at most 65535 back, with the same 4 bytes. The latch of the answer in `accepted` is
the model's (log entry 9). -/
def Obligations.AcceptDecides : Prop :=
  ∀ (s : State) (ref : Ref) (ip : Pos), 0 ≤ ref.toInt → ip.toNat + 4 ≤ s.srcSize →
    exec (.htAccept ref ip) s = .next { s with
      accepted := decide (1 ≤ (ip.toNat : Int) - ref.toInt ∧ (ip.toNat : Int) - ref.toInt ≤ 65535 ∧
        ∀ j : Fin 4, s.srcAt (ref.toInt.toNat + j) = s.srcAt (ip.toNat + j)) }

/-! ### The encoder -/

/-- R141: E.INIT. That the table of the variant it does not choose is as before rests on the model's two tables (log entry 17). -/
def Obligations.EncInit : Prop :=
  ∀ s : State,
    let v : Variant := if s.srcLen.toNat < 65546 then .narrow else .wide
    ∃ t, exec .eInit s = .next t ∧ (∀ i, t.htAt i = 0#32) ∧ s.otherTableKept t v ∧
      t = { s with
        iend := s.srcLen, ip := 0#32, anchor := 0#32, op := 0#32, variant := v
        status := { s.status with variant := v }, htW := t.htW, htN := t.htN
        mflimit := if s.srcLen.toNat < 17 then s.mflimit else BitVec.ofNat 32 (s.srcLen.toNat - 12)
        matchlimit := if s.srcLen.toNat < 17 then s.matchlimit else BitVec.ofNat 32 (s.srcLen.toNat - 5)
        st := if s.srcLen.toNat < 17 then .eLast else .eSearchInit }

/-- R142, R150: E.SEARCH_INIT starts a search with the counter 67 at `ip`; E.ENDCHK ends the block once `ip` is past `mflimit`. -/
def Obligations.SearchInitAndEndchk : Prop :=
  ∀ s : State,
    exec .eSearchInit s = .next { s with attempts := 67#32, fwd := s.ip, st := .eProbe } ∧
    exec .eEndchk s = .next
      (if s.mflimit.toNat < s.ip.toNat then { s with anchor := s.ip, st := .eLast } else { s with st := .eChain })

/-- R143: E.PROBE. Past `mflimit` the search ends; otherwise the position is probed, and the candidate accepted or not.
That the other variant's table is as before rests on the model's two tables (log entry 17); that `ip` is moved before it is tested is R143
against R155 (log entry 27). Nothing is said of what a narrow entry holds where the position does not fit its 16 bits (log entry 15). -/
def Obligations.ProbeStep : Prop :=
  ∀ s : State,
    (s.mflimit.toNat < s.fwd.toNat →
      exec .eProbe s = .next { s with
        attempts := s.attempts + 1#32, ip := s.fwd, fwd := advance s.fwd (s.attempts.toNat / 64), st := .eLast }) ∧
    (s.fwd.toNat ≤ s.mflimit.toNat → s.fwd.toNat + 4 ≤ s.srcSize →
      let h := hashOf s.variant (s.wordAt s.fwd.toNat)
      let r := (s.htAt h).toNat
      ∃ t, exec .eProbe s = .next t ∧ (∀ j, j ≠ h → t.htAt j = s.htAt j) ∧
        ((s.variant = .narrow → s.fwd.toNat < 65536) → t.htAt h = s.fwd) ∧ s.otherTableKept t s.variant ∧
        t = { s with
          attempts := s.attempts + 1#32, ip := s.fwd, fwd := advance s.fwd (s.attempts.toNat / 64)
          h := h, ref := BitVec.ofNat 33 r, htW := t.htW, htN := t.htN
          st := if r < s.fwd.toNat ∧ s.fwd.toNat - r ≤ 65535 ∧ ∀ j : Fin 4, s.srcAt (r + j) = s.srcAt (s.fwd.toNat + j)
            then .eCatchup else .eProbe })

/-- R144: E.CATCHUP moves both cursors back by the same `k`, over `k` equal bytes, and stops at `anchor`, at the start of SRC or at the
first pair of bytes that differ. -/
def Obligations.CatchupStep : Prop :=
  ∀ s : State, 0 ≤ s.ref.toInt → s.ip.toNat ≤ s.srcSize → s.ref.toInt ≤ s.srcSize →
    ∃ k : Nat, exec .eCatchup s = .next { s with
        ip := BitVec.ofNat 32 (s.ip.toNat - k), ref := BitVec.ofInt 33 (s.ref.toInt - k), st := .eLitlen } ∧
      k ≤ s.ip.toNat - s.anchor.toNat ∧ (k : Int) ≤ s.ref.toInt ∧
      (∀ j, 1 ≤ j → j ≤ k → s.srcAt (s.ip.toNat - j) = s.srcAt (s.ref.toInt.toNat - j)) ∧
      (s.ip.toNat - k ≤ s.anchor.toNat ∨ s.ref.toInt = k ∨
        s.srcAt (s.ip.toNat - (k + 1)) ≠ s.srcAt (s.ref.toInt.toNat - (k + 1)))

/-- R145: E.LITLEN writes the token of the literal run and its extension bytes. -/
def Obligations.LitlenStep : Prop :=
  ∀ s : State, s.sizesOk → s.anchor.toNat ≤ s.ip.toNat →
    s.op.toNat + (headOf (s.ip.toNat - s.anchor.toNat)).length ≤ s.dstSize →
    let l := s.ip.toNat - s.anchor.toNat
    ∃ t, exec .eLitlen s = .next t ∧ s.wrote t s.op.toNat (headOf l) ∧
      t = { s with
        len := BitVec.ofNat 40 l, tokpos := s.op, op := advance s.op (headOf l).length, dst := t.dst, st := .eLitcopy }

/-- R146: E.LITCOPY copies exactly the literal bytes. R147: E.OFFSET writes the distance, little-endian, in two bytes. -/
def Obligations.LitcopyAndOffsetSteps : Prop :=
  ∀ s : State,
    (s.anchor.toNat + s.len.toNat ≤ s.srcSize → s.op.toNat + s.len.toNat ≤ s.dstSize →
      ∃ t, exec .eLitcopy s = .next t ∧
        s.wrote t s.op.toNat (Memory.bytes .src s.src s.anchor.toNat s.len.toNat) ∧
        t = { s with dst := t.dst, op := advance s.op s.len.toNat, st := .eOffset }) ∧
    (∀ d : Nat, s.ref.toInt + d = s.ip.toNat → d < 65536 → s.op.toNat + 2 ≤ s.dstSize →
      ∃ t, exec .eOffset s = .next t ∧ s.wrote t s.op.toNat [BitVec.ofNat 8 (d % 256), BitVec.ofNat 8 (d / 256)] ∧
        t = { s with dst := t.dst, op := advance s.op 2, st := .eExtend })

/-- R148: E.EXTEND advances by the 4 verified bytes and then by the longest common run, clamped at `matchlimit`. -/
def Obligations.ExtendStep : Prop :=
  ∀ s : State, s.sizesOk → 0 ≤ s.ref.toInt → s.ref.toInt ≤ s.ip.toNat → s.ip.toNat + 4 ≤ s.matchlimit.toNat →
    s.matchlimit.toNat ≤ s.srcSize →
    ∃ k : Nat, exec .eExtend s = .next { s with
        ip := BitVec.ofNat 32 (s.ip.toNat + 4 + k), ref := BitVec.ofInt 33 (s.ref.toInt + 4 + k)
        mstart := BitVec.ofNat 32 (s.ip.toNat + 4), st := .eMlen } ∧
      s.ip.toNat + 4 + k ≤ s.matchlimit.toNat ∧
      (∀ j < k, s.srcAt (s.ref.toInt.toNat + 4 + j) = s.srcAt (s.ip.toNat + 4 + j)) ∧
      (s.ip.toNat + 4 + k = s.matchlimit.toNat ∨
        s.srcAt (s.ref.toInt.toNat + 4 + k) ≠ s.srcAt (s.ip.toNat + 4 + k))

/-- R149: E.MLEN adds the match length code to the token byte and writes the extension bytes after the offset. -/
def Obligations.MlenStep : Prop :=
  ∀ s : State, s.sizesOk → s.mstart.toNat ≤ s.ip.toNat → s.tokpos.toNat < s.op.toNat →
    s.op.toNat + (extOf (s.ip.toNat - s.mstart.toNat)).length ≤ s.dstSize →
    let l := s.ip.toNat - s.mstart.toNat
    ∃ t, exec .eMlen s = .next t ∧
      t = { s with len := BitVec.ofNat 40 l, op := advance s.op (extOf l).length, dst := t.dst, st := .eEndchk } ∧
      ∀ c, t.dstAt c =
        if c = s.tokpos.toNat then BitVec.ofNat 8 ((s.dstAt c).toNat + min l 15)
        else if s.op.toNat ≤ c ∧ c < s.op.toNat + (extOf l).length then (extOf l).getD (c - s.op.toNat) 0#8
        else s.dstAt c

/-- R151: E.CHAIN looks up the bucket at `ip` without inserting; an accepted candidate gets the token `0x00` at once. -/
def Obligations.ChainStep : Prop :=
  ∀ s : State, s.ip.toNat + 4 ≤ s.srcSize → s.op.toNat + 1 ≤ s.dstSize →
    let h := hashOf s.variant (s.wordAt s.ip.toNat)
    let r := (s.htAt h).toNat
    if r < s.ip.toNat ∧ s.ip.toNat - r ≤ 65535 ∧ ∀ j : Fin 4, s.srcAt (r + j) = s.srcAt (s.ip.toNat + j) then
      ∃ t, exec .eChain s = .next t ∧ s.wrote t s.op.toNat [0#8] ∧
        t = { s with
          h := h, ref := BitVec.ofNat 33 r, tokpos := s.op, op := advance s.op 1, dst := t.dst, st := .eOffset }
    else exec .eChain s = .next { s with h := h, ref := BitVec.ofNat 33 r, st := .eRehash }

/-- R152: E.REHASH inserts `ip - 2` and then `ip`, so that `ip` stays where both have one bucket, and goes on from the next byte.
That the other variant's table is as before rests on the model's two tables (log entry 17). Nothing is said of what a narrow entry holds
where the position does not fit its 16 bits (log entry 15). -/
def Obligations.RehashStep : Prop :=
  ∀ s : State, 2 ≤ s.ip.toNat → s.ip.toNat + 4 ≤ s.srcSize →
    let h := hashOf s.variant (s.wordAt s.ip.toNat)
    let g := hashOf s.variant (s.wordAt (s.ip.toNat - 2))
    ∃ t, exec .eRehash s = .next t ∧
      t = { s with htW := t.htW, htN := t.htN, anchor := s.ip, ip := advance s.ip 1, st := .eSearchInit } ∧
      s.otherTableKept t s.variant ∧ (∀ j, j ≠ h → j ≠ g → t.htAt j = s.htAt j) ∧
      ((s.variant = .narrow → s.ip.toNat < 65536) → t.htAt h = s.ip) ∧
      (g ≠ h → (s.variant = .narrow → s.ip.toNat - 2 < 65536) → t.htAt g = BitVec.ofNat 32 (s.ip.toNat - 2))

/-- R153, R154: E.LAST writes the last sequence, all remaining bytes as one literal run, and the command ends DONE with the compressed
length as RESULT. That this is one step is the model's reading (log entry 6). -/
def Obligations.LastStep : Prop :=
  ∀ s : State, s.sizesOk → s.anchor.toNat ≤ s.iend.toNat → s.iend.toNat ≤ s.srcSize →
    let l := s.iend.toNat - s.anchor.toNat
    s.op.toNat + (headOf l).length + l ≤ s.dstSize →
    ∃ t, exec .eLast s = .next t ∧
      s.wrote t s.op.toNat (headOf l ++ Memory.bytes .src s.src s.anchor.toNat l) ∧
      t = { s with
        len := BitVec.ofNat 40 l, tokpos := s.op, op := advance s.op ((headOf l).length + l), dst := t.dst
        result := advance s.op ((headOf l).length + l), status := { s.status with state := .done }, st := .done }

/-- R156, R157, R62: from a state of ENC that meets its invariant (reads in range, offsets legal, matches real, tail kept, output within
the budget), the step never stops: it keeps the invariant, or it ends the command DONE with a RESULT that is not negative and at most the
bound of MAXLEN. -/
def Obligations.EncNeverStops : Prop :=
  ∀ s : State, s.EncInv →
    ∃ t, exec s.st.instr s = .next t ∧
      (t.EncInv ∨
        (t.st = .done ∧ t.status.state = .done ∧ 0 ≤ t.result.toInt ∧
          t.result.toNat ≤ s.iend.toNat + s.iend.toNat / 255 + 16))

/-- R258 rows 1 to 3 give ENC its invariant: a COMPRESS that starts meets it. -/
def Obligations.CompressMeetsEncInv : Prop :=
  ∀ s t : State, s.sizesOk → exec .compress s = .next t → t.st = .eInit ∧ t.EncInv

/-- R158: no rule of ENC has a draw. A step of ENC uses none, and is the same whatever the draws are. -/
def Obligations.EncUsesNoDraw : Prop :=
  ∀ (s t : State) (d : Nat), s.st.isEnc = true → exec s.st.instr s = .next t →
    t.draws = s.draws ∧ exec s.st.instr { s with draws := d } = .next { t with draws := d }

/-! ### The decoder -/

/-- R181: D.INIT. -/
def Obligations.DecInit : Prop :=
  ∀ s : State,
    (s.cmd = 3#32 →
      exec .dInit s = .next { s with ip := 0#32, op := 0#32, mode := .known, oend := s.expLen, st := .dToken }) ∧
    (s.cmd ≠ 3#32 →
      exec .dInit s = .next { s with
        ip := 0#32, op := 0#32, mode := .streaming, oend := s.dstCap, iend := s.srcLen, st := .dToken })

/-- R182, R190, R59: D.TOKEN ends a streaming command whose input is used up, otherwise consumes and splits one byte, and faults where
SRC has none. That DONE's effects are in this step is the model's reading (log entry 6); nothing is said of the bytes of DST from `op` to
the output limit once the command has ended (R193; log entry 25). -/
def Obligations.TokenStep : Prop :=
  ∀ s : State,
    (s.mode = .streaming ∧ s.iend.toNat ≤ s.ip.toNat →
      ∃ t, exec .dToken s = .next t ∧ s.keptOutside t s.op.toNat s.oend.toNat ∧
        t = { s with
          result := s.op, status := { s.status with state := .done, lenmis := false }, st := .done
          dst := t.dst, draws := t.draws }) ∧
    (¬(s.mode = .streaming ∧ s.iend.toNat ≤ s.ip.toNat) →
      exec .dToken s =
        if s.ip.toNat < s.srcSize then
          let b := s.srcAt s.ip.toNat
          .next { s with
            tok := b, ip := advance s.ip 1, ll := BitVec.ofNat 4 (b.toNat / 16), ml := BitVec.ofNat 4 (b.toNat % 16)
            len := BitVec.ofNat 40 (b.toNat / 16), st := if b.toNat / 16 = 15 then .dLitext else .dLitcopy }
        else .fault .srcRange)

/-- R183, R187: one extension byte of a literal or match length, each step. -/
def Obligations.ExtensionSteps : Prop :=
  ∀ s : State,
    let b := s.srcAt s.ip.toNat
    let t : State := { s with ip := advance s.ip 1, len := BitVec.ofNat 40 (s.len.toNat + b.toNat) }
    exec .dLitext s = (if s.ip.toNat < s.srcSize then .next { t with st := if b.toNat = 255 then .dLitext else .dLitcopy }
      else .fault .srcRange) ∧
    exec .dMlext s = (if s.ip.toNat < s.srcSize then .next { t with st := if b.toNat = 255 then .dMlext else .dMatch4 }
      else .fault .srcRange)

/-- R184, R281, R283, R190: D.LITCOPY. A run past the limit is the error; a run that ends within 8 bytes of the limit is copied exactly and
ends the command; any other is copied wide, and may leave unspecified bytes in the addresses after it up to the next multiple of 8 of its
length (log entries 4, 6). A run that does not overflow and has a byte SRC has not faults (R184, R285). Once the command has ended nothing
is said of the bytes of DST from `op` to the output limit (R193, R284; log entry 25). -/
def Obligations.LitcopyStep : Prop :=
  ∀ s : State, s.sizesOk →
    let n := s.len.toNat
    let c := s.op.toNat + n
    (s.oend.toNat < c →
      ∃ t, exec .dLitcopy s = .next t ∧ s.keptOutside t s.op.toNat s.oend.toNat ∧
        t = { s with
          cpy := BitVec.ofNat 40 c, result := -s.ip
          status := { s.status with state := .error, errcode := 1#4 }, st := .error, dst := t.dst, draws := t.draws }) ∧
    (c ≤ s.oend.toNat → 0 < n → s.srcSize < s.ip.toNat + n → exec .dLitcopy s = .fault .srcRange) ∧
    (c ≤ s.oend.toNat → s.oend.toNat < c + 8 → s.oend.toNat ≤ s.dstSize → s.ip.toNat + n ≤ s.srcSize →
      ∃ t, exec .dLitcopy s = .next t ∧
        (∀ a, ¬(c ≤ a ∧ a < s.oend.toNat) → t.dstAt a =
          if s.op.toNat ≤ a ∧ a < c then s.srcAt (s.ip.toNat + (a - s.op.toNat)) else s.dstAt a) ∧
        t = { s with
          cpy := BitVec.ofNat 40 c, ip := advance s.ip n, op := BitVec.ofNat 32 c, dst := t.dst, draws := t.draws
          result := if s.mode = .known then advance s.ip n else BitVec.ofNat 32 c
          status := { s.status with state := .done, lenmis := decide (s.mode = .known ∧ c ≠ s.oend.toNat) }, st := .done }) ∧
    (c + 8 ≤ s.oend.toNat → s.oend.toNat ≤ s.dstSize → s.ip.toNat + n ≤ s.srcSize →
      ∃ t, exec .dLitcopy s = .next t ∧
        (∀ a, ¬(c ≤ a ∧ a < c + (8 - n % 8) % 8) → t.dstAt a =
          if s.op.toNat ≤ a ∧ a < c then s.srcAt (s.ip.toNat + (a - s.op.toNat)) else s.dstAt a) ∧
        t = { s with
          cpy := BitVec.ofNat 40 c, ip := advance s.ip n, op := BitVec.ofNat 32 c, dst := t.dst, draws := t.draws
          st := .dEofchk })

/-- R185, R186: D.EOFCHK and D.OFFSET. That DONE's effects are in the step of D.EOFCHK is the model's reading (log entry 6); nothing is said
of the bytes of DST from `op` to the output limit once the command has ended (R193; log entry 25). -/
def Obligations.EofchkAndOffsetSteps : Prop :=
  ∀ s : State,
    (s.mode = .known → s.op = s.oend →
      exec .dEofchk s = .next { s with
        result := s.ip, status := { s.status with state := .done, lenmis := false }, st := .done }) ∧
    (s.mode = .streaming → s.iend.toNat ≤ s.ip.toNat →
      ∃ t, exec .dEofchk s = .next t ∧ s.keptOutside t s.op.toNat s.oend.toNat ∧
        t = { s with
          result := s.op, status := { s.status with state := .done, lenmis := false }, st := .done
          dst := t.dst, draws := t.draws }) ∧
    (¬(s.mode = .known ∧ s.op = s.oend) → ¬(s.mode = .streaming ∧ s.iend.toNat ≤ s.ip.toNat) →
      exec .dEofchk s = .next { s with st := .dOffset }) ∧
    exec .dOffset s =
      (if s.ip.toNat + 2 ≤ s.srcSize then
        let o := (s.srcAt s.ip.toNat).toNat + 256 * (s.srcAt (s.ip.toNat + 1)).toNat
        .next { s with
          off := BitVec.ofNat 16 o, ip := advance s.ip 2, ref := BitVec.ofInt 33 ((s.op.toNat : Int) - o)
          len := BitVec.ofNat 40 s.ml.toNat, st := if s.ml = 15#4 then .dMlext else .dMatch4 }
      else .fault .srcRange)

/-- R188, R60, R63: D.MATCH4 faults on a source before the output; otherwise it copies 4 bytes one after the other, so that a distance
of 1, 2 or 3 repeats the last 1, 2 or 3 bytes, and at distance 0 each byte is what it was (log entry 26). -/
def Obligations.Match4Step : Prop :=
  ∀ s : State,
    (s.ref.toInt < 0 → exec .dMatch4 s = .fault .badRef) ∧
    (0 ≤ s.ref.toInt → s.ref.toInt + 4 ≤ s.dstSize → s.op.toNat + 4 ≤ s.dstSize →
      ∃ t, exec .dMatch4 s = .next t ∧
        t = { s with
          dst := t.dst, op := advance s.op 4, ref := BitVec.ofInt 33 (s.ref.toInt + 4), st := .dMatchcopy } ∧
        ∀ a, t.dstAt a =
          if s.op.toNat ≤ a ∧ a < s.op.toNat + 4 then s.matchByte s.ref.toInt.toNat s.op.toNat (a - s.op.toNat)
          else s.dstAt a)

/-- R189, R281, R283, R190: D.MATCHCOPY. A match past the limit is the error; one that ends within 8 bytes of the limit is copied exactly,
and ends the command only exactly at the limit; any other is copied wide, and may leave unspecified bytes in the 7 addresses after it (log
entries 5, 6). A match of offset 0 leaves each byte what it was (log entry 26). After the error nothing is said of the bytes of DST
from `op` to the output limit (R284; log entry 25). -/
def Obligations.MatchcopyStep : Prop :=
  ∀ s : State, s.sizesOk →
    let n := s.len.toNat
    let c := s.op.toNat + n
    (s.oend.toNat < c →
      ∃ t, exec .dMatchcopy s = .next t ∧ s.keptOutside t s.op.toNat s.oend.toNat ∧
        t = { s with
          cpy := BitVec.ofNat 40 c, result := -s.ip
          status := { s.status with state := .error, errcode := 1#4 }, st := .error, dst := t.dst, draws := t.draws }) ∧
    (c ≤ s.oend.toNat → s.oend.toNat ≤ s.dstSize → 0 ≤ s.ref.toInt → s.ref.toInt ≤ s.op.toNat →
      ∃ t, exec .dMatchcopy s = .next t ∧
        (∀ a, ¬(c + 8 ≤ s.oend.toNat ∧ c ≤ a ∧ a < c + 7) → t.dstAt a =
          if s.op.toNat ≤ a ∧ a < c then s.matchByte s.ref.toInt.toNat s.op.toNat (a - s.op.toNat) else s.dstAt a) ∧
        (c + 8 ≤ s.oend.toNat → t = { s with
          cpy := BitVec.ofNat 40 c, op := BitVec.ofNat 32 c, dst := t.dst, draws := t.draws, st := .dToken }) ∧
        (c < s.oend.toNat → s.oend.toNat < c + 8 → t = { s with
          cpy := BitVec.ofNat 40 c, op := BitVec.ofNat 32 c, dst := t.dst, st := .dToken }) ∧
        (c = s.oend.toNat → t = { s with
          cpy := BitVec.ofNat 40 c, op := BitVec.ofNat 32 c, dst := t.dst
          result := if s.mode = .known then s.ip else BitVec.ofNat 32 c
          status := { s.status with state := .done, lenmis := false }, st := .done }))

/-- R155, R192: the transitions of ENC and of DEC; no other exists. -/
def Obligations.Transitions : Prop :=
  ∀ s t : State, exec s.st.instr s = .next t →
    (s.st.isEnc = true → encEdge s.st t.st = true) ∧ (s.st.isDec = true → decEdge s.st t.st = true)

/-- R193, R61: whatever SRC holds, and however many steps DEC takes from the start of a decompress command, no byte of DST at or above
the output limit of the command changes. -/
def Obligations.DecompressStaysBelowItsLimit : Prop :=
  ∀ (n : Nat) (s t : State), s.sizesOk → s.st = .dInit → s.phaseOk → runDec n s = .next t →
    ∀ a, (if s.cmd = 3#32 then s.expLen.toNat else s.dstCap.toNat) ≤ a → t.dstAt a = s.dstAt a

/-- R193, R184, R188, R285: from a state of DEC whose cursors meet the invariant, the step goes on in it, or stops with a read of SRC outside
SRC or of DST before the output; it never reaches outside DST. Of `ref` the invariant asks, where it is a match source, that it be at most
`op`; D.OFFSET makes it so. -/
def Obligations.DecStopsOnlyOnReads : Prop :=
  ∀ s : State, s.sizesOk → s.phaseOk → s.refOk → s.st.isDec = true →
    (∃ t, exec s.st.instr s = .next t ∧ t.phaseOk ∧ t.refOk) ∨ exec s.st.instr s = .fault .srcRange ∨
      (s.ref.toInt < 0 ∧ exec s.st.instr s = .fault .badRef)

/-! ### The copies -/

/-- R220 to R225: a stride move reads all its bytes and then writes them. -/
def Obligations.StrideMoves : Prop :=
  ∀ (s : State) (k : Nat) (m : Space) (a d : Pos) (i : Instr),
    (k, i) ∈ [(16, .cp16 m a d), (8, .cp8 m a d), (4, .cp4 m a d), (2, .cp2 m a d), (1, Instr.cp1 m a d)] →
    a.toNat + k ≤ s.size m → d.toNat + k ≤ s.dstSize →
    ∃ t, exec i s = .next t ∧ t = { s with dst := t.dst } ∧
      s.wrote t d.toNat (Memory.bytes m (s.mem m) a.toNat k)

/-- R231, R220: a stride move inside DST is the byte-serial match copy whenever the distance is at least the stride; at a smaller
distance it need not be. -/
def Obligations.StrideEqualsByteMoves : Prop :=
  ∀ (s : State) (k : Nat) (a d : Pos) (i : Instr),
    (k, i) ∈ [(16, .cp16 .dst a d), (8, .cp8 .dst a d), (4, .cp4 .dst a d), (2, .cp2 .dst a d), (1, Instr.cp1 .dst a d)] →
    a.toNat + k ≤ d.toNat → d.toNat + k ≤ s.dstSize →
    exec i s = exec (.mcopy (BitVec.ofNat 33 a.toNat) d (BitVec.ofNat 40 k) .exact) s

/-- R226: the stride schedule, pairs of 8 while 16 bytes remain and then 8, 4, 2 and 1, has the effect of the byte loop. -/
def Obligations.ScheduleEqualsExactCopy : Prop :=
  ∀ (s : State) (a d n : Nat), a + n ≤ s.srcSize → d + n ≤ s.dstSize → s.fcpSchedule a d n = s.fcpExact a d n

/-- R226: FCP.EXACT copies exactly `n` bytes of SRC and changes no other byte; it faults where a source byte does not exist. R227,
R228: FCP.WILD copies the same bytes and leaves every byte outside the run and its overrun zone of `(8 - n mod 8) mod 8` addresses as it
was; of the zone nothing is said (log entry 4). -/
def Obligations.LiteralCopies : Prop :=
  ∀ (s : State) (a d : Pos) (n : Len),
    (a.toNat + n.toNat ≤ s.srcSize → d.toNat + n.toNat ≤ s.dstSize →
      ∃ t, exec (.fcpExact a d n) s = .next t ∧ t = { s with dst := t.dst } ∧
        s.wrote t d.toNat (Memory.bytes .src s.src a.toNat n.toNat)) ∧
    (n = 0#40 → exec (.fcpExact a d n) s = .next s) ∧
    (0 < n.toNat → s.srcSize < a.toNat + n.toNat →
      exec (.fcpExact a d n) s = .fault .srcRange ∧ exec (.fcpWild a d n) s = .fault .srcRange) ∧
    (a.toNat + n.toNat ≤ s.srcSize → d.toNat + n.toNat + (8 - n.toNat % 8) % 8 ≤ s.dstSize →
      ∃ t, exec (.fcpWild a d n) s = .next t ∧ t = { s with dst := t.dst, draws := t.draws } ∧
        ∀ c, ¬(d.toNat + n.toNat ≤ c ∧ c < d.toNat + n.toNat + (8 - n.toNat % 8) % 8) → t.dstAt c =
          if d.toNat ≤ c ∧ c < d.toNat + n.toNat then s.srcAt (a.toNat + (c - d.toNat)) else s.dstAt c)

/-- R229, R60, R324: MCOPY copies byte after byte, so that a source `off` bytes back repeats the last `off` bytes; a source before DST
faults; the wild form may leave unspecified bytes in the 7 addresses after the copy (log entry 5). At offset 0 each byte of the copy is what it
was (log entry 26). -/
def Obligations.MatchCopy : Prop :=
  ∀ (s : State) (ref : Ref) (op : Pos) (n : Len),
    (∀ form, ref.toInt < 0 → exec (.mcopy ref op n form) s = .fault .badRef) ∧
    (0 ≤ ref.toInt → ref.toInt + n.toNat ≤ s.dstSize → op.toNat + n.toNat ≤ s.dstSize →
      ∃ t, exec (.mcopy ref op n .exact) s = .next t ∧ t = { s with dst := t.dst } ∧
        ∀ c, t.dstAt c =
          if op.toNat ≤ c ∧ c < op.toNat + n.toNat then s.matchByte ref.toInt.toNat op.toNat (c - op.toNat)
          else s.dstAt c) ∧
    (0 ≤ ref.toInt → ref.toInt + n.toNat ≤ s.dstSize → op.toNat + n.toNat ≤ s.dstSize →
      ∃ t, exec (.mcopy ref op n .wild) s = .next t ∧ t = { s with dst := t.dst, draws := t.draws } ∧
        ∀ c, ¬(op.toNat + n.toNat ≤ c ∧ c < op.toNat + n.toNat + 7) → t.dstAt c =
          if op.toNat ≤ c ∧ c < op.toNat + n.toNat then s.matchByte ref.toInt.toNat op.toNat (c - op.toNat)
          else s.dstAt c)
end

