-- ==== Sys2Proof/Laws/Assoc.lean ====
section
/-! SUPPORT. The laws of association lists, memories and tables: what a read gives after a write, and that every operation keeps
the canonical form. -/

namespace Sys2Proof.Machine

variable {α : Type}

@[simp] theorem Assoc.lookup_nil (a : Nat) : Assoc.lookup ([] : List (Nat × α)) a = none := rfl

theorem Assoc.lookup_cons (k : Nat) (v : α) (m : List (Nat × α)) (a : Nat) :
    Assoc.lookup ((k, v) :: m) a = if a = k then some v else Assoc.lookup m a := rfl

/-- A read after a write. -/
theorem Assoc.lookup_insert (m : List (Nat × α)) (a c : Nat) (b : α) :
    Assoc.lookup (Assoc.insert m a b) c = if c = a then some b else Assoc.lookup m c := by
  induction m with
  | nil => rfl
  | cons e m ih =>
    obtain ⟨k, v⟩ := e
    simp only [Assoc.insert]
    split
    · simp [Assoc.lookup_cons]
    · split
      · next h => subst h; by_cases hc : c = a <;> simp [Assoc.lookup_cons, hc]
      · next h1 h2 =>
        simp only [Assoc.lookup_cons, ih]
        by_cases hc : c = k
        · subst hc; simp [show ¬ c = a by omega]
        · simp [hc]

@[simp] theorem Assoc.lookup_insert_self (m : List (Nat × α)) (a : Nat) (b : α) :
    Assoc.lookup (Assoc.insert m a b) a = some b := by simp [Assoc.lookup_insert]

theorem Assoc.lookup_insert_of_ne (m : List (Nat × α)) {a c : Nat} (b : α) (h : c ≠ a) :
    Assoc.lookup (Assoc.insert m a b) c = Assoc.lookup m c := by simp [Assoc.lookup_insert, h]

/-- A read after an erasure. -/
theorem Assoc.lookup_erase (m : List (Nat × α)) (a c : Nat) :
    Assoc.lookup (Assoc.erase m a) c = if c = a then none else Assoc.lookup m c := by
  induction m with
  | nil => simp [Assoc.erase]
  | cons e m ih =>
    obtain ⟨k, v⟩ := e
    simp only [Assoc.erase, List.filter_cons] at ih ⊢
    by_cases hk : k = a
    · subst hk
      simp only [ne_eq, not_true_eq_false, decide_false, Bool.false_eq_true, if_false, Assoc.lookup_cons, ih]
      by_cases hc : c = k <;> simp [hc]
    · simp only [ne_eq, hk, not_false_eq_true, decide_true, if_true, Assoc.lookup_cons, ih]
      by_cases hc : c = k
      · subst hc; simp [hk]
      · simp [hc]

theorem Assoc.mem_insert {m : List (Nat × α)} {a : Nat} {b : α} {e : Nat × α} (h : e ∈ Assoc.insert m a b) :
    e = (a, b) ∨ e ∈ m := by
  induction m with
  | nil => simpa [Assoc.insert] using h
  | cons f m ih =>
    obtain ⟨k, v⟩ := f
    simp only [Assoc.insert] at h
    split at h
    · simpa using h
    · split at h
      · rcases List.mem_cons.mp h with h | h
        · exact .inl h
        · exact .inr (List.mem_cons_of_mem _ h)
      · rcases List.mem_cons.mp h with h | h
        · exact .inr (h ▸ List.mem_cons_self)
        · exact (ih h).imp id (List.mem_cons_of_mem _)

/-- Keys strictly rising: kept by a write. -/
theorem Assoc.sorted_insert {m : List (Nat × α)} (a : Nat) (b : α) (h : m.Pairwise fun x y => x.1 < y.1) :
    (Assoc.insert m a b).Pairwise fun x y => x.1 < y.1 := by
  induction m with
  | nil => simp [Assoc.insert]
  | cons f m ih =>
    obtain ⟨k, v⟩ := f
    obtain ⟨hk, hm⟩ := List.pairwise_cons.mp h
    simp only [Assoc.insert]
    split
    · next hlt =>
      refine List.pairwise_cons.mpr ⟨fun e he => ?_, h⟩
      rcases List.mem_cons.mp he with rfl | he
      · exact hlt
      · exact Nat.lt_trans hlt (hk e he)
    · split
      · next heq => subst heq; exact List.pairwise_cons.mpr ⟨hk, hm⟩
      · next h1 h2 =>
        refine List.pairwise_cons.mpr ⟨fun e he => ?_, ih hm⟩
        rcases Assoc.mem_insert he with rfl | he
        · exact Nat.lt_of_le_of_ne (Nat.le_of_not_lt h1) (Ne.symm h2)
        · exact hk e he

theorem Assoc.sorted_erase {m : List (Nat × α)} (a : Nat) (h : m.Pairwise fun x y => x.1 < y.1) :
    (Assoc.erase m a).Pairwise fun x y => x.1 < y.1 := h.filter _

theorem Assoc.mem_erase {m : List (Nat × α)} {a : Nat} {e : Nat × α} (h : e ∈ Assoc.erase m a) : e ∈ m :=
  (List.mem_filter.mp h).1

/-! ### Memories -/

@[simp] theorem Memory.wf_nil : Memory.wf [] := List.Pairwise.nil

theorem Memory.byte_insert (sp : Space) (m : Memory) (a c : Nat) (b : Byte) :
    Memory.byte sp (Assoc.insert m a b) c = if c = a then b else Memory.byte sp m c := by
  unfold Memory.byte
  rw [Assoc.lookup_insert]
  split <;> rfl

theorem Memory.insert_wf {m : Memory} (a : Nat) (b : Byte) (h : m.wf) : Memory.wf (Assoc.insert m a b) :=
  Assoc.sorted_insert a b h

@[simp] theorem Memory.store_nil (m : Memory) (a : Nat) : Memory.store m a [] = m := rfl

@[simp] theorem Memory.store_cons (m : Memory) (a : Nat) (b : Byte) (bs : List Byte) :
    Memory.store m a (b :: bs) = Memory.store (Assoc.insert m a b) (a + 1) bs := rfl

theorem Memory.store_wf {m : Memory} (a : Nat) (bs : List Byte) (h : m.wf) : Memory.wf (Memory.store m a bs) := by
  induction bs generalizing m a with
  | nil => exact h
  | cons b bs ih => exact ih (a + 1) (Memory.insert_wf a b h)

/-- A read after a store of consecutive bytes. -/
theorem Memory.byte_store (sp : Space) (m : Memory) (a c : Nat) (bs : List Byte) :
    Memory.byte sp (Memory.store m a bs) c =
      if h : a ≤ c ∧ c < a + bs.length then bs[c - a]'(by omega) else Memory.byte sp m c := by
  induction bs generalizing m a with
  | nil => simp
  | cons b bs ih =>
    simp only [Memory.store_cons, ih, List.length_cons]
    by_cases h1 : a + 1 ≤ c ∧ c < a + 1 + bs.length
    · rw [dif_pos h1, dif_pos (by omega)]
      obtain ⟨j, hj⟩ : ∃ j, c - a = j + 1 := ⟨c - a - 1, by omega⟩
      have : c - (a + 1) = j := by omega
      simp [hj, this]
    · rw [dif_neg h1, Memory.byte_insert]
      by_cases h2 : c = a
      · subst h2; simp
      · rw [if_neg h2, dif_neg (by omega)]

theorem Memory.byte_store_outside (sp : Space) (m : Memory) {a c : Nat} {bs : List Byte}
    (h : c < a ∨ a + bs.length ≤ c) : Memory.byte sp (Memory.store m a bs) c = Memory.byte sp m c := by
  rw [Memory.byte_store, dif_neg (by omega)]

theorem Memory.store_append (m : Memory) (a : Nat) (bs cs : List Byte) :
    Memory.store m a (bs ++ cs) = Memory.store (Memory.store m a bs) (a + bs.length) cs := by
  induction bs generalizing m a with
  | nil => simp
  | cons b bs ih => simp [ih, Nat.add_assoc, Nat.add_comm 1]

/-- A store lists no address outside the stored range. -/
theorem Memory.mem_store {m : Memory} {a : Nat} {bs : List Byte} {e : Host.Cell} (h : e ∈ Memory.store m a bs) :
    e ∈ m ∨ (a ≤ e.1 ∧ e.1 < a + bs.length) := by
  induction bs generalizing m a with
  | nil => exact .inl h
  | cons b bs ih =>
    rcases ih h with h | h
    · rcases Assoc.mem_insert h with rfl | h
      · exact .inr ⟨Nat.le_refl _, by simp⟩
      · exact .inl h
    · exact .inr ⟨by omega, by simp only [List.length_cons]; omega⟩

@[simp] theorem Memory.bytes_length (sp : Space) (m : Memory) (a n : Nat) : (Memory.bytes sp m a n).length = n := by
  induction n generalizing a with
  | zero => rfl
  | succ n ih => simp [Memory.bytes, ih]

theorem Memory.bytes_get (sp : Space) (m : Memory) (a n i : Nat) (h : i < (Memory.bytes sp m a n).length) :
    (Memory.bytes sp m a n)[i] = Memory.byte sp m (a + i) := by
  induction n generalizing a i with
  | zero => simp [Memory.bytes] at h
  | succ n ih =>
    cases i with
    | zero => rfl
    | succ i => simp only [Memory.bytes, List.getElem_cons_succ, ih]; congr 1; omega

theorem Memory.bytes_add (sp : Space) (m : Memory) (a n k : Nat) :
    Memory.bytes sp m a (n + k) = Memory.bytes sp m a n ++ Memory.bytes sp m (a + n) k := by
  induction n generalizing a with
  | zero => simp [Memory.bytes]
  | succ n ih => rw [Nat.add_right_comm]; simp [Memory.bytes, ih, Nat.add_assoc, Nat.add_comm 1]

/-- A read of a range that a store does not touch. -/
theorem Memory.bytes_store_outside (sp : Space) (m : Memory) {a c n : Nat} {bs : List Byte}
    (h : c + n ≤ a ∨ a + bs.length ≤ c) : Memory.bytes sp (Memory.store m a bs) c n = Memory.bytes sp m c n := by
  induction n generalizing c with
  | zero => rfl
  | succ n ih => simp only [Memory.bytes]; rw [ih (by omega), Memory.byte_store_outside sp m (by omega)]

theorem Memory.copyUp_wf {sp : Space} {m : Memory} (r d n : Nat) (h : m.wf) : Memory.wf (Memory.copyUp sp m r d n) := by
  induction n generalizing m r d with
  | zero => exact h
  | succ n ih => exact ih _ _ (Memory.insert_wf d _ h)

/-- The match copy leaves every byte outside its destination alone. -/
theorem Memory.byte_copyUp_outside (sp : Space) (m : Memory) {r d n c : Nat} (h : c < d ∨ d + n ≤ c) :
    Memory.byte sp (Memory.copyUp sp m r d n) c = Memory.byte sp m c := by
  induction n generalizing m r d with
  | zero => rfl
  | succ n ih => rw [Memory.copyUp, ih _ (by omega), Memory.byte_insert, if_neg (by omega)]

/-- Byte `i` of a match copy whose source lies at or below its destination is byte `i` of the source, as the copy left it. -/
theorem Memory.byte_copyUp (sp : Space) (m : Memory) {r d n i : Nat} (hr : r ≤ d) (hi : i < n) :
    Memory.byte sp (Memory.copyUp sp m r d n) (d + i) = Memory.byte sp (Memory.copyUp sp m r d n) (r + i) := by
  induction n generalizing m r d i with
  | zero => omega
  | succ n ih =>
    simp only [Memory.copyUp]
    cases i with
    | zero =>
      rw [Memory.byte_copyUp_outside sp _ (by omega), Memory.byte_copyUp_outside sp _ (by omega)]
      simp only [Nat.add_zero, Memory.byte_insert, if_pos]
      split <;> rfl
    | succ i =>
      have h := ih (Assoc.insert m d (Memory.byte sp m r)) (r := r + 1) (d := d + 1) (i := i) (by omega) (by omega)
      rw [show d + (i + 1) = d + 1 + i by omega, show r + (i + 1) = r + 1 + i by omega]
      exact h

theorem Memory.mem_copyUp {sp : Space} {m : Memory} {r d n : Nat} {e : Host.Cell}
    (h : e ∈ Memory.copyUp sp m r d n) : e ∈ m ∨ (d ≤ e.1 ∧ e.1 < d + n) := by
  induction n generalizing m r d with
  | zero => exact .inl h
  | succ n ih =>
    rcases ih h with h | h
    · rcases Assoc.mem_insert h with rfl | h
      · exact .inr ⟨Nat.le_refl _, by omega⟩
      · exact .inl h
    · exact .inr (by omega)

theorem Memory.copyUp_add (sp : Space) (m : Memory) (r d n k : Nat) :
    Memory.copyUp sp m r d (n + k) = Memory.copyUp sp (Memory.copyUp sp m r d n) (r + n) (d + n) k := by
  induction n generalizing m r d with
  | zero => simp [Memory.copyUp]
  | succ n ih => rw [Nat.add_right_comm]; simp [Memory.copyUp, ih, Nat.add_assoc, Nat.add_comm 1]

/-! ### Drawn bytes -/

theorem lookup_filter_fst (m : Memory) (p : Nat → Bool) (c : Nat) :
    Assoc.lookup (m.filter fun e => p e.1) c = if p c then Assoc.lookup m c else none := by
  induction m with
  | nil => simp
  | cons e m ih =>
    obtain ⟨k, v⟩ := e
    rw [Assoc.lookup_cons, List.filter_cons]
    by_cases hk : c = k
    · subst hk
      by_cases hp : p c
      · simp [hp, Assoc.lookup_cons]
      · simp only [hp, Bool.false_eq_true, if_false] at ih ⊢
        exact ih
    · rw [if_neg hk, ← ih]
      split
      · rw [Assoc.lookup_cons, if_neg hk]
      · rfl

theorem lookup_append (m q : Memory) (c : Nat) :
    Assoc.lookup (m ++ q) c = (Assoc.lookup m c).or (Assoc.lookup q c) := by
  induction m with
  | nil => rfl
  | cons e m ih =>
    obtain ⟨k, v⟩ := e
    rw [List.cons_append, Assoc.lookup_cons, Assoc.lookup_cons]
    split
    · rfl
    · exact ih

theorem lookup_drawCells (k a n c : Nat) :
    Assoc.lookup (drawCells k a n) c = if a ≤ c ∧ c < a + n then some (Config.drawByte (k + (c - a))) else none := by
  induction n generalizing k a with
  | zero => rw [if_neg (by omega)]; rfl
  | succ n ih =>
    rw [drawCells, Assoc.lookup_cons]
    split
    · next h => rw [if_pos (by omega), h, Nat.sub_self, Nat.add_zero]
    · next h =>
      rw [ih]
      by_cases hc : a + 1 ≤ c ∧ c < a + 1 + n
      · rw [if_pos hc, if_pos (by omega), show k + 1 + (c - (a + 1)) = k + (c - a) by omega]
      · rw [if_neg hc, if_neg (by omega)]

/-- What every byte reads as once `n` of them have been drawn anew. -/
theorem Memory.byte_redraw (sp : Space) (m : Memory) (k a n c : Nat) :
    Memory.byte sp (Memory.redraw m k a n) c =
      if a ≤ c ∧ c < a + n then Config.drawByte (k + (c - a)) else Memory.byte sp m c := by
  rw [Memory.byte, Memory.redraw, lookup_append, lookup_append, lookup_drawCells,
    lookup_filter_fst m (fun i => decide (i < a)), lookup_filter_fst m (fun i => decide (a + n ≤ i))]
  by_cases h : a ≤ c ∧ c < a + n
  · rw [if_pos h, if_pos h, if_neg (by simp; omega)]
    rfl
  · rw [if_neg h, if_neg h, Memory.byte]
    rcases Nat.lt_or_ge c a with h1 | h1
    · rw [if_pos (by simpa using h1), if_neg (by simp; omega)]
      simp
    · rw [if_neg (by simp; omega), if_pos (by simp; omega)]
      simp

theorem mem_drawCells {k a n : Nat} {e : Host.Cell} (h : e ∈ drawCells k a n) : a ≤ e.1 ∧ e.1 < a + n := by
  induction n generalizing k a with
  | zero => cases h
  | succ n ih =>
    rcases List.mem_cons.mp h with rfl | h
    · exact ⟨Nat.le_refl _, by dsimp only; omega⟩
    · have := ih h
      omega

theorem Memory.mem_redraw {m : Memory} {k a n : Nat} {e : Host.Cell} (h : e ∈ Memory.redraw m k a n) :
    e ∈ m ∨ (a ≤ e.1 ∧ e.1 < a + n) := by
  rw [Memory.redraw, List.mem_append, List.mem_append] at h
  rcases h with (h | h) | h
  · exact .inl (List.mem_filter.mp h).1
  · exact .inr (mem_drawCells h)
  · exact .inl (List.mem_filter.mp h).1

theorem Memory.redraw_wf {m : Memory} (k a n : Nat) (h : m.wf) : Memory.wf (Memory.redraw m k a n) := by
  have hd : ∀ k a, (drawCells k a n).Pairwise fun x y => x.1 < y.1 := by
    induction n with
    | zero => exact fun _ _ => List.Pairwise.nil
    | succ n ih => exact fun k a => List.pairwise_cons.mpr ⟨fun e he => (mem_drawCells he).1, ih _ _⟩
  refine List.pairwise_append.mpr ⟨List.pairwise_append.mpr ⟨h.filter _, hd k a, ?_⟩, h.filter _, ?_⟩
  · intro x hx y hy
    have h1 : x.1 < a := by simpa using (List.mem_filter.mp hx).2
    exact Nat.lt_of_lt_of_le h1 (mem_drawCells hy).1
  · intro x hx y hy
    have h2 : a + n ≤ y.1 := by simpa using (List.mem_filter.mp hy).2
    rcases List.mem_append.mp hx with hx | hx
    · have h1 : x.1 < a := by simpa using (List.mem_filter.mp hx).2
      omega
    · exact Nat.lt_of_lt_of_le (mem_drawCells hx).2 h2

/-! ### Little-endian values -/

@[simp] theorem leBytes_length (n v : Nat) : (leBytes n v).length = n := by
  induction n generalizing v with
  | zero => rfl
  | succ n ih => simp [leBytes, ih]

theorem leValue_leBytes (n v : Nat) : leValue (leBytes n v) = v % 256 ^ n := by
  induction n generalizing v with
  | zero => simp [leBytes, leValue, Nat.mod_one]
  | succ n ih =>
    simp only [leBytes, leValue, ih, BitVec.toNat_ofNat]
    rw [show (256 : Nat) ^ (n + 1) = 256 * 256 ^ n by rw [Nat.pow_succ, Nat.mul_comm], Nat.mod_mul]

theorem leValue_lt (bs : List Byte) : leValue bs < 256 ^ bs.length := by
  induction bs with
  | nil => simp [leValue]
  | cons b bs ih =>
    simp only [leValue, List.length_cons, Nat.pow_succ]
    have := b.isLt
    omega

/-! ### Tables -/

@[simp] theorem Table.get_nil {w : Nat} (i : Nat) : Table.get ([] : Table w) i = 0#w := rfl

/-- R126: a lookup returns the most recent insert into its bucket. -/
theorem Table.get_set {w : Nat} (t : Table w) (i j : Nat) (v : BitVec w) :
    Table.get (Table.set t i v) j = if j = i then v else Table.get t j := by
  unfold Table.get Table.set
  split
  · next h => rw [Assoc.lookup_erase]; split <;> simp [h]
  · rw [Assoc.lookup_insert]; split <;> rfl

theorem Table.wf_nil {w : Nat} : Table.wf ([] : Table w) := ⟨List.Pairwise.nil, by simp⟩

theorem Table.set_wf {w : Nat} {t : Table w} (i : Nat) (v : BitVec w) (h : t.wf) : Table.wf (Table.set t i v) := by
  unfold Table.set
  split
  · exact ⟨Assoc.sorted_erase i h.1, fun e he => h.2 e (Assoc.mem_erase he)⟩
  · next hv =>
    refine ⟨Assoc.sorted_insert i v h.1, fun e he => ?_⟩
    rcases Assoc.mem_insert he with rfl | he
    · exact hv
    · exact h.2 e he

theorem Table.mem_set {w : Nat} {t : Table w} {i : Nat} {v : BitVec w} {e : Nat × BitVec w} (h : e ∈ Table.set t i v) :
    e ∈ t ∨ e.1 = i := by
  unfold Table.set at h
  split at h
  · exact .inl (Assoc.mem_erase h)
  · rcases Assoc.mem_insert h with rfl | h
    · exact .inr rfl
    · exact .inl h

end Sys2Proof.Machine
end

