-- ==== Sys2Proof/Laws/State.lean ====
section
/-! SUPPORT. Every named update of the state, field by field: one lemma a field, so that no later proof unfolds a record update. -/

namespace Sys2Proof.Machine

variable (s : State)

@[simp] theorem State.startCommand_srcSize (code : Word) (x : St) : (s.startCommand code x).srcSize = s.srcSize := rfl
@[simp] theorem State.startCommand_dstSize (code : Word) (x : St) : (s.startCommand code x).dstSize = s.dstSize := rfl
@[simp] theorem State.startCommand_ip (code : Word) (x : St) : (s.startCommand code x).ip = s.ip := rfl
@[simp] theorem State.startCommand_op (code : Word) (x : St) : (s.startCommand code x).op = s.op := rfl
@[simp] theorem State.startCommand_anchor (code : Word) (x : St) : (s.startCommand code x).anchor = s.anchor := rfl
@[simp] theorem State.startCommand_ref (code : Word) (x : St) : (s.startCommand code x).ref = s.ref := rfl
@[simp] theorem State.startCommand_fwd (code : Word) (x : St) : (s.startCommand code x).fwd = s.fwd := rfl
@[simp] theorem State.startCommand_attempts (code : Word) (x : St) : (s.startCommand code x).attempts = s.attempts := rfl
@[simp] theorem State.startCommand_h (code : Word) (x : St) : (s.startCommand code x).h = s.h := rfl
@[simp] theorem State.startCommand_tokpos (code : Word) (x : St) : (s.startCommand code x).tokpos = s.tokpos := rfl
@[simp] theorem State.startCommand_mstart (code : Word) (x : St) : (s.startCommand code x).mstart = s.mstart := rfl
@[simp] theorem State.startCommand_iend (code : Word) (x : St) : (s.startCommand code x).iend = s.iend := rfl
@[simp] theorem State.startCommand_mflimit (code : Word) (x : St) : (s.startCommand code x).mflimit = s.mflimit := rfl
@[simp] theorem State.startCommand_matchlimit (code : Word) (x : St) : (s.startCommand code x).matchlimit = s.matchlimit := rfl
@[simp] theorem State.startCommand_oend (code : Word) (x : St) : (s.startCommand code x).oend = s.oend := rfl
@[simp] theorem State.startCommand_tok (code : Word) (x : St) : (s.startCommand code x).tok = s.tok := rfl
@[simp] theorem State.startCommand_ll (code : Word) (x : St) : (s.startCommand code x).ll = s.ll := rfl
@[simp] theorem State.startCommand_ml (code : Word) (x : St) : (s.startCommand code x).ml = s.ml := rfl
@[simp] theorem State.startCommand_len (code : Word) (x : St) : (s.startCommand code x).len = s.len := rfl
@[simp] theorem State.startCommand_cpy (code : Word) (x : St) : (s.startCommand code x).cpy = s.cpy := rfl
@[simp] theorem State.startCommand_off (code : Word) (x : St) : (s.startCommand code x).off = s.off := rfl
@[simp] theorem State.startCommand_mode (code : Word) (x : St) : (s.startCommand code x).mode = s.mode := rfl
@[simp] theorem State.startCommand_variant (code : Word) (x : St) : (s.startCommand code x).variant = s.variant := rfl
@[simp] theorem State.startCommand_st (code : Word) (x : St) : (s.startCommand code x).st = x := rfl
@[simp] theorem State.startCommand_cmd (code : Word) (x : St) : (s.startCommand code x).cmd = code := rfl
@[simp] theorem State.startCommand_status (code : Word) (x : St) : (s.startCommand code x).status = s.status.start (decide (code = cmdCompress)) := rfl
@[simp] theorem State.startCommand_srcLen (code : Word) (x : St) : (s.startCommand code x).srcLen = s.srcLen := rfl
@[simp] theorem State.startCommand_dstCap (code : Word) (x : St) : (s.startCommand code x).dstCap = s.dstCap := rfl
@[simp] theorem State.startCommand_expLen (code : Word) (x : St) : (s.startCommand code x).expLen = s.expLen := rfl
@[simp] theorem State.startCommand_result (code : Word) (x : St) : (s.startCommand code x).result = s.result := rfl
@[simp] theorem State.startCommand_htW (code : Word) (x : St) : (s.startCommand code x).htW = s.htW := rfl
@[simp] theorem State.startCommand_htN (code : Word) (x : St) : (s.startCommand code x).htN = s.htN := rfl
@[simp] theorem State.startCommand_src (code : Word) (x : St) : (s.startCommand code x).src = s.src := rfl
@[simp] theorem State.startCommand_dst (code : Word) (x : St) : (s.startCommand code x).dst = s.dst := rfl
@[simp] theorem State.startCommand_draws (code : Word) (x : St) : (s.startCommand code x).draws = s.draws := rfl
@[simp] theorem State.startCommand_more (code : Word) (x : St) : (s.startCommand code x).more = s.more := rfl
@[simp] theorem State.startCommand_accepted (code : Word) (x : St) : (s.startCommand code x).accepted = s.accepted := rfl
@[simp] theorem State.startCommand_invoke (code : Word) (x : St) : (s.startCommand code x).invoke = s.invoke := rfl
@[simp] theorem State.startCommand_host (code : Word) (x : St) : (s.startCommand code x).host = s.host := rfl
@[simp] theorem State.startCommand_hostData (code : Word) (x : St) : (s.startCommand code x).hostData = s.hostData := rfl

@[simp] theorem State.endMaxlen_srcSize : (s.endMaxlen).srcSize = s.srcSize := rfl
@[simp] theorem State.endMaxlen_dstSize : (s.endMaxlen).dstSize = s.dstSize := rfl
@[simp] theorem State.endMaxlen_ip : (s.endMaxlen).ip = s.ip := rfl
@[simp] theorem State.endMaxlen_op : (s.endMaxlen).op = s.op := rfl
@[simp] theorem State.endMaxlen_anchor : (s.endMaxlen).anchor = s.anchor := rfl
@[simp] theorem State.endMaxlen_ref : (s.endMaxlen).ref = s.ref := rfl
@[simp] theorem State.endMaxlen_fwd : (s.endMaxlen).fwd = s.fwd := rfl
@[simp] theorem State.endMaxlen_attempts : (s.endMaxlen).attempts = s.attempts := rfl
@[simp] theorem State.endMaxlen_h : (s.endMaxlen).h = s.h := rfl
@[simp] theorem State.endMaxlen_tokpos : (s.endMaxlen).tokpos = s.tokpos := rfl
@[simp] theorem State.endMaxlen_mstart : (s.endMaxlen).mstart = s.mstart := rfl
@[simp] theorem State.endMaxlen_iend : (s.endMaxlen).iend = s.iend := rfl
@[simp] theorem State.endMaxlen_mflimit : (s.endMaxlen).mflimit = s.mflimit := rfl
@[simp] theorem State.endMaxlen_matchlimit : (s.endMaxlen).matchlimit = s.matchlimit := rfl
@[simp] theorem State.endMaxlen_oend : (s.endMaxlen).oend = s.oend := rfl
@[simp] theorem State.endMaxlen_tok : (s.endMaxlen).tok = s.tok := rfl
@[simp] theorem State.endMaxlen_ll : (s.endMaxlen).ll = s.ll := rfl
@[simp] theorem State.endMaxlen_ml : (s.endMaxlen).ml = s.ml := rfl
@[simp] theorem State.endMaxlen_len : (s.endMaxlen).len = s.len := rfl
@[simp] theorem State.endMaxlen_cpy : (s.endMaxlen).cpy = s.cpy := rfl
@[simp] theorem State.endMaxlen_off : (s.endMaxlen).off = s.off := rfl
@[simp] theorem State.endMaxlen_mode : (s.endMaxlen).mode = s.mode := rfl
@[simp] theorem State.endMaxlen_variant : (s.endMaxlen).variant = s.variant := rfl
@[simp] theorem State.endMaxlen_st : (s.endMaxlen).st = .done := rfl
@[simp] theorem State.endMaxlen_cmd : (s.endMaxlen).cmd = s.cmd := rfl
@[simp] theorem State.endMaxlen_status : (s.endMaxlen).status = s.status.finish := rfl
@[simp] theorem State.endMaxlen_srcLen : (s.endMaxlen).srcLen = s.srcLen := rfl
@[simp] theorem State.endMaxlen_dstCap : (s.endMaxlen).dstCap = s.dstCap := rfl
@[simp] theorem State.endMaxlen_expLen : (s.endMaxlen).expLen = s.expLen := rfl
@[simp] theorem State.endMaxlen_result : (s.endMaxlen).result = BitVec.ofNat 32 (maxCompressed s.srcLen.toNat) := rfl
@[simp] theorem State.endMaxlen_htW : (s.endMaxlen).htW = s.htW := rfl
@[simp] theorem State.endMaxlen_htN : (s.endMaxlen).htN = s.htN := rfl
@[simp] theorem State.endMaxlen_src : (s.endMaxlen).src = s.src := rfl
@[simp] theorem State.endMaxlen_dst : (s.endMaxlen).dst = s.dst := rfl
@[simp] theorem State.endMaxlen_draws : (s.endMaxlen).draws = s.draws := rfl
@[simp] theorem State.endMaxlen_more : (s.endMaxlen).more = s.more := rfl
@[simp] theorem State.endMaxlen_accepted : (s.endMaxlen).accepted = s.accepted := rfl
@[simp] theorem State.endMaxlen_invoke : (s.endMaxlen).invoke = s.invoke := rfl
@[simp] theorem State.endMaxlen_host : (s.endMaxlen).host = s.host := rfl
@[simp] theorem State.endMaxlen_hostData : (s.endMaxlen).hostData = s.hostData := rfl

@[simp] theorem State.endEnc_srcSize : (s.endEnc).srcSize = s.srcSize := rfl
@[simp] theorem State.endEnc_dstSize : (s.endEnc).dstSize = s.dstSize := rfl
@[simp] theorem State.endEnc_ip : (s.endEnc).ip = s.ip := rfl
@[simp] theorem State.endEnc_op : (s.endEnc).op = s.op := rfl
@[simp] theorem State.endEnc_anchor : (s.endEnc).anchor = s.anchor := rfl
@[simp] theorem State.endEnc_ref : (s.endEnc).ref = s.ref := rfl
@[simp] theorem State.endEnc_fwd : (s.endEnc).fwd = s.fwd := rfl
@[simp] theorem State.endEnc_attempts : (s.endEnc).attempts = s.attempts := rfl
@[simp] theorem State.endEnc_h : (s.endEnc).h = s.h := rfl
@[simp] theorem State.endEnc_tokpos : (s.endEnc).tokpos = s.tokpos := rfl
@[simp] theorem State.endEnc_mstart : (s.endEnc).mstart = s.mstart := rfl
@[simp] theorem State.endEnc_iend : (s.endEnc).iend = s.iend := rfl
@[simp] theorem State.endEnc_mflimit : (s.endEnc).mflimit = s.mflimit := rfl
@[simp] theorem State.endEnc_matchlimit : (s.endEnc).matchlimit = s.matchlimit := rfl
@[simp] theorem State.endEnc_oend : (s.endEnc).oend = s.oend := rfl
@[simp] theorem State.endEnc_tok : (s.endEnc).tok = s.tok := rfl
@[simp] theorem State.endEnc_ll : (s.endEnc).ll = s.ll := rfl
@[simp] theorem State.endEnc_ml : (s.endEnc).ml = s.ml := rfl
@[simp] theorem State.endEnc_len : (s.endEnc).len = s.len := rfl
@[simp] theorem State.endEnc_cpy : (s.endEnc).cpy = s.cpy := rfl
@[simp] theorem State.endEnc_off : (s.endEnc).off = s.off := rfl
@[simp] theorem State.endEnc_mode : (s.endEnc).mode = s.mode := rfl
@[simp] theorem State.endEnc_variant : (s.endEnc).variant = s.variant := rfl
@[simp] theorem State.endEnc_st : (s.endEnc).st = .done := rfl
@[simp] theorem State.endEnc_cmd : (s.endEnc).cmd = s.cmd := rfl
@[simp] theorem State.endEnc_status : (s.endEnc).status = s.status.finish := rfl
@[simp] theorem State.endEnc_srcLen : (s.endEnc).srcLen = s.srcLen := rfl
@[simp] theorem State.endEnc_dstCap : (s.endEnc).dstCap = s.dstCap := rfl
@[simp] theorem State.endEnc_expLen : (s.endEnc).expLen = s.expLen := rfl
@[simp] theorem State.endEnc_result : (s.endEnc).result = s.op := rfl
@[simp] theorem State.endEnc_htW : (s.endEnc).htW = s.htW := rfl
@[simp] theorem State.endEnc_htN : (s.endEnc).htN = s.htN := rfl
@[simp] theorem State.endEnc_src : (s.endEnc).src = s.src := rfl
@[simp] theorem State.endEnc_dst : (s.endEnc).dst = s.dst := rfl
@[simp] theorem State.endEnc_draws : (s.endEnc).draws = s.draws := rfl
@[simp] theorem State.endEnc_more : (s.endEnc).more = s.more := rfl
@[simp] theorem State.endEnc_accepted : (s.endEnc).accepted = s.accepted := rfl
@[simp] theorem State.endEnc_invoke : (s.endEnc).invoke = s.invoke := rfl
@[simp] theorem State.endEnc_host : (s.endEnc).host = s.host := rfl
@[simp] theorem State.endEnc_hostData : (s.endEnc).hostData = s.hostData := rfl

@[simp] theorem State.loseTail_srcSize : s.loseTail.srcSize = s.srcSize := by unfold State.loseTail; split <;> rfl
@[simp] theorem State.loseTail_dstSize : s.loseTail.dstSize = s.dstSize := by unfold State.loseTail; split <;> rfl
@[simp] theorem State.loseTail_ip : s.loseTail.ip = s.ip := by unfold State.loseTail; split <;> rfl
@[simp] theorem State.loseTail_op : s.loseTail.op = s.op := by unfold State.loseTail; split <;> rfl
@[simp] theorem State.loseTail_anchor : s.loseTail.anchor = s.anchor := by unfold State.loseTail; split <;> rfl
@[simp] theorem State.loseTail_ref : s.loseTail.ref = s.ref := by unfold State.loseTail; split <;> rfl
@[simp] theorem State.loseTail_fwd : s.loseTail.fwd = s.fwd := by unfold State.loseTail; split <;> rfl
@[simp] theorem State.loseTail_attempts : s.loseTail.attempts = s.attempts := by unfold State.loseTail; split <;> rfl
@[simp] theorem State.loseTail_h : s.loseTail.h = s.h := by unfold State.loseTail; split <;> rfl
@[simp] theorem State.loseTail_tokpos : s.loseTail.tokpos = s.tokpos := by unfold State.loseTail; split <;> rfl
@[simp] theorem State.loseTail_mstart : s.loseTail.mstart = s.mstart := by unfold State.loseTail; split <;> rfl
@[simp] theorem State.loseTail_iend : s.loseTail.iend = s.iend := by unfold State.loseTail; split <;> rfl
@[simp] theorem State.loseTail_mflimit : s.loseTail.mflimit = s.mflimit := by unfold State.loseTail; split <;> rfl
@[simp] theorem State.loseTail_matchlimit : s.loseTail.matchlimit = s.matchlimit := by unfold State.loseTail; split <;> rfl
@[simp] theorem State.loseTail_oend : s.loseTail.oend = s.oend := by unfold State.loseTail; split <;> rfl
@[simp] theorem State.loseTail_tok : s.loseTail.tok = s.tok := by unfold State.loseTail; split <;> rfl
@[simp] theorem State.loseTail_ll : s.loseTail.ll = s.ll := by unfold State.loseTail; split <;> rfl
@[simp] theorem State.loseTail_ml : s.loseTail.ml = s.ml := by unfold State.loseTail; split <;> rfl
@[simp] theorem State.loseTail_len : s.loseTail.len = s.len := by unfold State.loseTail; split <;> rfl
@[simp] theorem State.loseTail_cpy : s.loseTail.cpy = s.cpy := by unfold State.loseTail; split <;> rfl
@[simp] theorem State.loseTail_off : s.loseTail.off = s.off := by unfold State.loseTail; split <;> rfl
@[simp] theorem State.loseTail_mode : s.loseTail.mode = s.mode := by unfold State.loseTail; split <;> rfl
@[simp] theorem State.loseTail_variant : s.loseTail.variant = s.variant := by unfold State.loseTail; split <;> rfl
@[simp] theorem State.loseTail_st : s.loseTail.st = s.st := by unfold State.loseTail; split <;> rfl
@[simp] theorem State.loseTail_cmd : s.loseTail.cmd = s.cmd := by unfold State.loseTail; split <;> rfl
@[simp] theorem State.loseTail_status : s.loseTail.status = s.status := by unfold State.loseTail; split <;> rfl
@[simp] theorem State.loseTail_srcLen : s.loseTail.srcLen = s.srcLen := by unfold State.loseTail; split <;> rfl
@[simp] theorem State.loseTail_dstCap : s.loseTail.dstCap = s.dstCap := by unfold State.loseTail; split <;> rfl
@[simp] theorem State.loseTail_expLen : s.loseTail.expLen = s.expLen := by unfold State.loseTail; split <;> rfl
@[simp] theorem State.loseTail_result : s.loseTail.result = s.result := by unfold State.loseTail; split <;> rfl
@[simp] theorem State.loseTail_htW : s.loseTail.htW = s.htW := by unfold State.loseTail; split <;> rfl
@[simp] theorem State.loseTail_htN : s.loseTail.htN = s.htN := by unfold State.loseTail; split <;> rfl
@[simp] theorem State.loseTail_src : s.loseTail.src = s.src := by unfold State.loseTail; split <;> rfl
@[simp] theorem State.loseTail_more : s.loseTail.more = s.more := by unfold State.loseTail; split <;> rfl
@[simp] theorem State.loseTail_accepted : s.loseTail.accepted = s.accepted := by unfold State.loseTail; split <;> rfl
@[simp] theorem State.loseTail_invoke : s.loseTail.invoke = s.invoke := by unfold State.loseTail; split <;> rfl
@[simp] theorem State.loseTail_host : s.loseTail.host = s.host := by unfold State.loseTail; split <;> rfl
@[simp] theorem State.loseTail_hostData : s.loseTail.hostData = s.hostData := by unfold State.loseTail; split <;> rfl

@[simp] theorem State.endDec_srcSize : (s.endDec).srcSize = s.srcSize := State.loseTail_srcSize s
@[simp] theorem State.endDec_dstSize : (s.endDec).dstSize = s.dstSize := State.loseTail_dstSize s
@[simp] theorem State.endDec_ip : (s.endDec).ip = s.ip := State.loseTail_ip s
@[simp] theorem State.endDec_op : (s.endDec).op = s.op := State.loseTail_op s
@[simp] theorem State.endDec_anchor : (s.endDec).anchor = s.anchor := State.loseTail_anchor s
@[simp] theorem State.endDec_ref : (s.endDec).ref = s.ref := State.loseTail_ref s
@[simp] theorem State.endDec_fwd : (s.endDec).fwd = s.fwd := State.loseTail_fwd s
@[simp] theorem State.endDec_attempts : (s.endDec).attempts = s.attempts := State.loseTail_attempts s
@[simp] theorem State.endDec_h : (s.endDec).h = s.h := State.loseTail_h s
@[simp] theorem State.endDec_tokpos : (s.endDec).tokpos = s.tokpos := State.loseTail_tokpos s
@[simp] theorem State.endDec_mstart : (s.endDec).mstart = s.mstart := State.loseTail_mstart s
@[simp] theorem State.endDec_iend : (s.endDec).iend = s.iend := State.loseTail_iend s
@[simp] theorem State.endDec_mflimit : (s.endDec).mflimit = s.mflimit := State.loseTail_mflimit s
@[simp] theorem State.endDec_matchlimit : (s.endDec).matchlimit = s.matchlimit := State.loseTail_matchlimit s
@[simp] theorem State.endDec_oend : (s.endDec).oend = s.oend := State.loseTail_oend s
@[simp] theorem State.endDec_tok : (s.endDec).tok = s.tok := State.loseTail_tok s
@[simp] theorem State.endDec_ll : (s.endDec).ll = s.ll := State.loseTail_ll s
@[simp] theorem State.endDec_ml : (s.endDec).ml = s.ml := State.loseTail_ml s
@[simp] theorem State.endDec_len : (s.endDec).len = s.len := State.loseTail_len s
@[simp] theorem State.endDec_cpy : (s.endDec).cpy = s.cpy := State.loseTail_cpy s
@[simp] theorem State.endDec_off : (s.endDec).off = s.off := State.loseTail_off s
@[simp] theorem State.endDec_mode : (s.endDec).mode = s.mode := State.loseTail_mode s
@[simp] theorem State.endDec_variant : (s.endDec).variant = s.variant := State.loseTail_variant s
@[simp] theorem State.endDec_st : (s.endDec).st = .done := rfl
@[simp] theorem State.endDec_cmd : (s.endDec).cmd = s.cmd := State.loseTail_cmd s
@[simp] theorem State.endDec_status : (s.endDec).status = s.status.finishDec (lenMismatch s) := rfl
@[simp] theorem State.endDec_srcLen : (s.endDec).srcLen = s.srcLen := State.loseTail_srcLen s
@[simp] theorem State.endDec_dstCap : (s.endDec).dstCap = s.dstCap := State.loseTail_dstCap s
@[simp] theorem State.endDec_expLen : (s.endDec).expLen = s.expLen := State.loseTail_expLen s
@[simp] theorem State.endDec_result : (s.endDec).result = (match s.mode with | .known => s.ip | .streaming => s.op) := rfl
@[simp] theorem State.endDec_htW : (s.endDec).htW = s.htW := State.loseTail_htW s
@[simp] theorem State.endDec_htN : (s.endDec).htN = s.htN := State.loseTail_htN s
@[simp] theorem State.endDec_src : (s.endDec).src = s.src := State.loseTail_src s
@[simp] theorem State.endDec_dst : (s.endDec).dst = s.loseTail.dst := rfl
@[simp] theorem State.endDec_draws : (s.endDec).draws = s.loseTail.draws := rfl
@[simp] theorem State.endDec_more : (s.endDec).more = s.more := State.loseTail_more s
@[simp] theorem State.endDec_accepted : (s.endDec).accepted = s.accepted := State.loseTail_accepted s
@[simp] theorem State.endDec_invoke : (s.endDec).invoke = s.invoke := State.loseTail_invoke s
@[simp] theorem State.endDec_host : (s.endDec).host = s.host := State.loseTail_host s
@[simp] theorem State.endDec_hostData : (s.endDec).hostData = s.hostData := State.loseTail_hostData s

@[simp] theorem State.raiseOverflow_srcSize : (s.raiseOverflow).srcSize = s.srcSize := State.loseTail_srcSize s
@[simp] theorem State.raiseOverflow_dstSize : (s.raiseOverflow).dstSize = s.dstSize := State.loseTail_dstSize s
@[simp] theorem State.raiseOverflow_ip : (s.raiseOverflow).ip = s.ip := State.loseTail_ip s
@[simp] theorem State.raiseOverflow_op : (s.raiseOverflow).op = s.op := State.loseTail_op s
@[simp] theorem State.raiseOverflow_anchor : (s.raiseOverflow).anchor = s.anchor := State.loseTail_anchor s
@[simp] theorem State.raiseOverflow_ref : (s.raiseOverflow).ref = s.ref := State.loseTail_ref s
@[simp] theorem State.raiseOverflow_fwd : (s.raiseOverflow).fwd = s.fwd := State.loseTail_fwd s
@[simp] theorem State.raiseOverflow_attempts : (s.raiseOverflow).attempts = s.attempts := State.loseTail_attempts s
@[simp] theorem State.raiseOverflow_h : (s.raiseOverflow).h = s.h := State.loseTail_h s
@[simp] theorem State.raiseOverflow_tokpos : (s.raiseOverflow).tokpos = s.tokpos := State.loseTail_tokpos s
@[simp] theorem State.raiseOverflow_mstart : (s.raiseOverflow).mstart = s.mstart := State.loseTail_mstart s
@[simp] theorem State.raiseOverflow_iend : (s.raiseOverflow).iend = s.iend := State.loseTail_iend s
@[simp] theorem State.raiseOverflow_mflimit : (s.raiseOverflow).mflimit = s.mflimit := State.loseTail_mflimit s
@[simp] theorem State.raiseOverflow_matchlimit : (s.raiseOverflow).matchlimit = s.matchlimit := State.loseTail_matchlimit s
@[simp] theorem State.raiseOverflow_oend : (s.raiseOverflow).oend = s.oend := State.loseTail_oend s
@[simp] theorem State.raiseOverflow_tok : (s.raiseOverflow).tok = s.tok := State.loseTail_tok s
@[simp] theorem State.raiseOverflow_ll : (s.raiseOverflow).ll = s.ll := State.loseTail_ll s
@[simp] theorem State.raiseOverflow_ml : (s.raiseOverflow).ml = s.ml := State.loseTail_ml s
@[simp] theorem State.raiseOverflow_len : (s.raiseOverflow).len = s.len := State.loseTail_len s
@[simp] theorem State.raiseOverflow_cpy : (s.raiseOverflow).cpy = s.cpy := State.loseTail_cpy s
@[simp] theorem State.raiseOverflow_off : (s.raiseOverflow).off = s.off := State.loseTail_off s
@[simp] theorem State.raiseOverflow_mode : (s.raiseOverflow).mode = s.mode := State.loseTail_mode s
@[simp] theorem State.raiseOverflow_variant : (s.raiseOverflow).variant = s.variant := State.loseTail_variant s
@[simp] theorem State.raiseOverflow_st : (s.raiseOverflow).st = .error := rfl
@[simp] theorem State.raiseOverflow_cmd : (s.raiseOverflow).cmd = s.cmd := State.loseTail_cmd s
@[simp] theorem State.raiseOverflow_status : (s.raiseOverflow).status = s.status.fail := rfl
@[simp] theorem State.raiseOverflow_srcLen : (s.raiseOverflow).srcLen = s.srcLen := State.loseTail_srcLen s
@[simp] theorem State.raiseOverflow_dstCap : (s.raiseOverflow).dstCap = s.dstCap := State.loseTail_dstCap s
@[simp] theorem State.raiseOverflow_expLen : (s.raiseOverflow).expLen = s.expLen := State.loseTail_expLen s
@[simp] theorem State.raiseOverflow_result : (s.raiseOverflow).result = -s.ip := rfl
@[simp] theorem State.raiseOverflow_htW : (s.raiseOverflow).htW = s.htW := State.loseTail_htW s
@[simp] theorem State.raiseOverflow_htN : (s.raiseOverflow).htN = s.htN := State.loseTail_htN s
@[simp] theorem State.raiseOverflow_src : (s.raiseOverflow).src = s.src := State.loseTail_src s
@[simp] theorem State.raiseOverflow_dst : (s.raiseOverflow).dst = s.loseTail.dst := rfl
@[simp] theorem State.raiseOverflow_draws : (s.raiseOverflow).draws = s.loseTail.draws := rfl
@[simp] theorem State.raiseOverflow_more : (s.raiseOverflow).more = s.more := State.loseTail_more s
@[simp] theorem State.raiseOverflow_accepted : (s.raiseOverflow).accepted = s.accepted := State.loseTail_accepted s
@[simp] theorem State.raiseOverflow_invoke : (s.raiseOverflow).invoke = s.invoke := State.loseTail_invoke s
@[simp] theorem State.raiseOverflow_host : (s.raiseOverflow).host = s.host := State.loseTail_host s
@[simp] theorem State.raiseOverflow_hostData : (s.raiseOverflow).hostData = s.hostData := State.loseTail_hostData s

@[simp] theorem State.tunSplit_srcSize (b : Byte) : (s.tunSplit b).srcSize = s.srcSize := rfl
@[simp] theorem State.tunSplit_dstSize (b : Byte) : (s.tunSplit b).dstSize = s.dstSize := rfl
@[simp] theorem State.tunSplit_ip (b : Byte) : (s.tunSplit b).ip = s.ip := rfl
@[simp] theorem State.tunSplit_op (b : Byte) : (s.tunSplit b).op = s.op := rfl
@[simp] theorem State.tunSplit_anchor (b : Byte) : (s.tunSplit b).anchor = s.anchor := rfl
@[simp] theorem State.tunSplit_ref (b : Byte) : (s.tunSplit b).ref = s.ref := rfl
@[simp] theorem State.tunSplit_fwd (b : Byte) : (s.tunSplit b).fwd = s.fwd := rfl
@[simp] theorem State.tunSplit_attempts (b : Byte) : (s.tunSplit b).attempts = s.attempts := rfl
@[simp] theorem State.tunSplit_h (b : Byte) : (s.tunSplit b).h = s.h := rfl
@[simp] theorem State.tunSplit_tokpos (b : Byte) : (s.tunSplit b).tokpos = s.tokpos := rfl
@[simp] theorem State.tunSplit_mstart (b : Byte) : (s.tunSplit b).mstart = s.mstart := rfl
@[simp] theorem State.tunSplit_iend (b : Byte) : (s.tunSplit b).iend = s.iend := rfl
@[simp] theorem State.tunSplit_mflimit (b : Byte) : (s.tunSplit b).mflimit = s.mflimit := rfl
@[simp] theorem State.tunSplit_matchlimit (b : Byte) : (s.tunSplit b).matchlimit = s.matchlimit := rfl
@[simp] theorem State.tunSplit_oend (b : Byte) : (s.tunSplit b).oend = s.oend := rfl
@[simp] theorem State.tunSplit_tok (b : Byte) : (s.tunSplit b).tok = s.tok := rfl
@[simp] theorem State.tunSplit_ll (b : Byte) : (s.tunSplit b).ll = highNibble b := rfl
@[simp] theorem State.tunSplit_ml (b : Byte) : (s.tunSplit b).ml = lowNibble b := rfl
@[simp] theorem State.tunSplit_len (b : Byte) : (s.tunSplit b).len = s.len := rfl
@[simp] theorem State.tunSplit_cpy (b : Byte) : (s.tunSplit b).cpy = s.cpy := rfl
@[simp] theorem State.tunSplit_off (b : Byte) : (s.tunSplit b).off = s.off := rfl
@[simp] theorem State.tunSplit_mode (b : Byte) : (s.tunSplit b).mode = s.mode := rfl
@[simp] theorem State.tunSplit_variant (b : Byte) : (s.tunSplit b).variant = s.variant := rfl
@[simp] theorem State.tunSplit_st (b : Byte) : (s.tunSplit b).st = s.st := rfl
@[simp] theorem State.tunSplit_cmd (b : Byte) : (s.tunSplit b).cmd = s.cmd := rfl
@[simp] theorem State.tunSplit_status (b : Byte) : (s.tunSplit b).status = s.status := rfl
@[simp] theorem State.tunSplit_srcLen (b : Byte) : (s.tunSplit b).srcLen = s.srcLen := rfl
@[simp] theorem State.tunSplit_dstCap (b : Byte) : (s.tunSplit b).dstCap = s.dstCap := rfl
@[simp] theorem State.tunSplit_expLen (b : Byte) : (s.tunSplit b).expLen = s.expLen := rfl
@[simp] theorem State.tunSplit_result (b : Byte) : (s.tunSplit b).result = s.result := rfl
@[simp] theorem State.tunSplit_htW (b : Byte) : (s.tunSplit b).htW = s.htW := rfl
@[simp] theorem State.tunSplit_htN (b : Byte) : (s.tunSplit b).htN = s.htN := rfl
@[simp] theorem State.tunSplit_src (b : Byte) : (s.tunSplit b).src = s.src := rfl
@[simp] theorem State.tunSplit_dst (b : Byte) : (s.tunSplit b).dst = s.dst := rfl
@[simp] theorem State.tunSplit_draws (b : Byte) : (s.tunSplit b).draws = s.draws := rfl
@[simp] theorem State.tunSplit_more (b : Byte) : (s.tunSplit b).more = s.more := rfl
@[simp] theorem State.tunSplit_accepted (b : Byte) : (s.tunSplit b).accepted = s.accepted := rfl
@[simp] theorem State.tunSplit_invoke (b : Byte) : (s.tunSplit b).invoke = s.invoke := rfl
@[simp] theorem State.tunSplit_host (b : Byte) : (s.tunSplit b).host = s.host := rfl
@[simp] theorem State.tunSplit_hostData (b : Byte) : (s.tunSplit b).hostData = s.hostData := rfl

@[simp] theorem State.takeExt_srcSize (b : Byte) : (s.takeExt b).srcSize = s.srcSize := rfl
@[simp] theorem State.takeExt_dstSize (b : Byte) : (s.takeExt b).dstSize = s.dstSize := rfl
@[simp] theorem State.takeExt_ip (b : Byte) : (s.takeExt b).ip = advance s.ip 1 := rfl
@[simp] theorem State.takeExt_op (b : Byte) : (s.takeExt b).op = s.op := rfl
@[simp] theorem State.takeExt_anchor (b : Byte) : (s.takeExt b).anchor = s.anchor := rfl
@[simp] theorem State.takeExt_ref (b : Byte) : (s.takeExt b).ref = s.ref := rfl
@[simp] theorem State.takeExt_fwd (b : Byte) : (s.takeExt b).fwd = s.fwd := rfl
@[simp] theorem State.takeExt_attempts (b : Byte) : (s.takeExt b).attempts = s.attempts := rfl
@[simp] theorem State.takeExt_h (b : Byte) : (s.takeExt b).h = s.h := rfl
@[simp] theorem State.takeExt_tokpos (b : Byte) : (s.takeExt b).tokpos = s.tokpos := rfl
@[simp] theorem State.takeExt_mstart (b : Byte) : (s.takeExt b).mstart = s.mstart := rfl
@[simp] theorem State.takeExt_iend (b : Byte) : (s.takeExt b).iend = s.iend := rfl
@[simp] theorem State.takeExt_mflimit (b : Byte) : (s.takeExt b).mflimit = s.mflimit := rfl
@[simp] theorem State.takeExt_matchlimit (b : Byte) : (s.takeExt b).matchlimit = s.matchlimit := rfl
@[simp] theorem State.takeExt_oend (b : Byte) : (s.takeExt b).oend = s.oend := rfl
@[simp] theorem State.takeExt_tok (b : Byte) : (s.takeExt b).tok = s.tok := rfl
@[simp] theorem State.takeExt_ll (b : Byte) : (s.takeExt b).ll = s.ll := rfl
@[simp] theorem State.takeExt_ml (b : Byte) : (s.takeExt b).ml = s.ml := rfl
@[simp] theorem State.takeExt_len (b : Byte) : (s.takeExt b).len = BitVec.ofNat 40 (s.len.toNat + b.toNat) := rfl
@[simp] theorem State.takeExt_cpy (b : Byte) : (s.takeExt b).cpy = s.cpy := rfl
@[simp] theorem State.takeExt_off (b : Byte) : (s.takeExt b).off = s.off := rfl
@[simp] theorem State.takeExt_mode (b : Byte) : (s.takeExt b).mode = s.mode := rfl
@[simp] theorem State.takeExt_variant (b : Byte) : (s.takeExt b).variant = s.variant := rfl
@[simp] theorem State.takeExt_st (b : Byte) : (s.takeExt b).st = s.st := rfl
@[simp] theorem State.takeExt_cmd (b : Byte) : (s.takeExt b).cmd = s.cmd := rfl
@[simp] theorem State.takeExt_status (b : Byte) : (s.takeExt b).status = s.status := rfl
@[simp] theorem State.takeExt_srcLen (b : Byte) : (s.takeExt b).srcLen = s.srcLen := rfl
@[simp] theorem State.takeExt_dstCap (b : Byte) : (s.takeExt b).dstCap = s.dstCap := rfl
@[simp] theorem State.takeExt_expLen (b : Byte) : (s.takeExt b).expLen = s.expLen := rfl
@[simp] theorem State.takeExt_result (b : Byte) : (s.takeExt b).result = s.result := rfl
@[simp] theorem State.takeExt_htW (b : Byte) : (s.takeExt b).htW = s.htW := rfl
@[simp] theorem State.takeExt_htN (b : Byte) : (s.takeExt b).htN = s.htN := rfl
@[simp] theorem State.takeExt_src (b : Byte) : (s.takeExt b).src = s.src := rfl
@[simp] theorem State.takeExt_dst (b : Byte) : (s.takeExt b).dst = s.dst := rfl
@[simp] theorem State.takeExt_draws (b : Byte) : (s.takeExt b).draws = s.draws := rfl
@[simp] theorem State.takeExt_more (b : Byte) : (s.takeExt b).more = s.more := rfl
@[simp] theorem State.takeExt_accepted (b : Byte) : (s.takeExt b).accepted = s.accepted := rfl
@[simp] theorem State.takeExt_invoke (b : Byte) : (s.takeExt b).invoke = s.invoke := rfl
@[simp] theorem State.takeExt_host (b : Byte) : (s.takeExt b).host = s.host := rfl
@[simp] theorem State.takeExt_hostData (b : Byte) : (s.takeExt b).hostData = s.hostData := rfl

@[simp] theorem State.takeToken_srcSize (b : Byte) : (s.takeToken b).srcSize = s.srcSize := rfl
@[simp] theorem State.takeToken_dstSize (b : Byte) : (s.takeToken b).dstSize = s.dstSize := rfl
@[simp] theorem State.takeToken_ip (b : Byte) : (s.takeToken b).ip = advance s.ip 1 := rfl
@[simp] theorem State.takeToken_op (b : Byte) : (s.takeToken b).op = s.op := rfl
@[simp] theorem State.takeToken_anchor (b : Byte) : (s.takeToken b).anchor = s.anchor := rfl
@[simp] theorem State.takeToken_ref (b : Byte) : (s.takeToken b).ref = s.ref := rfl
@[simp] theorem State.takeToken_fwd (b : Byte) : (s.takeToken b).fwd = s.fwd := rfl
@[simp] theorem State.takeToken_attempts (b : Byte) : (s.takeToken b).attempts = s.attempts := rfl
@[simp] theorem State.takeToken_h (b : Byte) : (s.takeToken b).h = s.h := rfl
@[simp] theorem State.takeToken_tokpos (b : Byte) : (s.takeToken b).tokpos = s.tokpos := rfl
@[simp] theorem State.takeToken_mstart (b : Byte) : (s.takeToken b).mstart = s.mstart := rfl
@[simp] theorem State.takeToken_iend (b : Byte) : (s.takeToken b).iend = s.iend := rfl
@[simp] theorem State.takeToken_mflimit (b : Byte) : (s.takeToken b).mflimit = s.mflimit := rfl
@[simp] theorem State.takeToken_matchlimit (b : Byte) : (s.takeToken b).matchlimit = s.matchlimit := rfl
@[simp] theorem State.takeToken_oend (b : Byte) : (s.takeToken b).oend = s.oend := rfl
@[simp] theorem State.takeToken_tok (b : Byte) : (s.takeToken b).tok = b := rfl
@[simp] theorem State.takeToken_ll (b : Byte) : (s.takeToken b).ll = highNibble b := rfl
@[simp] theorem State.takeToken_ml (b : Byte) : (s.takeToken b).ml = lowNibble b := rfl
@[simp] theorem State.takeToken_len (b : Byte) : (s.takeToken b).len = (highNibble b).setWidth 40 := rfl
@[simp] theorem State.takeToken_cpy (b : Byte) : (s.takeToken b).cpy = s.cpy := rfl
@[simp] theorem State.takeToken_off (b : Byte) : (s.takeToken b).off = s.off := rfl
@[simp] theorem State.takeToken_mode (b : Byte) : (s.takeToken b).mode = s.mode := rfl
@[simp] theorem State.takeToken_variant (b : Byte) : (s.takeToken b).variant = s.variant := rfl
@[simp] theorem State.takeToken_st (b : Byte) : (s.takeToken b).st = if highNibble b = 15#4 then .dLitext else .dLitcopy := rfl
@[simp] theorem State.takeToken_cmd (b : Byte) : (s.takeToken b).cmd = s.cmd := rfl
@[simp] theorem State.takeToken_status (b : Byte) : (s.takeToken b).status = s.status := rfl
@[simp] theorem State.takeToken_srcLen (b : Byte) : (s.takeToken b).srcLen = s.srcLen := rfl
@[simp] theorem State.takeToken_dstCap (b : Byte) : (s.takeToken b).dstCap = s.dstCap := rfl
@[simp] theorem State.takeToken_expLen (b : Byte) : (s.takeToken b).expLen = s.expLen := rfl
@[simp] theorem State.takeToken_result (b : Byte) : (s.takeToken b).result = s.result := rfl
@[simp] theorem State.takeToken_htW (b : Byte) : (s.takeToken b).htW = s.htW := rfl
@[simp] theorem State.takeToken_htN (b : Byte) : (s.takeToken b).htN = s.htN := rfl
@[simp] theorem State.takeToken_src (b : Byte) : (s.takeToken b).src = s.src := rfl
@[simp] theorem State.takeToken_dst (b : Byte) : (s.takeToken b).dst = s.dst := rfl
@[simp] theorem State.takeToken_draws (b : Byte) : (s.takeToken b).draws = s.draws := rfl
@[simp] theorem State.takeToken_more (b : Byte) : (s.takeToken b).more = s.more := rfl
@[simp] theorem State.takeToken_accepted (b : Byte) : (s.takeToken b).accepted = s.accepted := rfl
@[simp] theorem State.takeToken_invoke (b : Byte) : (s.takeToken b).invoke = s.invoke := rfl
@[simp] theorem State.takeToken_host (b : Byte) : (s.takeToken b).host = s.host := rfl
@[simp] theorem State.takeToken_hostData (b : Byte) : (s.takeToken b).hostData = s.hostData := rfl

@[simp] theorem State.takeOffset_srcSize (o : BitVec 16) : (s.takeOffset o).srcSize = s.srcSize := rfl
@[simp] theorem State.takeOffset_dstSize (o : BitVec 16) : (s.takeOffset o).dstSize = s.dstSize := rfl
@[simp] theorem State.takeOffset_ip (o : BitVec 16) : (s.takeOffset o).ip = advance s.ip 2 := rfl
@[simp] theorem State.takeOffset_op (o : BitVec 16) : (s.takeOffset o).op = s.op := rfl
@[simp] theorem State.takeOffset_anchor (o : BitVec 16) : (s.takeOffset o).anchor = s.anchor := rfl
@[simp] theorem State.takeOffset_ref (o : BitVec 16) : (s.takeOffset o).ref = BitVec.ofInt 33 (pos s.op - o.toNat) := rfl
@[simp] theorem State.takeOffset_fwd (o : BitVec 16) : (s.takeOffset o).fwd = s.fwd := rfl
@[simp] theorem State.takeOffset_attempts (o : BitVec 16) : (s.takeOffset o).attempts = s.attempts := rfl
@[simp] theorem State.takeOffset_h (o : BitVec 16) : (s.takeOffset o).h = s.h := rfl
@[simp] theorem State.takeOffset_tokpos (o : BitVec 16) : (s.takeOffset o).tokpos = s.tokpos := rfl
@[simp] theorem State.takeOffset_mstart (o : BitVec 16) : (s.takeOffset o).mstart = s.mstart := rfl
@[simp] theorem State.takeOffset_iend (o : BitVec 16) : (s.takeOffset o).iend = s.iend := rfl
@[simp] theorem State.takeOffset_mflimit (o : BitVec 16) : (s.takeOffset o).mflimit = s.mflimit := rfl
@[simp] theorem State.takeOffset_matchlimit (o : BitVec 16) : (s.takeOffset o).matchlimit = s.matchlimit := rfl
@[simp] theorem State.takeOffset_oend (o : BitVec 16) : (s.takeOffset o).oend = s.oend := rfl
@[simp] theorem State.takeOffset_tok (o : BitVec 16) : (s.takeOffset o).tok = s.tok := rfl
@[simp] theorem State.takeOffset_ll (o : BitVec 16) : (s.takeOffset o).ll = s.ll := rfl
@[simp] theorem State.takeOffset_ml (o : BitVec 16) : (s.takeOffset o).ml = s.ml := rfl
@[simp] theorem State.takeOffset_len (o : BitVec 16) : (s.takeOffset o).len = s.ml.setWidth 40 := rfl
@[simp] theorem State.takeOffset_cpy (o : BitVec 16) : (s.takeOffset o).cpy = s.cpy := rfl
@[simp] theorem State.takeOffset_off (o : BitVec 16) : (s.takeOffset o).off = o := rfl
@[simp] theorem State.takeOffset_mode (o : BitVec 16) : (s.takeOffset o).mode = s.mode := rfl
@[simp] theorem State.takeOffset_variant (o : BitVec 16) : (s.takeOffset o).variant = s.variant := rfl
@[simp] theorem State.takeOffset_st (o : BitVec 16) : (s.takeOffset o).st = if s.ml = 15#4 then .dMlext else .dMatch4 := rfl
@[simp] theorem State.takeOffset_cmd (o : BitVec 16) : (s.takeOffset o).cmd = s.cmd := rfl
@[simp] theorem State.takeOffset_status (o : BitVec 16) : (s.takeOffset o).status = s.status := rfl
@[simp] theorem State.takeOffset_srcLen (o : BitVec 16) : (s.takeOffset o).srcLen = s.srcLen := rfl
@[simp] theorem State.takeOffset_dstCap (o : BitVec 16) : (s.takeOffset o).dstCap = s.dstCap := rfl
@[simp] theorem State.takeOffset_expLen (o : BitVec 16) : (s.takeOffset o).expLen = s.expLen := rfl
@[simp] theorem State.takeOffset_result (o : BitVec 16) : (s.takeOffset o).result = s.result := rfl
@[simp] theorem State.takeOffset_htW (o : BitVec 16) : (s.takeOffset o).htW = s.htW := rfl
@[simp] theorem State.takeOffset_htN (o : BitVec 16) : (s.takeOffset o).htN = s.htN := rfl
@[simp] theorem State.takeOffset_src (o : BitVec 16) : (s.takeOffset o).src = s.src := rfl
@[simp] theorem State.takeOffset_dst (o : BitVec 16) : (s.takeOffset o).dst = s.dst := rfl
@[simp] theorem State.takeOffset_draws (o : BitVec 16) : (s.takeOffset o).draws = s.draws := rfl
@[simp] theorem State.takeOffset_more (o : BitVec 16) : (s.takeOffset o).more = s.more := rfl
@[simp] theorem State.takeOffset_accepted (o : BitVec 16) : (s.takeOffset o).accepted = s.accepted := rfl
@[simp] theorem State.takeOffset_invoke (o : BitVec 16) : (s.takeOffset o).invoke = s.invoke := rfl
@[simp] theorem State.takeOffset_host (o : BitVec 16) : (s.takeOffset o).host = s.host := rfl
@[simp] theorem State.takeOffset_hostData (o : BitVec 16) : (s.takeOffset o).hostData = s.hostData := rfl

@[simp] theorem State.htReset_srcSize : s.htReset.srcSize = s.srcSize := by unfold State.htReset; cases s.variant <;> rfl
@[simp] theorem State.htReset_dstSize : s.htReset.dstSize = s.dstSize := by unfold State.htReset; cases s.variant <;> rfl
@[simp] theorem State.htReset_ip : s.htReset.ip = s.ip := by unfold State.htReset; cases s.variant <;> rfl
@[simp] theorem State.htReset_op : s.htReset.op = s.op := by unfold State.htReset; cases s.variant <;> rfl
@[simp] theorem State.htReset_anchor : s.htReset.anchor = s.anchor := by unfold State.htReset; cases s.variant <;> rfl
@[simp] theorem State.htReset_ref : s.htReset.ref = s.ref := by unfold State.htReset; cases s.variant <;> rfl
@[simp] theorem State.htReset_fwd : s.htReset.fwd = s.fwd := by unfold State.htReset; cases s.variant <;> rfl
@[simp] theorem State.htReset_attempts : s.htReset.attempts = s.attempts := by unfold State.htReset; cases s.variant <;> rfl
@[simp] theorem State.htReset_h : s.htReset.h = s.h := by unfold State.htReset; cases s.variant <;> rfl
@[simp] theorem State.htReset_tokpos : s.htReset.tokpos = s.tokpos := by unfold State.htReset; cases s.variant <;> rfl
@[simp] theorem State.htReset_mstart : s.htReset.mstart = s.mstart := by unfold State.htReset; cases s.variant <;> rfl
@[simp] theorem State.htReset_iend : s.htReset.iend = s.iend := by unfold State.htReset; cases s.variant <;> rfl
@[simp] theorem State.htReset_mflimit : s.htReset.mflimit = s.mflimit := by unfold State.htReset; cases s.variant <;> rfl
@[simp] theorem State.htReset_matchlimit : s.htReset.matchlimit = s.matchlimit := by unfold State.htReset; cases s.variant <;> rfl
@[simp] theorem State.htReset_oend : s.htReset.oend = s.oend := by unfold State.htReset; cases s.variant <;> rfl
@[simp] theorem State.htReset_tok : s.htReset.tok = s.tok := by unfold State.htReset; cases s.variant <;> rfl
@[simp] theorem State.htReset_ll : s.htReset.ll = s.ll := by unfold State.htReset; cases s.variant <;> rfl
@[simp] theorem State.htReset_ml : s.htReset.ml = s.ml := by unfold State.htReset; cases s.variant <;> rfl
@[simp] theorem State.htReset_len : s.htReset.len = s.len := by unfold State.htReset; cases s.variant <;> rfl
@[simp] theorem State.htReset_cpy : s.htReset.cpy = s.cpy := by unfold State.htReset; cases s.variant <;> rfl
@[simp] theorem State.htReset_off : s.htReset.off = s.off := by unfold State.htReset; cases s.variant <;> rfl
@[simp] theorem State.htReset_mode : s.htReset.mode = s.mode := by unfold State.htReset; cases s.variant <;> rfl
@[simp] theorem State.htReset_variant : s.htReset.variant = s.variant := by unfold State.htReset; cases s.variant <;> rfl
@[simp] theorem State.htReset_st : s.htReset.st = s.st := by unfold State.htReset; cases s.variant <;> rfl
@[simp] theorem State.htReset_cmd : s.htReset.cmd = s.cmd := by unfold State.htReset; cases s.variant <;> rfl
@[simp] theorem State.htReset_status : s.htReset.status = s.status := by unfold State.htReset; cases s.variant <;> rfl
@[simp] theorem State.htReset_srcLen : s.htReset.srcLen = s.srcLen := by unfold State.htReset; cases s.variant <;> rfl
@[simp] theorem State.htReset_dstCap : s.htReset.dstCap = s.dstCap := by unfold State.htReset; cases s.variant <;> rfl
@[simp] theorem State.htReset_expLen : s.htReset.expLen = s.expLen := by unfold State.htReset; cases s.variant <;> rfl
@[simp] theorem State.htReset_result : s.htReset.result = s.result := by unfold State.htReset; cases s.variant <;> rfl
@[simp] theorem State.htReset_src : s.htReset.src = s.src := by unfold State.htReset; cases s.variant <;> rfl
@[simp] theorem State.htReset_dst : s.htReset.dst = s.dst := by unfold State.htReset; cases s.variant <;> rfl
@[simp] theorem State.htReset_draws : s.htReset.draws = s.draws := by unfold State.htReset; cases s.variant <;> rfl
@[simp] theorem State.htReset_more : s.htReset.more = s.more := by unfold State.htReset; cases s.variant <;> rfl
@[simp] theorem State.htReset_accepted : s.htReset.accepted = s.accepted := by unfold State.htReset; cases s.variant <;> rfl
@[simp] theorem State.htReset_invoke : s.htReset.invoke = s.invoke := by unfold State.htReset; cases s.variant <;> rfl
@[simp] theorem State.htReset_host : s.htReset.host = s.host := by unfold State.htReset; cases s.variant <;> rfl
@[simp] theorem State.htReset_hostData : s.htReset.hostData = s.hostData := by unfold State.htReset; cases s.variant <;> rfl

@[simp] theorem State.hostBusy_srcSize : s.hostBusy.srcSize = s.srcSize := by unfold State.hostBusy; split <;> rfl
@[simp] theorem State.hostBusy_dstSize : s.hostBusy.dstSize = s.dstSize := by unfold State.hostBusy; split <;> rfl
@[simp] theorem State.hostBusy_ip : s.hostBusy.ip = s.ip := by unfold State.hostBusy; split <;> rfl
@[simp] theorem State.hostBusy_op : s.hostBusy.op = s.op := by unfold State.hostBusy; split <;> rfl
@[simp] theorem State.hostBusy_anchor : s.hostBusy.anchor = s.anchor := by unfold State.hostBusy; split <;> rfl
@[simp] theorem State.hostBusy_ref : s.hostBusy.ref = s.ref := by unfold State.hostBusy; split <;> rfl
@[simp] theorem State.hostBusy_fwd : s.hostBusy.fwd = s.fwd := by unfold State.hostBusy; split <;> rfl
@[simp] theorem State.hostBusy_attempts : s.hostBusy.attempts = s.attempts := by unfold State.hostBusy; split <;> rfl
@[simp] theorem State.hostBusy_h : s.hostBusy.h = s.h := by unfold State.hostBusy; split <;> rfl
@[simp] theorem State.hostBusy_tokpos : s.hostBusy.tokpos = s.tokpos := by unfold State.hostBusy; split <;> rfl
@[simp] theorem State.hostBusy_mstart : s.hostBusy.mstart = s.mstart := by unfold State.hostBusy; split <;> rfl
@[simp] theorem State.hostBusy_iend : s.hostBusy.iend = s.iend := by unfold State.hostBusy; split <;> rfl
@[simp] theorem State.hostBusy_mflimit : s.hostBusy.mflimit = s.mflimit := by unfold State.hostBusy; split <;> rfl
@[simp] theorem State.hostBusy_matchlimit : s.hostBusy.matchlimit = s.matchlimit := by unfold State.hostBusy; split <;> rfl
@[simp] theorem State.hostBusy_oend : s.hostBusy.oend = s.oend := by unfold State.hostBusy; split <;> rfl
@[simp] theorem State.hostBusy_tok : s.hostBusy.tok = s.tok := by unfold State.hostBusy; split <;> rfl
@[simp] theorem State.hostBusy_ll : s.hostBusy.ll = s.ll := by unfold State.hostBusy; split <;> rfl
@[simp] theorem State.hostBusy_ml : s.hostBusy.ml = s.ml := by unfold State.hostBusy; split <;> rfl
@[simp] theorem State.hostBusy_len : s.hostBusy.len = s.len := by unfold State.hostBusy; split <;> rfl
@[simp] theorem State.hostBusy_cpy : s.hostBusy.cpy = s.cpy := by unfold State.hostBusy; split <;> rfl
@[simp] theorem State.hostBusy_off : s.hostBusy.off = s.off := by unfold State.hostBusy; split <;> rfl
@[simp] theorem State.hostBusy_mode : s.hostBusy.mode = s.mode := by unfold State.hostBusy; split <;> rfl
@[simp] theorem State.hostBusy_variant : s.hostBusy.variant = s.variant := by unfold State.hostBusy; split <;> rfl
@[simp] theorem State.hostBusy_st : s.hostBusy.st = s.st := by unfold State.hostBusy; split <;> rfl
@[simp] theorem State.hostBusy_cmd : s.hostBusy.cmd = s.cmd := by unfold State.hostBusy; split <;> rfl
@[simp] theorem State.hostBusy_status : s.hostBusy.status = s.status := by unfold State.hostBusy; split <;> rfl
@[simp] theorem State.hostBusy_srcLen : s.hostBusy.srcLen = s.srcLen := by unfold State.hostBusy; split <;> rfl
@[simp] theorem State.hostBusy_dstCap : s.hostBusy.dstCap = s.dstCap := by unfold State.hostBusy; split <;> rfl
@[simp] theorem State.hostBusy_expLen : s.hostBusy.expLen = s.expLen := by unfold State.hostBusy; split <;> rfl
@[simp] theorem State.hostBusy_result : s.hostBusy.result = s.result := by unfold State.hostBusy; split <;> rfl
@[simp] theorem State.hostBusy_htW : s.hostBusy.htW = s.htW := by unfold State.hostBusy; split <;> rfl
@[simp] theorem State.hostBusy_htN : s.hostBusy.htN = s.htN := by unfold State.hostBusy; split <;> rfl
@[simp] theorem State.hostBusy_src : s.hostBusy.src = s.src := by unfold State.hostBusy; split <;> rfl
@[simp] theorem State.hostBusy_dst : s.hostBusy.dst = s.dst := by unfold State.hostBusy; split <;> rfl
@[simp] theorem State.hostBusy_draws : s.hostBusy.draws = s.draws := by unfold State.hostBusy; split <;> rfl
@[simp] theorem State.hostBusy_more : s.hostBusy.more = s.more := by unfold State.hostBusy; split <;> rfl
@[simp] theorem State.hostBusy_accepted : s.hostBusy.accepted = s.accepted := by unfold State.hostBusy; split <;> rfl
@[simp] theorem State.hostBusy_invoke : s.hostBusy.invoke = s.invoke := by unfold State.hostBusy; split <;> rfl

@[simp] theorem Status.start_state (b : Bool) (u : Status) : (u.start b).state = .busy := rfl
@[simp] theorem Status.start_lenmis (b : Bool) (u : Status) : (u.start b).lenmis = false := rfl
@[simp] theorem Status.start_errcode (b : Bool) (u : Status) : (u.start b).errcode = 0#4 := rfl
@[simp] theorem Status.finish_state (u : Status) : u.finish.state = .done := rfl
@[simp] theorem Status.finish_errcode (u : Status) : u.finish.errcode = u.errcode := rfl
@[simp] theorem Status.finish_lenmis (u : Status) : u.finish.lenmis = u.lenmis := rfl
@[simp] theorem Status.finish_variant (u : Status) : u.finish.variant = u.variant := rfl
@[simp] theorem Status.finishDec_state (b : Bool) (u : Status) : (u.finishDec b).state = .done := rfl
@[simp] theorem Status.finishDec_errcode (b : Bool) (u : Status) : (u.finishDec b).errcode = u.errcode := rfl
@[simp] theorem Status.finishDec_lenmis (b : Bool) (u : Status) : (u.finishDec b).lenmis = b := rfl
@[simp] theorem Status.finishDec_variant (b : Bool) (u : Status) : (u.finishDec b).variant = u.variant := rfl
@[simp] theorem Status.fail_state (u : Status) : u.fail.state = .error := rfl
@[simp] theorem Status.fail_errcode (u : Status) : u.fail.errcode = 1#4 := rfl
@[simp] theorem Status.fail_lenmis (u : Status) : u.fail.lenmis = u.lenmis := rfl
@[simp] theorem Status.fail_variant (u : Status) : u.fail.variant = u.variant := rfl
@[simp] theorem Status.withVariant_state (v : Variant) (u : Status) : (u.withVariant v).state = u.state := rfl
@[simp] theorem Status.withVariant_errcode (v : Variant) (u : Status) : (u.withVariant v).errcode = u.errcode := rfl
@[simp] theorem Status.withVariant_variant (v : Variant) (u : Status) : (u.withVariant v).variant = v := rfl

end Sys2Proof.Machine
end

