-- ==== Sys2Proof/Laws/Ops.lean ====
section
/-! SUPPORT. One law for each shared operation that says everything it can do: when it answers a state, and which. The proofs
cite these and do not unfold the operations. -/

namespace Sys2Proof.Machine

/-! ### Going on or stopping -/

@[simp] theorem orFault_ok {α : Type} (a : α) (k : α → Out) : orFault (.ok a) k = k a := rfl
@[simp] theorem orFault_error {α : Type} (f : Fault) (k : α → Out) : orFault (.error f : Except Fault α) k = .fault f := rfl

/-- A meaning that goes on after a value answers a next state only from that value. -/
theorem orFault_next {α : Type} {r : Except Fault α} {k : α → Out} {t : State} (h : orFault r k = .next t) :
    ∃ a, r = .ok a ∧ k a = .next t := by
  cases r with
  | ok a => exact ⟨a, rfl, h⟩
  | error f => simp at h

theorem except_bind_ok {α β : Type} {r : Except Fault α} {k : α → Except Fault β} {b : β}
    (h : (r >>= k) = .ok b) : ∃ a, r = .ok a ∧ k a = .ok b := by
  cases r with
  | ok a => exact ⟨a, rfl, h⟩
  | error f => exact absurd h (by simp [bind, Except.bind])

@[simp] theorem except_ok_bind {α β : Type} (a : α) (k : α → Except Fault β) : ((.ok a : Except Fault α) >>= k) = k a := rfl
@[simp] theorem except_error_bind {α β : Type} (f : Fault) (k : α → Except Fault β) :
    ((.error f : Except Fault α) >>= k) = .error f := rfl

@[simp] theorem except_map_ok {α β : Type} (a : α) (g : α → β) : (Except.map g (.ok a : Except Fault α)) = .ok (g a) := rfl
@[simp] theorem except_map_error {α β : Type} (f : Fault) (g : α → β) :
    (Except.map g (.error f : Except Fault α)) = .error f := rfl

theorem except_map_eq_ok {α β : Type} {r : Except Fault α} {g : α → β} {b : β} (h : r.map g = .ok b) :
    ∃ a, r = .ok a ∧ b = g a := by
  cases r with
  | ok a => exact ⟨a, rfl, by simpa using h.symm⟩
  | error f => simp at h

/-! ### Positions -/

@[simp] theorem pos_toNat (p : Pos) : (pos p).toNat = p.toNat := by simp [pos]

theorem pos_nonneg (p : Pos) : 0 ≤ pos p := by simp [pos]

/-- A cursor moves exactly while it stays below `2^32` (R22). -/
theorem advance_toNat {p : Pos} {n : Nat} (h : p.toNat + n < 2 ^ 32) : (advance p n).toNat = p.toNat + n := by
  simp only [advance, BitVec.toNat_ofNat]
  exact Nat.mod_eq_of_lt h

/-! ### Reads -/

theorem State.readByte_of {s : State} {sp : Space} {a : Int} (h0 : 0 ≤ a) (h1 : a.toNat < s.size sp) :
    s.readByte sp a = .ok (Memory.byte sp (s.mem sp) a.toNat) := by
  rw [State.readByte, if_neg (by omega), if_pos h1]

theorem State.readByte_ok {s : State} {sp : Space} {a : Int} {b : Byte} (h : s.readByte sp a = .ok b) :
    0 ≤ a ∧ a.toNat < s.size sp ∧ b = Memory.byte sp (s.mem sp) a.toNat := by
  unfold State.readByte at h
  split at h
  · cases h
  · split at h
    · exact ⟨by omega, by assumption, by cases h; rfl⟩
    · cases h

/-- R59: a SRC read past the memory faults. -/
theorem State.readByte_srcRange {s : State} {a : Int} (h0 : 0 ≤ a) (h1 : s.srcSize ≤ a.toNat) :
    s.readByte .src a = .error .srcRange := by
  rw [State.readByte, if_neg (by omega), if_neg (by simp only [State.size]; omega)]
  rfl

theorem State.readBytes_of {s : State} {sp : Space} {a : Int} {n : Nat} (h0 : 0 ≤ a) (h1 : a.toNat + n ≤ s.size sp) :
    s.readBytes sp a n = .ok (Memory.bytes sp (s.mem sp) a.toNat n) := by
  unfold State.readBytes
  by_cases hn : n = 0
  · subst hn; rfl
  · rw [if_neg hn, if_neg (by omega), if_pos h1]

@[simp] theorem State.readBytes_zero (s : State) (sp : Space) (a : Int) : s.readBytes sp a 0 = .ok [] := rfl

theorem State.readBytes_ok {s : State} {sp : Space} {a : Int} {n : Nat} {bs : List Byte}
    (h : s.readBytes sp a n = .ok bs) :
    bs = Memory.bytes sp (s.mem sp) a.toNat n ∧ (n = 0 ∨ (0 ≤ a ∧ a.toNat + n ≤ s.size sp)) := by
  unfold State.readBytes at h
  split at h
  · next hn => subst hn; cases h; exact ⟨rfl, .inl rfl⟩
  · split at h
    · cases h
    · split at h
      · cases h; exact ⟨rfl, .inr ⟨by omega, by assumption⟩⟩
      · cases h

theorem State.memRead_of {s : State} {sp : Space} {a : Int} {n : Nat} (h0 : 0 ≤ a) (h1 : a.toNat + n ≤ s.size sp) :
    s.memRead sp a n = .ok (leValue (Memory.bytes sp (s.mem sp) a.toNat n)) := by
  rw [State.memRead, State.readBytes_of h0 h1, except_map_ok]

theorem State.word_of {s : State} {p : Int} (h0 : 0 ≤ p) (h1 : p.toNat + 4 ≤ s.srcSize) :
    s.word p = .ok (s.wordAt p.toNat) := by
  rw [State.word, State.memRead_of (sp := .src) h0 h1, except_map_ok]
  rfl

theorem State.word_ok {s : State} {p : Int} {w : Word} (h : s.word p = .ok w) :
    0 ≤ p ∧ p.toNat + 4 ≤ s.srcSize ∧ w = s.wordAt p.toNat := by
  obtain ⟨v, hv, rfl⟩ := except_map_eq_ok h
  obtain ⟨bs, hb, rfl⟩ := except_map_eq_ok hv
  obtain ⟨rfl, hn⟩ := State.readBytes_ok hb
  rcases hn with hn | ⟨h0, h1⟩
  · omega
  · exact ⟨h0, h1, rfl⟩

/-- Two words are equal when their four bytes are. -/
theorem State.wordAt_eq_iff (s : State) (a b : Nat) :
    s.wordAt a = s.wordAt b ↔ ∀ j < 4, s.srcAt (a + j) = s.srcAt (b + j) := by
  have key : ∀ c, (s.wordAt c).toNat = (s.srcAt c).toNat + 256 * ((s.srcAt (c + 1)).toNat +
      256 * ((s.srcAt (c + 2)).toNat + 256 * (s.srcAt (c + 3)).toNat)) := by
    intro c
    have h0 := (s.srcAt c).isLt
    have h1 := (s.srcAt (c + 1)).isLt
    have h2 := (s.srcAt (c + 2)).isLt
    have h3 := (s.srcAt (c + 3)).isLt
    simp only [State.srcAt] at h0 h1 h2 h3 ⊢
    simp only [State.wordAt, Memory.bytes, leValue, BitVec.toNat_ofNat, Nat.mul_zero, Nat.add_zero, Nat.add_assoc,
      Nat.reduceAdd]
    omega
  constructor
  · intro h j hj
    have h := congrArg BitVec.toNat h
    rw [key, key] at h
    have h0 := (s.srcAt a).isLt
    have h1 := (s.srcAt (a + 1)).isLt
    have h2 := (s.srcAt (a + 2)).isLt
    have h3 := (s.srcAt (a + 3)).isLt
    have g0 := (s.srcAt b).isLt
    have g1 := (s.srcAt (b + 1)).isLt
    have g2 := (s.srcAt (b + 2)).isLt
    have g3 := (s.srcAt (b + 3)).isLt
    apply BitVec.eq_of_toNat_eq
    have : j = 0 ∨ j = 1 ∨ j = 2 ∨ j = 3 := by omega
    rcases this with rfl | rfl | rfl | rfl
    · simp only [Nat.add_zero]; omega
    all_goals omega
  · intro h
    apply BitVec.eq_of_toNat_eq
    rw [key, key]
    have e0 := congrArg BitVec.toNat (h 0 (by omega))
    have e1 := congrArg BitVec.toNat (h 1 (by omega))
    have e2 := congrArg BitVec.toNat (h 2 (by omega))
    have e3 := congrArg BitVec.toNat (h 3 (by omega))
    simp only [Nat.add_zero] at e0
    omega

/-! ### Writes -/

theorem State.writeDst_of {s : State} {a : Nat} {bs : List Byte} (h : bs = [] ∨ a + bs.length ≤ s.dstSize) :
    s.writeDst a bs = .ok { s with dst := Memory.store s.dst a bs } := by
  unfold State.writeDst
  cases bs with
  | nil => rfl
  | cons b bs => rw [if_neg (by simp), if_pos (by simpa using h)]

theorem State.writeDst_ok {s t : State} {a : Nat} {bs : List Byte} (h : s.writeDst a bs = .ok t) :
    t = { s with dst := Memory.store s.dst a bs } ∧ (bs = [] ∨ a + bs.length ≤ s.dstSize) := by
  unfold State.writeDst at h
  split at h
  · next hb =>
    have hb : bs = [] := by simpa using hb
    subst hb
    cases h
    exact ⟨rfl, .inl rfl⟩
  · split at h
    · cases h; exact ⟨rfl, .inr (by assumption)⟩
    · cases h

theorem State.memWrite_of {s : State} {a n v : Nat} (h : a + n ≤ s.dstSize) :
    s.memWrite a n v = .ok { s with dst := Memory.store s.dst a (leBytes n v) } :=
  State.writeDst_of (.inr (by simpa using h))

theorem State.memWrite_ok {s t : State} {a n v : Nat} (h : s.memWrite a n v = .ok t) :
    t = { s with dst := Memory.store s.dst a (leBytes n v) } ∧ (n = 0 ∨ a + n ≤ s.dstSize) := by
  obtain ⟨ht, hb⟩ := State.writeDst_ok h
  refine ⟨ht, hb.imp (fun hb => ?_) (fun hb => by simpa using hb)⟩
  simpa using congrArg List.length hb

/-! ### The hash table -/

/-- R126: a lookup returns the entry. -/
theorem State.htGet_of {s : State} {i : Bucket} (h : s.bucketOk i) : s.htGet i = (s.htAt i, s) := if_pos h

/-- An insertion at an index the selected variant has writes that entry. -/
theorem State.htSet_of {s : State} {i : Bucket} (h : s.bucketOk i) (p : Pos) : s.htSet i p = s.htPut i p := if_pos h

/-- A lookup changes nothing but the counter of draws, wherever the index is. -/
theorem State.htGet_fields (s : State) (i : Bucket) : (s.htGet i).2 = { s with draws := (s.htGet i).2.draws } := by
  unfold State.htGet
  split <;> rfl

/-- An insertion at an index the wide table has not overwrites some entry or none (log entry 15). -/
theorem State.htSet_stray {s : State} {i : Bucket} (h : ¬s.bucketOk i) (p : Pos) :
    s.htSet i p = { s with htW := s.strayPut p, draws := s.draws + 1 } := if_neg h

/-- The wide hash has 12 bits, so it is an index of the wide table (R122). -/
theorem hashOf_wide_lt (w : Word) : (hashOf .wide w).toNat < tableSizeW := by
  simp only [hashOf, BitVec.toNat_setWidth, tableSizeW]
  exact Nat.lt_of_le_of_lt (Nat.mod_le _ _) (hashWide w).isLt

theorem State.hashOf_bucketOk (s : State) (w : Word) : s.bucketOk (hashOf s.variant w) := by
  intro h
  rw [h]
  exact hashOf_wide_lt w

theorem State.hashAt_of {s : State} {p : Int} (h0 : 0 ≤ p) (h1 : p.toNat + 4 ≤ s.srcSize) :
    s.hashAt p = .ok (hashOf s.variant (s.wordAt p.toNat)) := by
  rw [State.hashAt, State.word_of h0 h1, except_map_ok]

theorem State.hashAt_ok {s : State} {p : Int} {b : Bucket} (h : s.hashAt p = .ok b) :
    0 ≤ p ∧ p.toNat + 4 ≤ s.srcSize ∧ b = hashOf s.variant (s.wordAt p.toNat) := by
  obtain ⟨w, hw, rfl⟩ := except_map_eq_ok h
  obtain ⟨h0, h1, rfl⟩ := State.word_ok hw
  exact ⟨h0, h1, rfl⟩

/-- R128: a candidate is accepted exactly when it is at a legal distance and its word is the same. -/
theorem State.accept_of {s : State} {ref ip : Int} (h0 : 0 ≤ ref) (h1 : ip.toNat + 4 ≤ s.srcSize) :
    s.accept ref ip = .ok (decide ((1 ≤ ip - ref ∧ ip - ref ≤ maxDistance) ∧ s.wordAt ref.toNat = s.wordAt ip.toNat)) := by
  unfold State.accept
  split
  · next h =>
    rw [State.word_of h0 (by omega), State.word_of (by omega) h1]
    exact congrArg Except.ok (decide_eq_decide.mpr ⟨fun hw => ⟨h, hw⟩, And.right⟩)
  · next h => rw [decide_eq_false fun hc => h hc.1]

theorem State.accept_ok {s : State} {ref ip : Int} {b : Bool} (h : s.accept ref ip = .ok b) :
    b = true → 0 ≤ ref ∧ 1 ≤ ip - ref ∧ ip - ref ≤ maxDistance ∧ ip.toNat + 4 ≤ s.srcSize ∧
      s.wordAt ref.toNat = s.wordAt ip.toNat := by
  rintro rfl
  unfold State.accept at h
  split at h
  · next hd =>
    obtain ⟨a, ha, h⟩ := except_bind_ok h
    obtain ⟨c, hc, h⟩ := except_bind_ok h
    obtain ⟨r0, r1, rfl⟩ := State.word_ok ha
    obtain ⟨i0, i1, rfl⟩ := State.word_ok hc
    exact ⟨r0, hd.1, hd.2, i1, by simpa using h⟩
  · simp at h

/-! ### TUN and PACK -/

theorem extBytes_length (r : Nat) : (extBytes r).length = r / 255 + 1 := by simp [extBytes]

theorem State.packToken_of {s : State} {l : Nat} (h : s.op.toNat + 1 ≤ s.dstSize) :
    s.packToken l = .ok { s with
      dst := Memory.store s.dst s.op.toNat [tokenByte l], tokpos := s.op, op := advance s.op 1 } := by
  rw [State.packToken, State.writeDst_of (.inr (by simpa using h))]
  rfl

theorem State.packToken_ok {s t : State} {l : Nat} (h : s.packToken l = .ok t) :
    s.op.toNat + 1 ≤ s.dstSize ∧ t = { s with
      dst := Memory.store s.dst s.op.toNat [tokenByte l], tokpos := s.op, op := advance s.op 1 } := by
  obtain ⟨u, hu, h⟩ := except_bind_ok h
  obtain ⟨rfl, hb⟩ := State.writeDst_ok hu
  cases h
  exact ⟨by simpa using hb, rfl⟩

theorem State.packExt_of {s : State} {r : Nat} (h : s.op.toNat + (r / 255 + 1) ≤ s.dstSize) :
    s.packExt r = .ok { s with
      dst := Memory.store s.dst s.op.toNat (extBytes r), op := advance s.op (r / 255 + 1) } := by
  rw [State.packExt, State.writeDst_of (.inr (by simpa [extBytes_length] using h)), extBytes_length]
  rfl

theorem State.packExt_ok {s t : State} {r : Nat} (h : s.packExt r = .ok t) :
    s.op.toNat + (r / 255 + 1) ≤ s.dstSize ∧ t = { s with
      dst := Memory.store s.dst s.op.toNat (extBytes r), op := advance s.op (r / 255 + 1) } := by
  obtain ⟨u, hu, h⟩ := except_bind_ok h
  obtain ⟨rfl, hb⟩ := State.writeDst_ok hu
  cases h
  refine ⟨?_, by rw [extBytes_length]⟩
  rcases hb with hb | hb
  · simp [extBytes] at hb
  · simpa [extBytes_length] using hb

theorem State.tunExt_of {s : State} (h : s.ip.toNat < s.srcSize) :
    s.tunExt = .ok (s.takeExt (s.srcAt s.ip.toNat), extMore (s.srcAt s.ip.toNat)) := by
  rw [State.tunExt, State.readByte_of (sp := .src) (pos_nonneg _) (by simpa [State.size] using h)]
  simp [State.srcAt, State.mem]

theorem State.tunExt_ok {s : State} {r : State × Bool} (h : s.tunExt = .ok r) :
    s.ip.toNat < s.srcSize ∧ r = (s.takeExt (s.srcAt s.ip.toNat), extMore (s.srcAt s.ip.toNat)) := by
  obtain ⟨b, hb, h⟩ := except_bind_ok h
  obtain ⟨_, h1, rfl⟩ := State.readByte_ok hb
  cases h
  exact ⟨by simpa [State.size] using h1, by simp [State.srcAt, State.mem]⟩

theorem State.tunExt_fault {s : State} (h : s.srcSize ≤ s.ip.toNat) : s.tunExt = .error .srcRange := by
  rw [State.tunExt, State.readByte_srcRange (pos_nonneg _) (by simpa using h)]
  rfl

/-! ### Copies -/

theorem State.fcpExact_of {s : State} {a d n : Nat} (hs : n = 0 ∨ a + n ≤ s.srcSize) (hd : n = 0 ∨ d + n ≤ s.dstSize) :
    s.fcpExact a d n = .ok { s with dst := Memory.store s.dst d (Memory.bytes .src s.src a n) } := by
  rcases hs with rfl | hs
  · rfl
  · rw [State.fcpExact, State.stride, State.readBytes_of (sp := .src) (by omega) (by simpa [State.size] using hs), except_ok_bind,
      State.writeDst_of (by rcases hd with rfl | hd; exact .inl rfl; exact .inr (by simpa using hd))]
    rfl

theorem State.stride_ok {s t : State} {k a d : Nat} {m : Space} (h : s.stride k m a d = .ok t) :
    t = { s with dst := Memory.store s.dst d (Memory.bytes m (s.mem m) a k) } ∧
      (k = 0 ∨ (a + k ≤ s.size m ∧ d + k ≤ s.dstSize)) := by
  obtain ⟨bs, hb, h⟩ := except_bind_ok h
  obtain ⟨rfl, hn⟩ := State.readBytes_ok hb
  obtain ⟨rfl, hd⟩ := State.writeDst_ok h
  refine ⟨rfl, ?_⟩
  rcases hn with hn | ⟨_, hn⟩
  · exact .inl hn
  · rcases hd with hd | hd
    · exact .inl (by simpa using congrArg List.length hd)
    · exact .inr ⟨by simpa using hn, by simpa using hd⟩

theorem State.stride_of {s : State} {k a d : Nat} {m : Space} (hs : a + k ≤ s.size m) (hd : d + k ≤ s.dstSize) :
    s.stride k m a d = .ok { s with dst := Memory.store s.dst d (Memory.bytes m (s.mem m) a k) } := by
  rw [State.stride, State.readBytes_of (by omega) (by simpa using hs), except_ok_bind,
    State.writeDst_of (.inr (by simpa using hd))]
  rfl

theorem State.fcpExact_ok {s t : State} {a d n : Nat} (h : s.fcpExact a d n = .ok t) :
    t = { s with dst := Memory.store s.dst d (Memory.bytes .src s.src a n) } ∧
      (n = 0 ∨ (a + n ≤ s.srcSize ∧ d + n ≤ s.dstSize)) := State.stride_ok h

@[simp] theorem drawBytes_length (k n : Nat) : (drawBytes k n).length = n := by simp [drawBytes]

@[simp] theorem State.zoneBytes_length (s : State) (e : Nat) : (s.zoneBytes e).length = min 7 (s.dstSize - e) := by
  simp [State.zoneBytes]

theorem zoneOf_lt (n : Nat) : zoneOf n < 8 := Nat.mod_lt _ (by omega)

theorem State.fcpWild_of {s : State} {a d n : Nat} (hs : n = 0 ∨ a + n ≤ s.srcSize) (hd : d + n + zoneOf n ≤ s.dstSize) :
    s.fcpWild a d n = .ok { s with
      dst := Memory.store s.dst d (Memory.bytes .src s.src a n ++ drawBytes s.draws (zoneOf n))
      draws := s.draws + zoneOf n } := by
  rw [State.fcpWild, State.fcpExact_of hs (.inr (by omega)), except_ok_bind,
    State.writeDst_of (.inr (by simpa using hd)), except_ok_bind, Memory.store_append, Memory.bytes_length]

theorem State.fcpWild_ok {s t : State} {a d n : Nat} (h : s.fcpWild a d n = .ok t) :
    t = { s with
      dst := Memory.store s.dst d (Memory.bytes .src s.src a n ++ drawBytes s.draws (zoneOf n))
      draws := s.draws + zoneOf n } ∧ (n = 0 ∨ (a + n ≤ s.srcSize ∧ d + n + zoneOf n ≤ s.dstSize)) := by
  obtain ⟨u, hu, h⟩ := except_bind_ok h
  obtain ⟨v, hv, h⟩ := except_bind_ok h
  obtain ⟨rfl, hn⟩ := State.fcpExact_ok hu
  obtain ⟨rfl, hz⟩ := State.writeDst_ok hv
  cases h
  refine ⟨by rw [Memory.store_append, Memory.bytes_length], ?_⟩
  rcases hn with hn | ⟨hs, hd⟩
  · exact .inl hn
  · refine .inr ⟨hs, ?_⟩
    rcases hz with hz | hz
    · have : zoneOf n = 0 := by simpa using congrArg List.length hz
      omega
    · simpa using hz

theorem State.mcopyExact_of {s : State} {ref : Int} {d n : Nat} (h0 : 0 ≤ ref) (h1 : ref.toNat + n ≤ s.dstSize)
    (h2 : d + n ≤ s.dstSize) :
    s.mcopyExact ref d n = .ok { s with dst := Memory.copyUp .dst s.dst ref.toNat d n } := by
  unfold State.mcopyExact
  rw [if_neg (by omega)]
  split
  · next h => subst h; rfl
  · rw [if_pos ⟨h1, h2⟩]

theorem State.mcopyExact_ok {s t : State} {ref : Int} {d n : Nat} (h : s.mcopyExact ref d n = .ok t) :
    t = { s with dst := Memory.copyUp .dst s.dst ref.toNat d n } ∧ 0 ≤ ref ∧
      (n = 0 ∨ (ref.toNat + n ≤ s.dstSize ∧ d + n ≤ s.dstSize)) := by
  unfold State.mcopyExact at h
  split at h
  · cases h
  · split at h
    · next hn => subst hn; cases h; exact ⟨rfl, by omega, .inl rfl⟩
    · split at h
      · cases h; exact ⟨rfl, by omega, .inr (by assumption)⟩
      · cases h

/-- R60: a match source before the start of the output. -/
theorem State.mcopyExact_badRef {s : State} {ref : Int} (d n : Nat) (h : ref < 0) :
    s.mcopyExact ref d n = .error .badRef := by
  rw [State.mcopyExact, if_pos h]

theorem State.mcopyWild_of {s : State} {ref : Int} {d n : Nat} (h0 : 0 ≤ ref) (h1 : ref.toNat + n ≤ s.dstSize)
    (h2 : d + n ≤ s.dstSize) :
    ∃ z : List Byte, z.length = min 7 (s.dstSize - (d + n)) ∧ s.mcopyWild ref d n = .ok { s with
      dst := Memory.store (Memory.copyUp .dst s.dst ref.toNat d n) (d + n) z, draws := s.draws + 7 } := by
  refine ⟨_, State.zoneBytes_length { s with dst := Memory.copyUp .dst s.dst ref.toNat d n } (d + n), ?_⟩
  rw [State.mcopyWild, State.mcopyExact_of h0 h1 h2, except_ok_bind,
    State.writeDst_of (.inr (by rw [State.zoneBytes_length]; dsimp only; omega))]
  rfl

theorem State.mcopyWild_ok {s t : State} {ref : Int} {d n : Nat} (h : s.mcopyWild ref d n = .ok t) :
    ∃ z : List Byte, z.length = min 7 (s.dstSize - (d + n)) ∧ t = { s with
      dst := Memory.store (Memory.copyUp .dst s.dst ref.toNat d n) (d + n) z, draws := s.draws + 7 } ∧
      0 ≤ ref ∧ (n = 0 ∨ (ref.toNat + n ≤ s.dstSize ∧ d + n ≤ s.dstSize)) := by
  obtain ⟨u, hu, h⟩ := except_bind_ok h
  obtain ⟨v, hv, h⟩ := except_bind_ok h
  obtain ⟨rfl, h0, hn⟩ := State.mcopyExact_ok hu
  obtain ⟨rfl, hz⟩ := State.writeDst_ok hv
  cases h
  exact ⟨_, State.zoneBytes_length { s with dst := Memory.copyUp .dst s.dst ref.toNat d n } (d + n), rfl, h0, hn⟩

/-! ### The end of a decompress command -/

/-- All that the end of a decompress command does beside its registers (R193, R284): bytes of DST and the counter of draws. -/
theorem State.loseTail_eq (s : State) : s.loseTail = { s with dst := s.loseTail.dst, draws := s.loseTail.draws } := by
  unfold State.loseTail
  split <;> rfl

/-- At the output limit nothing is unspecified. -/
theorem State.loseTail_of_le {s : State} (h : s.oend.toNat ≤ s.op.toNat) : s.loseTail = s :=
  if_pos (by unfold State.tailSize; omega)

/-- Only the bytes from `op` to the output limit are unspecified. -/
theorem State.loseTail_dstAt (s : State) {a : Nat} (h : ¬(s.op.toNat ≤ a ∧ a < s.oend.toNat)) :
    s.loseTail.dstAt a = s.dstAt a := by
  unfold State.loseTail
  split
  · rfl
  · exact (Memory.byte_redraw _ _ _ _ _ _).trans (if_neg (by unfold State.tailSize; omega))

theorem State.loseTail_wf {s : State} (h : Memory.wf s.dst) : Memory.wf s.loseTail.dst := by
  unfold State.loseTail
  split
  · exact h
  · exact Memory.redraw_wf _ _ _ h

theorem State.loseTail_mem {s : State} (h : ∀ e ∈ s.dst, e.1 < s.dstSize) : ∀ e ∈ s.loseTail.dst, e.1 < s.dstSize := by
  unfold State.loseTail
  split
  · exact h
  · intro e he
    rcases Memory.mem_redraw he with he | ⟨_, he⟩
    · exact h e he
    · unfold State.tailSize at he
      omega

/-- All that DONE does after DEC (R190, R193, R197). -/
theorem State.endDec_eq (s : State) : s.endDec = { s with
    dst := s.loseTail.dst, draws := s.loseTail.draws, result := s.endDec.result, status := s.endDec.status, st := .done } := by
  rw [State.endDec, State.loseTail_eq]

/-- All that the error entry does (R283, R284). -/
theorem State.raiseOverflow_eq (s : State) : s.raiseOverflow = { s with
    dst := s.loseTail.dst, draws := s.loseTail.draws, result := -s.ip, status := s.status.fail, st := .error } := by
  rw [State.raiseOverflow, State.loseTail_eq]

theorem State.endDec_dstAt (s : State) {a : Nat} (h : ¬(s.op.toNat ≤ a ∧ a < s.oend.toNat)) : s.endDec.dstAt a = s.dstAt a :=
  s.loseTail_dstAt h

theorem State.raiseOverflow_dstAt (s : State) {a : Nat} (h : ¬(s.op.toNat ≤ a ∧ a < s.oend.toNat)) :
    s.raiseOverflow.dstAt a = s.dstAt a :=
  s.loseTail_dstAt h

/-! ### The host beside a running command -/

/-- Only the host's own fields change beside an engine step. -/
theorem State.hostBusy_eq (s : State) : s.hostBusy = { s with host := s.hostBusy.host, hostData := s.hostBusy.hostData } := by
  unfold State.hostBusy
  split <;> rfl

end Sys2Proof.Machine
end

