-- ==== Sys2Proof/Laws/Bytes.lean ====
section
/-! SUPPORT. What a store and a match copy leave in DST, byte by byte, in the terms of the statements: `State.wrote`, `State.matchByte`,
`extOf` and `headOf`. -/

namespace Sys2Proof.Machine

/-- A store of bytes, as `State.wrote` says it. -/
theorem State.wrote_store (s t : State) (a : Nat) (bs : List Byte) (h : t.dst = Memory.store s.dst a bs) : s.wrote t a bs := by
  intro c
  simp only [State.dstAt, h, Memory.byte_store]
  split
  · exact (List.getD_eq_getElem _ _ _).symm
  · rfl

/-- The extension bytes as PACK.EXT writes them, where the length needs them (R71, R106). -/
theorem extOf_eq (l : Nat) : extOf l = if l < 15 then [] else extBytes (l - 15) := rfl

theorem extOf_length (l : Nat) : (extOf l).length = extCount l := by
  unfold extOf extCount
  split <;> simp

theorem headOf_length (l : Nat) : (headOf l).length = 1 + extCount l := by
  simp [headOf, extOf_length, Nat.add_comm]

theorem tokenByte_eq (l : Nat) : tokenByte l = BitVec.ofNat 8 (16 * min l 15) := by
  unfold tokenByte
  congr 1
  simp only [Nat.shiftLeft_eq, runMask, mlBits]
  split <;> omega

/-- Two cursor moves in a row. -/
theorem advance_advance (p : Pos) (m n : Nat) : advance (advance p m) n = advance p (m + n) := by
  apply BitVec.eq_of_toNat_eq
  simp only [advance, BitVec.toNat_ofNat]
  omega

@[simp] theorem advance_zero (p : Pos) : advance p 0 = p := by simp [advance]

/-- R145, R153: a token and its extension bytes are the head of a sequence. -/
theorem State.packLen_of {s : State} {l : Nat} (hs : s.sizesOk) (h : s.op.toNat + (headOf l).length ≤ s.dstSize) :
    s.packLen l = .ok { s with
      dst := Memory.store s.dst s.op.toNat (headOf l), tokpos := s.op, op := advance s.op (headOf l).length } := by
  have hl := headOf_length l
  have hm : s.dstSize ≤ 2147483647 := hs.2.2.2
  rw [State.packLen, State.packToken_of (by omega), except_ok_bind]
  have ha : (advance s.op 1).toNat = s.op.toNat + 1 := advance_toNat (by omega)
  simp only [runMask]
  split
  · next h15 =>
    have hc : extCount l = (l - 15) / 255 + 1 := if_neg (by omega)
    rw [State.packExt_of (by simp only [ha]; omega), hl]
    simp only [ha, advance_advance, hc, headOf, extOf_eq, if_neg (show ¬ l < 15 by omega), Memory.store_cons, tokenByte_eq,
      Memory.store_nil, Nat.add_comm 1]
  · next h15 =>
    have hc : extCount l = 0 := if_pos (by omega)
    rw [hl]
    simp only [hc, headOf, extOf_eq, if_pos (show l < 15 by omega), tokenByte_eq]

theorem State.packLen_ok {s t : State} {l : Nat} (hs : s.sizesOk) (h : s.packLen l = .ok t) :
    s.op.toNat + (headOf l).length ≤ s.dstSize ∧ t = { s with
      dst := Memory.store s.dst s.op.toNat (headOf l), tokpos := s.op, op := advance s.op (headOf l).length } := by
  have hl := headOf_length l
  have hm : s.dstSize ≤ 2147483647 := hs.2.2.2
  have key : s.op.toNat + (headOf l).length ≤ s.dstSize := by
    obtain ⟨u, hu, h⟩ := except_bind_ok h
    obtain ⟨h1, rfl⟩ := State.packToken_ok hu
    have ha : (advance s.op 1).toNat = s.op.toNat + 1 := advance_toNat (by omega)
    simp only [runMask] at h
    split at h
    · next h15 =>
      have hc : extCount l = (l - 15) / 255 + 1 := if_neg (by omega)
      obtain ⟨h2, -⟩ := State.packExt_ok h
      simp only [ha] at h2
      omega
    · next h15 =>
      have hc : extCount l = 0 := if_pos (by omega)
      omega
  refine ⟨key, ?_⟩
  rw [State.packLen_of hs key] at h
  cases h
  rfl

/-- R229: a match copy whose source lies before its destination repeats the bytes between them. -/
theorem Memory.byte_copyUp_period (sp : Space) (m : Memory) {r d n i : Nat} (hr : r < d) (hi : i < n) :
    Memory.byte sp (Memory.copyUp sp m r d n) (d + i) = Memory.byte sp m (r + i % (d - r)) := by
  induction i using Nat.strongRecOn with
  | _ i ih =>
    rw [Memory.byte_copyUp sp m (by omega) hi]
    by_cases h : i < d - r
    · rw [Nat.mod_eq_of_lt h, Memory.byte_copyUp_outside sp m (by omega)]
    · obtain ⟨j, rfl⟩ : ∃ j, i = j + (d - r) := ⟨i - (d - r), by omega⟩
      rw [show r + (j + (d - r)) = d + j by omega, ih j (by omega) (by omega), Nat.add_mod_right]

/-- A match copy whose source does not lie before its destination reads no byte it has written. -/
theorem Memory.byte_copyUp_ahead (sp : Space) (m : Memory) {r d n i : Nat} (hr : d ≤ r) (hi : i < n) :
    Memory.byte sp (Memory.copyUp sp m r d n) (d + i) = Memory.byte sp m (r + i) := by
  induction n generalizing m r d i with
  | zero => omega
  | succ n ih =>
    simp only [Memory.copyUp]
    cases i with
    | zero => rw [Memory.byte_copyUp_outside sp _ (by omega)]; simp [Memory.byte_insert]
    | succ i =>
      have h := ih (Assoc.insert m d (Memory.byte sp m r)) (r := r + 1) (d := d + 1) (i := i) (by omega) (by omega)
      rw [show d + (i + 1) = d + 1 + i by omega, h, Memory.byte_insert, if_neg (by omega), show r + (i + 1) = r + 1 + i by omega]

/-- R229: what a match copy leaves in DST. -/
theorem State.dstAt_copyUp (s t : State) (r d n : Nat) (h : t.dst = Memory.copyUp .dst s.dst r d n) (c : Nat) :
    t.dstAt c = if d ≤ c ∧ c < d + n then s.matchByte r d (c - d) else s.dstAt c := by
  simp only [State.dstAt, h]
  split
  · next hc =>
    obtain ⟨i, rfl⟩ : ∃ i, c = d + i := ⟨c - d, by omega⟩
    simp only [State.matchByte, State.dstAt, Nat.add_sub_cancel_left]
    split
    · next hr => exact Memory.byte_copyUp_period .dst s.dst hr (by omega)
    · next hr => exact Memory.byte_copyUp_ahead .dst s.dst (by omega) (by omega)
  · next hc => exact Memory.byte_copyUp_outside .dst s.dst (by omega)

/-- R231: a match copy whose source ends at or before its destination is a store of the source bytes. -/
theorem Memory.copyUp_eq_store (sp : Space) (m : Memory) {r d n : Nat} (h : r + n ≤ d) :
    Memory.copyUp sp m r d n = Memory.store m d (Memory.bytes sp m r n) := by
  induction n generalizing m r d with
  | zero => rfl
  | succ n ih =>
    simp only [Memory.copyUp, Memory.bytes, Memory.store_cons]
    rw [ih _ (by omega)]
    congr 1
    exact Memory.bytes_store_outside sp m (a := d) (bs := [Memory.byte sp m r]) (.inl (by omega))

/-- Every other entry of the selected variant after an insert (R126). -/
theorem State.htAt_htPut_of_ne (s : State) {i j : Bucket} (p : Pos) (h : j ≠ i) : (s.htPut i p).htAt j = s.htAt j := by
  unfold State.htPut State.htAt
  cases hv : s.variant <;> simp only [Table.get_set, BitVec.toNat_inj, if_neg h]

/-- The entry itself after an insert of a position that fits (R126). -/
theorem State.htAt_htPut_self (s : State) {i : Bucket} {p : Pos} (hp : s.entryOk p) : (s.htPut i p).htAt i = p := by
  unfold State.htPut State.htAt
  cases hv : s.variant with
  | wide => simp only [Table.get_set, if_true]
  | narrow =>
    have hp : p.toNat < 2 ^ 16 := hp hv
    simp only [Table.get_set, if_true, narrowEntryOf, if_pos hp]
    apply BitVec.eq_of_toNat_eq
    simp only [BitVec.toNat_setWidth]
    omega

/-- An entry of the selected variant after an insert of a position that fits (R126). -/
theorem State.htAt_htPut (s : State) {i : Bucket} {p : Pos} (hp : s.entryOk p) (j : Bucket) :
    (s.htPut i p).htAt j = if j = i then p else s.htAt j := by
  split
  · next h => rw [h, State.htAt_htPut_self s hp]
  · next h => exact State.htAt_htPut_of_ne s p h

/-- The wide table after an insertion at an index it has not: at most one entry is the position, the others are as before. -/
theorem State.strayPut_get (s : State) (p : Pos) :
    ∃ k : Option Bucket, ∀ j : Bucket, Table.get (s.strayPut p) j.toNat = if k = some j then p else Table.get s.htW j.toNat := by
  unfold State.strayPut
  split
  · next n _ =>
    refine ⟨some (n.setWidth 13), fun j => ?_⟩
    have e : (n.setWidth 13).toNat = n.toNat := by
      simp only [BitVec.toNat_setWidth]
      omega
    rw [Table.get_set, ← e]
    simp only [BitVec.toNat_inj, Option.some.injEq, eq_comm (a := j)]
  · exact ⟨none, fun j => (if_neg (by simp)).symm⟩

theorem State.strayPut_wf {s : State} (p : Pos) (h : Table.wf s.htW) : Table.wf (s.strayPut p) := by
  unfold State.strayPut
  split
  · exact Table.set_wf _ _ h
  · exact h

theorem State.strayPut_mem {s : State} {p : Pos} (h : ∀ e ∈ s.htW, e.1 < tableSizeW) :
    ∀ e ∈ s.strayPut p, e.1 < tableSizeW := by
  unfold State.strayPut
  split
  · next n _ =>
    intro e he
    rcases Table.mem_set he with he | he
    · exact h e he
    · exact he ▸ n.isLt
  · exact h

/-- Every entry of the selected variant is 0 after a clear (R125). -/
theorem State.htAt_htReset (s : State) (j : Bucket) : s.htReset.htAt j = 0#32 := by
  unfold State.htReset State.htAt
  cases hv : s.variant <;> simp

/-- An insert writes the table and nothing else. -/
theorem State.htPut_fields (s : State) (i : Bucket) (p : Pos) :
    s.htPut i p = { s with htW := (s.htPut i p).htW, htN := (s.htPut i p).htN } := by
  unfold State.htPut
  cases s.variant <;> rfl

/-- A clear writes the table and nothing else. -/
theorem State.htReset_fields (s : State) : s.htReset = { s with htW := s.htReset.htW, htN := s.htReset.htN } := by
  unfold State.htReset
  cases s.variant <;> rfl

/-- An insert writes the table of the selected variant only (log entry 17). -/
theorem State.htPut_other (s : State) (i : Bucket) (p : Pos) : s.otherTableKept (s.htPut i p) s.variant := by
  unfold State.htPut
  constructor <;> intro h <;> rw [h]

/-- A clear empties the table of the selected variant only (log entry 17). -/
theorem State.htReset_other (s : State) : s.otherTableKept s.htReset s.variant := by
  unfold State.htReset
  constructor <;> intro h <;> rw [h]

/-- The entry of a table goes to `ref` exactly (R21). -/
theorem ref_of_entry (r : Word) : r.setWidth 33 = BitVec.ofNat 33 r.toNat ∧ (BitVec.ofNat 33 r.toNat).toInt = r.toNat := by
  have h := r.isLt
  refine ⟨BitVec.eq_of_toNat_eq (by simp), ?_⟩
  rw [BitVec.toInt_eq_toNat_cond, BitVec.toNat_ofNat]
  split <;> omega

/-- R127: HT.PROBE. -/
theorem State.htProbeAt_of {s : State} {p : Pos} (h1 : p.toNat + 4 ≤ s.srcSize) :
    s.htProbeAt p = .ok { s.htPut (hashOf s.variant (s.wordAt p.toNat)) p with
      h := hashOf s.variant (s.wordAt p.toNat)
      ref := BitVec.ofNat 33 (s.htAt (hashOf s.variant (s.wordAt p.toNat))).toNat } := by
  rw [State.htProbeAt, State.hashAt_of (pos_nonneg _) (by simpa using h1)]
  simp only [except_ok_bind, pos_toNat]
  rw [State.htGet_of (s.hashOf_bucketOk _), State.htSet_of (s.hashOf_bucketOk _), (ref_of_entry _).1]

theorem State.htProbeAt_ok {s t : State} {p : Pos} (h : s.htProbeAt p = .ok t) :
    p.toNat + 4 ≤ s.srcSize ∧ t = { s.htPut (hashOf s.variant (s.wordAt p.toNat)) p with
      h := hashOf s.variant (s.wordAt p.toNat)
      ref := BitVec.ofNat 33 (s.htAt (hashOf s.variant (s.wordAt p.toNat))).toNat } := by
  obtain ⟨b, hb, -⟩ := except_bind_ok h
  obtain ⟨-, h1, -⟩ := State.hashAt_ok hb
  rw [pos_toNat] at h1
  rw [State.htProbeAt_of h1] at h
  cases h
  exact ⟨h1, rfl⟩

/-- R152: insert a position into the bucket of its own word. -/
theorem State.insertAt_of {s : State} {n : Nat} (h1 : n + 4 ≤ s.srcSize) :
    s.insertAt n = .ok (s.htPut (hashOf s.variant (s.wordAt n)) (BitVec.ofNat 32 n)) := by
  rw [State.insertAt, State.hashAt_of (by omega) (by simpa using h1), except_ok_bind, BitVec.ofInt_natCast, Int.toNat_natCast,
    State.htSet_of (s.hashOf_bucketOk _)]

theorem State.insertAt_ok {s t : State} {p : Int} (h : s.insertAt p = .ok t) :
    0 ≤ p ∧ p.toNat + 4 ≤ s.srcSize ∧ t = s.htPut (hashOf s.variant (s.wordAt p.toNat)) (BitVec.ofInt 32 p) := by
  obtain ⟨b, hb, h⟩ := except_bind_ok h
  obtain ⟨h0, h1, rfl⟩ := State.hashAt_ok hb
  cases h
  exact ⟨h0, h1, State.htSet_of (s.hashOf_bucketOk _) _⟩

/-- R231: moves of 4 bytes at a distance of at least 4 are the byte-serial copy. -/
theorem Memory.strides4_eq (m : Memory) {r d : Nat} (q : Nat) (h : r + 4 ≤ d) :
    Memory.strides4 m r d q = Memory.copyUp .dst m r d (4 * q) := by
  induction q generalizing m r d with
  | zero => rfl
  | succ q ih =>
    rw [Memory.strides4, ih _ (by omega), ← Memory.copyUp_eq_store .dst m h, show 4 * (q + 1) = 4 + 4 * q by omega,
      Memory.copyUp_add]

/-- R230: after the first 4 bytes, a byte at or above the source is the byte of the pattern. -/
theorem Memory.byte_head (m : Memory) {r d k : Nat} (hr : r < d) (hk : k < d - r + 4) :
    Memory.byte .dst (Memory.copyUp .dst m r d 4) (r + k) = Memory.byte .dst m (r + k % (d - r)) := by
  by_cases h : k < d - r
  · rw [Nat.mod_eq_of_lt h, Memory.byte_copyUp_outside .dst m (by omega)]
  · obtain ⟨j, rfl⟩ : ∃ j, k = j + (d - r) := ⟨k - (d - r), by omega⟩
    rw [show r + (j + (d - r)) = d + j by omega, Memory.byte_copyUp_period .dst m hr (by omega), Nat.add_mod_right]

/-- R230: the copy by the back-offset table is the byte-serial copy of R229. -/
theorem Memory.tableCopy_byte (m : Memory) {r d : Nat} (n c : Nat) (hr : r < d) :
    Memory.byte .dst (Memory.tableCopy m r d n) c = Memory.byte .dst (Memory.copyUp .dst m r d (4 + n)) c := by
  by_cases h4 : d - r < 4
  · simp only [Memory.tableCopy, if_pos h4]
    have hb : backOffset (d - r) ≤ 3 ∧ r + 4 - backOffset (d - r) + 4 ≤ d + 4 := by
      obtain h | h | h : d - r = 1 ∨ d - r = 2 ∨ d - r = 3 := by omega
      all_goals rw [h]; simp only [backOffset]; omega
    rw [Memory.strides4_eq _ _ hb.2, ← Memory.copyUp_add, Nat.div_add_mod]
    by_cases hc : d + 4 ≤ c ∧ c < d + 4 + n
    · obtain ⟨i, rfl⟩ : ∃ i, c = d + 4 + i := ⟨c - (d + 4), by omega⟩
      rw [Memory.byte_copyUp_period .dst _ (by omega) (by omega), show d + 4 + i = d + (4 + i) by omega,
        Memory.byte_copyUp_period .dst m hr (by omega)]
      obtain h | h | h : d = r + 1 ∨ d = r + 2 ∨ d = r + 3 := by omega
      all_goals
        subst h
        simp only [Nat.add_sub_cancel_left, backOffset]
      · rw [show r + 4 - 3 + i % (r + 1 + 4 - (r + 4 - 3)) = r + (1 + i % 4) by
          rw [show r + 1 + 4 - (r + 4 - 3) = 4 by omega]; omega, Memory.byte_head m (by omega) (by omega)]
        simp only [Nat.add_sub_cancel_left]
        congr 2; omega
      · rw [show r + 4 - 2 + i % (r + 2 + 4 - (r + 4 - 2)) = r + (2 + i % 4) by
          rw [show r + 2 + 4 - (r + 4 - 2) = 4 by omega]; omega, Memory.byte_head m (by omega) (by omega)]
        simp only [Nat.add_sub_cancel_left]
        congr 2; omega
      · rw [show r + 4 - 3 + i % (r + 3 + 4 - (r + 4 - 3)) = r + (1 + i % 6) by
          rw [show r + 3 + 4 - (r + 4 - 3) = 6 by omega]; omega, Memory.byte_head m (by omega) (by omega)]
        simp only [Nat.add_sub_cancel_left]
        congr 2; omega
    · rw [Memory.byte_copyUp_outside .dst _ (by omega), Memory.copyUp_add]
      exact (Memory.byte_copyUp_outside .dst _ (by omega)).symm
  · simp only [Memory.tableCopy, if_neg h4]
    rw [Memory.strides4_eq _ _ (by omega), ← Memory.copyUp_add, Nat.div_add_mod, ← Memory.copyUp_eq_store .dst m (by omega),
      ← Memory.copyUp_add]

end Sys2Proof.Machine
end

