-- ==== Sys2Proof/Laws/Decode.lean ====
section
/-! SUPPORT. The laws of the decoder's operand readers, in both directions: what they read from the bytes of a value, and which bytes
they read a value from. -/

namespace Sys2Proof

open Machine

theorem takeNat_leBytes (n v : Nat) (rest : List Byte) : takeNat n (leBytes n v ++ rest) = some (v % 256 ^ n, rest) := by
  induction n generalizing v with
  | zero => simp [takeNat, leBytes, Nat.mod_one]
  | succ n ih =>
    simp only [leBytes, List.cons_append, takeNat, ih, BitVec.toNat_ofNat]
    rw [show (256 : Nat) ^ (n + 1) = 256 * 256 ^ n by rw [Nat.pow_succ, Nat.mul_comm], Nat.mod_mul]

/-- An operand is read from its little-endian bytes, whatever follows them. -/
theorem takeOperand_leBytes {w : Nat} (n : Nat) (x : BitVec w) (rest : List Byte) (h : 2 ^ w ≤ 256 ^ n) :
    takeOperand w n (leBytes n x.toNat ++ rest) = .ok (x, rest) := by
  have hx := x.isLt
  simp [takeOperand, takeNat_leBytes, Nat.mod_eq_of_lt (Nat.lt_of_lt_of_le hx h), hx]

theorem takeNat_eq_some {n v : Nat} {bs rest : List Byte} (h : takeNat n bs = some (v, rest)) :
    v < 256 ^ n ∧ bs = leBytes n v ++ rest := by
  induction n generalizing bs v with
  | zero => simp only [takeNat, Option.some.injEq, Prod.mk.injEq] at h; obtain ⟨rfl, rfl⟩ := h; simp [leBytes]
  | succ n ih =>
    cases bs with
    | nil => simp [takeNat] at h
    | cons b bs =>
      simp only [takeNat] at h
      split at h
      · next u r hu =>
        simp only [Option.some.injEq, Prod.mk.injEq] at h
        obtain ⟨rfl, rfl⟩ := h
        obtain ⟨h1, h2⟩ := ih hu
        have hb := b.isLt
        refine ⟨by rw [Nat.pow_succ]; omega, ?_⟩
        have e : (b.toNat + 256 * u) / 256 = u := by omega
        simp only [leBytes, e, List.cons_append, ← h2]
        congr 1
        apply BitVec.eq_of_toNat_eq
        simp only [BitVec.toNat_ofNat]
        omega
      · cases h

/-- What an operand is read from is its little-endian bytes. -/
theorem takeOperand_eq_ok {w n : Nat} {bs rest : List Byte} {x : BitVec w} (h : takeOperand w n bs = .ok (x, rest)) :
    bs = leBytes n x.toNat ++ rest := by
  unfold takeOperand at h
  split at h
  · cases h
  · next v r hv =>
    split at h
    · next hlt =>
      cases h
      rw [BitVec.toNat_ofNat, Nat.mod_eq_of_lt hlt]
      exact (takeNat_eq_some hv).2
    · cases h

theorem checked_of {i : Instr} (h : i.wf = true) (rest : List Byte) : checked i rest = .ok (i, rest) := if_pos h

theorem checked_eq_ok {i j : Instr} {bs rest : List Byte} (h : checked i bs = .ok (j, rest)) :
    i.wf = true ∧ j = i ∧ rest = bs := by
  unfold checked at h
  split at h
  · cases h; exact ⟨by assumption, rfl, rfl⟩
  · cases h

/-- A read that goes on after an operand. -/
theorem decode_bind_ok {α β : Type} {r : Except DecodeError α} {k : α → Except DecodeError β} {b : β}
    (h : (r >>= k) = .ok b) : ∃ a, r = .ok a ∧ k a = .ok b := by
  cases r with
  | ok a => exact ⟨a, rfl, h⟩
  | error f => exact absurd h (by simp [bind, Except.bind])

/-- The code of a command is read from the four bytes of CMD (R85). -/
theorem decode_cmd (w : Word) :
    decode .cmd (leBytes 4 w.toNat) = (decodeCmd w).map fun i => (i, []) := by
  have h := takeOperand_leBytes 4 w [] (by decide)
  rw [List.append_nil] at h
  simp only [decode, h, bind, Except.bind]
  cases decodeCmd w <;> rfl

end Sys2Proof
end

