-- ==== Sys2Proof/Laws/Loops.lean ====
section
/-! SUPPORT. What the loops do: the backward one of E.CATCHUP (R144) and the forward one of E.EXTEND (R148), how far the cursors go, over
which bytes, and why they stop; and the loop of TUN.LEN (R103) over the extension bytes. -/

namespace Sys2Proof.Machine

theorem ofInt_pos_sub (p : Pos) (n : Nat) (h : n ≤ p.toNat) : BitVec.ofInt 32 (pos p - n) = BitVec.ofNat 32 (p.toNat - n) := by
  rw [pos, show (p.toNat : Int) - n = ((p.toNat - n : Nat) : Int) by omega, BitVec.ofInt_natCast]

/-- A register `ref` that holds a small number holds it exactly. -/
theorem ref_toInt {x : Int} (h0 : -4294967296 ≤ x) (h1 : x < 4294967296) : (BitVec.ofInt 33 x).toInt = x := by
  rw [BitVec.toInt_ofInt]
  exact Int.bmod_eq_of_le (by omega) (by omega)

/-- The backward loop of E.CATCHUP. -/
theorem catchupLoop_of {s : State} {n : Nat} (hr : 0 ≤ s.ref.toInt) (hi : s.ip.toNat ≤ s.srcSize)
    (hrs : s.ref.toInt ≤ s.srcSize) (hn : s.ip.toNat - s.anchor.toNat ≤ n) :
    ∃ k : Nat, catchupLoop n s = .ok { s with
        ip := BitVec.ofNat 32 (s.ip.toNat - k), ref := BitVec.ofInt 33 (s.ref.toInt - k) } ∧
      k ≤ s.ip.toNat - s.anchor.toNat ∧ (k : Int) ≤ s.ref.toInt ∧
      (∀ j, 1 ≤ j → j ≤ k → s.srcAt (s.ip.toNat - j) = s.srcAt (s.ref.toInt.toNat - j)) ∧
      (s.ip.toNat - k ≤ s.anchor.toNat ∨ s.ref.toInt = k ∨
        s.srcAt (s.ip.toNat - (k + 1)) ≠ s.srcAt (s.ref.toInt.toNat - (k + 1))) := by
  have same : ({ s with ip := BitVec.ofNat 32 (s.ip.toNat - 0), ref := BitVec.ofInt 33 (s.ref.toInt - (0 : Nat)) } : State) = s := by
    simp
  induction n generalizing s with
  | zero =>
    exact ⟨0, by rw [same]; rfl, by omega, by omega, by omega, .inl (by omega)⟩
  | succ n ih =>
    simp only [catchupLoop]
    have hb : s.ref.toInt < 4294967296 := by have := s.ref.toInt_lt; omega
    split
    · next hc =>
      rw [State.readByte_of (sp := .src) (by simp only [pos]; omega) (by simp only [State.size, pos]; omega),
        State.readByte_of (sp := .src) (by omega) (by simp only [State.size]; omega)]
      have ea : (pos s.ip - 1).toNat = s.ip.toNat - 1 := by simp only [pos]; omega
      have er : (s.ref.toInt - 1).toNat = s.ref.toInt.toNat - 1 := by omega
      simp only [ea, er]
      split
      · next heq =>
        generalize ht : ({ s with
          ip := BitVec.ofInt 32 (pos s.ip - 1), ref := BitVec.ofInt 33 (s.ref.toInt - 1) } : State) = t
        have tip : t.ip.toNat = s.ip.toNat - 1 := by
          rw [← ht]
          simp only
          have := ofInt_pos_sub s.ip 1 (by omega)
          simp only [Nat.cast_one] at this
          rw [this, BitVec.toNat_ofNat]
          omega
        have tref : t.ref.toInt = s.ref.toInt - 1 := by rw [← ht]; exact ref_toInt (by omega) (by omega)
        have ta : t.anchor = s.anchor := by rw [← ht]
        have tsz : t.srcSize = s.srcSize := by rw [← ht]
        have tat : t.srcAt = s.srcAt := by rw [← ht]; rfl
        obtain ⟨k, h1, h2, h3, h4, h5⟩ := ih (s := t) (by omega) (by omega) (by omega) (by rw [tip, ta]; omega) (by simp)
        refine ⟨k + 1, ?_, by rw [tip, ta] at h2; omega, by omega, ?_, ?_⟩
        · rw [h1, tip, tref, ← ht]
          congr 2
          · congr 1; omega
          · congr 1; omega
        · intro j j1 j2
          rcases Nat.eq_or_lt_of_le j1 with rfl | j1
          · exact heq
          · have := h4 (j - 1) (by omega) (by omega)
            rw [tat, tip, tref] at this
            rw [show s.ip.toNat - j = s.ip.toNat - 1 - (j - 1) by omega,
              show s.ref.toInt.toNat - j = (s.ref.toInt - 1).toNat - (j - 1) by omega]
            exact this
        · rw [ta, tip, tref, tat] at h5
          rcases h5 with h5 | h5 | h5
          · exact .inl (by omega)
          · exact .inr (.inl (by omega))
          · refine .inr (.inr ?_)
            rw [show s.ip.toNat - (k + 1 + 1) = s.ip.toNat - 1 - (k + 1) by omega,
              show s.ref.toInt.toNat - (k + 1 + 1) = (s.ref.toInt - 1).toNat - (k + 1) by omega]
            exact h5
      · next hne =>
        exact ⟨0, by rw [same], by omega, by omega, by omega, .inr (.inr hne)⟩
    · next hc =>
      exact ⟨0, by rw [same], by omega, by omega, by omega, by omega⟩

/-- The backward loop writes `ip` and `ref` and nothing else. -/
theorem catchupLoop_fields {n : Nat} {s t : State} (h : catchupLoop n s = .ok t) : t = { s with ip := t.ip, ref := t.ref } := by
  induction n generalizing s with
  | zero => cases h; rfl
  | succ n ih =>
    simp only [catchupLoop] at h
    split at h
    · split at h
      · split at h
        · have := ih h
          rw [this]
        · cases h; rfl
      · cases h
      · cases h
    · cases h; rfl

/-- The forward loop of E.EXTEND. -/
theorem extendLoop_of {s : State} {n : Nat} (hr : 0 ≤ s.ref.toInt) (hri : s.ref.toInt ≤ s.ip.toNat)
    (hm : s.matchlimit.toNat ≤ s.srcSize) (hn : s.matchlimit.toNat - s.ip.toNat ≤ n) :
    ∃ k : Nat, extendLoop n s = .ok { s with
        ip := BitVec.ofNat 32 (s.ip.toNat + k), ref := BitVec.ofInt 33 (s.ref.toInt + k) } ∧
      (k = 0 ∨ s.ip.toNat + k ≤ s.matchlimit.toNat) ∧
      (∀ j < k, s.srcAt (s.ref.toInt.toNat + j) = s.srcAt (s.ip.toNat + j)) ∧
      (s.matchlimit.toNat ≤ s.ip.toNat + k ∨ s.srcAt (s.ref.toInt.toNat + k) ≠ s.srcAt (s.ip.toNat + k)) := by
  have same : ({ s with ip := BitVec.ofNat 32 (s.ip.toNat + 0), ref := BitVec.ofInt 33 (s.ref.toInt + (0 : Nat)) } : State) = s := by
    simp
  induction n generalizing s with
  | zero => exact ⟨0, by rw [same]; rfl, .inl rfl, by omega, .inl (by omega)⟩
  | succ n ih =>
    simp only [extendLoop]
    have hl := s.matchlimit.isLt
    split
    · next hc =>
      rw [State.readByte_of (sp := .src) hr (by simp only [State.size]; omega),
        State.readByte_of (sp := .src) (pos_nonneg _) (by simp only [State.size, pos]; omega)]
      simp only [pos_toNat]
      split
      · next heq =>
        generalize ht : ({ s with ip := advance s.ip 1, ref := BitVec.ofInt 33 (s.ref.toInt + 1) } : State) = t
        have tip : t.ip.toNat = s.ip.toNat + 1 := by rw [← ht]; exact advance_toNat (by omega)
        have tref : t.ref.toInt = s.ref.toInt + 1 := by rw [← ht]; exact ref_toInt (by omega) (by omega)
        have tm : t.matchlimit = s.matchlimit := by rw [← ht]
        have tsz : t.srcSize = s.srcSize := by rw [← ht]
        have tat : t.srcAt = s.srcAt := by rw [← ht]; rfl
        obtain ⟨k, h1, h2, h3, h4⟩ := ih (s := t) (by omega) (by omega) (by rw [tm, tsz]; exact hm) (by rw [tm, tip]; omega) (by simp)
        rw [tip, tref, tat, tm] at *
        refine ⟨k + 1, ?_, .inr (by omega), ?_, ?_⟩
        · rw [h1, ← ht]
          congr 2
          · congr 1; omega
          · congr 1; omega
        · intro j hj
          cases j with
          | zero => exact heq
          | succ j =>
            have := h3 j (by omega)
            rwa [show (s.ref.toInt + 1).toNat + j = s.ref.toInt.toNat + (j + 1) by omega,
              show s.ip.toNat + 1 + j = s.ip.toNat + (j + 1) by omega] at this
        · rw [show (s.ref.toInt + 1).toNat + k = s.ref.toInt.toNat + (k + 1) by omega,
            show s.ip.toNat + 1 + k = s.ip.toNat + (k + 1) by omega] at h4
          exact h4
      · next hne => exact ⟨0, by rw [same], .inl rfl, by omega, .inr hne⟩
    · next hc => exact ⟨0, by rw [same], .inl rfl, by omega, .inl (by omega)⟩

/-- The forward loop writes `ip` and `ref` and nothing else. -/
theorem extendLoop_fields {n : Nat} {s t : State} (h : extendLoop n s = .ok t) : t = { s with ip := t.ip, ref := t.ref } := by
  induction n generalizing s with
  | zero => cases h; rfl
  | succ n ih =>
    simp only [extendLoop] at h
    split at h
    · split at h
      · split at h
        · have := ih h
          rw [this]
        · cases h; rfl
      · cases h
      · cases h
    · cases h; rfl

theorem extMore_eq_true {b : Byte} (h : b.toNat = 255) : b = 0xFF#8 := BitVec.eq_of_toNat_eq (by simpa using h)

/-- The loop of TUN.LEN over `k` bytes `0xFF` and a final byte below 255. -/
theorem State.tunLoop_of {s : State} {n k : Nat} (hs : s.srcSize ≤ maxMemSize) (hn : k < n) (h : s.ip.toNat + k + 1 ≤ s.srcSize)
    (hf : ∀ j < k, (s.srcAt (s.ip.toNat + j)).toNat = 255) (hv : (s.srcAt (s.ip.toNat + k)).toNat < 255) :
    State.tunLoop n s = .ok { s with
      len := BitVec.ofNat 40 (s.len.toNat + 255 * k + (s.srcAt (s.ip.toNat + k)).toNat), ip := advance s.ip (k + 1) } := by
  have hm : s.srcSize ≤ 2147483647 := hs
  induction k generalizing s n with
  | zero =>
    obtain ⟨n, rfl⟩ : ∃ m, n = m + 1 := ⟨n - 1, by omega⟩
    simp only [Nat.add_zero] at hv
    simp only [State.tunLoop, State.tunExt_of (show s.ip.toNat < s.srcSize by omega)]
    rw [if_neg (by
      simp only [extMore, decide_eq_true_eq]
      intro hc
      rw [hc] at hv
      simp at hv)]
    simp [State.takeExt]
  | succ k ih =>
    obtain ⟨n, rfl⟩ : ∃ m, n = m + 1 := ⟨n - 1, by omega⟩
    have hFF := extMore_eq_true (hf 0 (by omega))
    simp only [Nat.add_zero] at hFF
    simp only [State.tunLoop, State.tunExt_of (show s.ip.toNat < s.srcSize by omega), hFF]
    rw [if_pos (by decide)]
    have ha : (advance s.ip 1).toNat = s.ip.toNat + 1 := advance_toNat (by omega)
    generalize ht : s.takeExt 0xFF#8 = t
    have tip : t.ip = advance s.ip 1 := by rw [← ht]; rfl
    have tat : t.srcAt = s.srcAt := by rw [← ht]; rfl
    have tsz : t.srcSize = s.srcSize := by rw [← ht]; rfl
    rw [ih (s := t) (by omega) (by omega) (by rw [tip, ha]; omega)
      (by
        intro j hj
        have := hf (j + 1) (by omega)
        rwa [tat, tip, ha, show s.ip.toNat + 1 + j = s.ip.toNat + (j + 1) by omega])
      (by rwa [tat, tip, ha, show s.ip.toNat + 1 + k = s.ip.toNat + (k + 1) by omega]) (by omega)]
    rw [tat, tip, ha, show s.ip.toNat + 1 + k = s.ip.toNat + (k + 1) by omega, ← ht]
    simp only [State.takeExt]
    congr 2
    · apply BitVec.eq_of_toNat_eq
      simp only [advance, BitVec.toNat_ofNat]
      omega
    · apply BitVec.eq_of_toNat_eq
      simp only [BitVec.toNat_ofNat, Nat.reducePow, Nat.reduceMod]
      omega

/-- The loop of TUN.LEN over nothing but `0xFF` up to the end of SRC. -/
theorem State.tunLoop_fault {s : State} (n : Nat) (hs : s.srcSize ≤ maxMemSize)
    (hf : ∀ a, s.ip.toNat ≤ a → a < s.srcSize → (s.srcAt a).toNat = 255) : State.tunLoop n s = .error .srcRange := by
  have hm : s.srcSize ≤ 2147483647 := hs
  induction n generalizing s with
  | zero => rfl
  | succ n ih =>
    simp only [State.tunLoop]
    by_cases h : s.ip.toNat < s.srcSize
    · have ha : (advance s.ip 1).toNat = s.ip.toNat + 1 := advance_toNat (by omega)
      simp only [State.tunExt_of h, extMore_eq_true (hf _ (Nat.le_refl _) h)]
      rw [if_pos (by decide)]
      refine ih (s := s.takeExt 0xFF#8) hs (fun a h1 h2 => hf a ?_ h2) hm
      have : (s.takeExt 0xFF#8).ip.toNat = s.ip.toNat + 1 := ha
      omega
    · rw [State.tunExt_fault (by omega)]

/-- Where the loop of TUN.LEN answers, it has met `k` bytes `0xFF` and a final byte below 255. -/
theorem State.tunLoop_ok {s t : State} {n : Nat} (hs : s.srcSize ≤ maxMemSize) (h : State.tunLoop n s = .ok t) :
    ∃ k, k < n ∧ s.ip.toNat + k + 1 ≤ s.srcSize ∧ (∀ j < k, (s.srcAt (s.ip.toNat + j)).toNat = 255) ∧
      (s.srcAt (s.ip.toNat + k)).toNat < 255 := by
  have hm : s.srcSize ≤ 2147483647 := hs
  induction n generalizing s with
  | zero => cases h
  | succ n ih =>
    simp only [State.tunLoop] at h
    by_cases h1 : s.ip.toNat < s.srcSize
    · simp only [State.tunExt_of h1] at h
      have ha : (advance s.ip 1).toNat = s.ip.toNat + 1 := advance_toNat (by omega)
      split at h
      · next hF =>
        have hF : s.srcAt s.ip.toNat = 0xFF#8 := by simpa [extMore] using hF
        obtain ⟨k, k1, k2, k3, k4⟩ := ih (s := s.takeExt (s.srcAt s.ip.toNat)) hs h hm
        have tip : (s.takeExt (s.srcAt s.ip.toNat)).ip.toNat = s.ip.toNat + 1 := ha
        have tat : (s.takeExt (s.srcAt s.ip.toNat)).srcAt = s.srcAt := rfl
        have tsz : (s.takeExt (s.srcAt s.ip.toNat)).srcSize = s.srcSize := rfl
        rw [tip, tsz] at k2
        rw [tip, tat] at k3 k4
        refine ⟨k + 1, by omega, by omega, fun j hj => ?_, ?_⟩
        · cases j with
          | zero => rw [Nat.add_zero, hF]; rfl
          | succ j =>
            have := k3 j (by omega)
            rwa [show s.ip.toNat + 1 + j = s.ip.toNat + (j + 1) by omega] at this
        · rwa [show s.ip.toNat + 1 + k = s.ip.toNat + (k + 1) by omega] at k4
      · next hF =>
        refine ⟨0, by omega, by omega, by omega, ?_⟩
        have hb := (s.srcAt s.ip.toNat).isLt
        have hne : (s.srcAt s.ip.toNat).toNat ≠ 255 := by
          intro hc
          apply hF
          rw [extMore_eq_true hc]
          rfl
        simp only [Nat.add_zero]
        omega
    · rw [State.tunExt_fault (by omega)] at h
      cases h

end Sys2Proof.Machine
end

