-- ==== Sys2Proof/Laws/PerInstr.lean ====
section
/-! SUPPORT. The family Shape, one lemma for each constructor of Instr: how long an instruction's bytes are (R72, R74, R77, R78,
R85), and that the step of a state is written as that state's own code (R25, R87). -/

namespace Sys2Proof.Laws.Shape

/-- An instruction has between 1 and 16 bytes, and the step of a state `x` stands among the labels as the code of `x`. -/
def Statement (i : Instr) : Prop :=
  (1 ≤ (encode i).length ∧ (encode i).length ≤ longestOperands + 1) ∧
  ∀ x, Machine.stOf i = some x → i.ctx = .opid ∧ encode i = [x.code]

theorem token (ll : BitVec 4) (ml : BitVec 4) : Statement (.token ll ml) := by
  exact ⟨by simp [encode, longestOperands], fun x h => by cases h⟩
theorem extCont : Statement .extCont := by
  exact ⟨by simp [encode, longestOperands], fun x h => by cases h⟩
theorem extTerm (v : Byte) : Statement (.extTerm v) := by
  exact ⟨by simp [encode, longestOperands], fun x h => by cases h⟩
theorem literal (b : Byte) : Statement (.literal b) := by
  exact ⟨by simp [encode, longestOperands], fun x h => by cases h⟩
theorem offset (off : BitVec 16) : Statement (.offset off) := by
  exact ⟨by simp [encode, longestOperands], fun x h => by cases h⟩
theorem maxlen : Statement .maxlen := by
  exact ⟨by simp [encode, longestOperands], fun x h => by cases h⟩
theorem compress : Statement .compress := by
  exact ⟨by simp [encode, longestOperands], fun x h => by cases h⟩
theorem decompressKnown : Statement .decompressKnown := by
  exact ⟨by simp [encode, longestOperands], fun x h => by cases h⟩
theorem decompressStream : Statement .decompressStream := by
  exact ⟨by simp [encode, longestOperands], fun x h => by cases h⟩
theorem idle : Statement .idle := by
  refine ⟨by decide, fun x h => ?_⟩; cases h; exact ⟨rfl, rfl⟩
theorem mMaxlen : Statement .mMaxlen := by
  refine ⟨by decide, fun x h => ?_⟩; cases h; exact ⟨rfl, rfl⟩
theorem done : Statement .done := by
  refine ⟨by decide, fun x h => ?_⟩; cases h; exact ⟨rfl, rfl⟩
theorem error : Statement .error := by
  refine ⟨by decide, fun x h => ?_⟩; cases h; exact ⟨rfl, rfl⟩
theorem tunSplit (t : Byte) : Statement (.tunSplit t) := by
  exact ⟨by simp [encode, longestOperands], fun x h => by cases h⟩
theorem tunExt : Statement .tunExt := by
  exact ⟨by simp [encode, longestOperands], fun x h => by cases h⟩
theorem tunLen (c : BitVec 4) : Statement (.tunLen c) := by
  exact ⟨by simp [encode, longestOperands], fun x h => by cases h⟩
theorem packToken (l : Len) : Statement (.packToken l) := by
  exact ⟨by simp [encode, longestOperands], fun x h => by cases h⟩
theorem packExt (r : Len) : Statement (.packExt r) := by
  exact ⟨by simp [encode, longestOperands], fun x h => by cases h⟩
theorem hashW (w : Word) : Statement (.hashW w) := by
  exact ⟨by simp [encode, longestOperands], fun x h => by cases h⟩
theorem hashN (w : Word) : Statement (.hashN w) := by
  exact ⟨by simp [encode, longestOperands], fun x h => by cases h⟩
theorem htSelect (n : Word) : Statement (.htSelect n) := by
  exact ⟨by simp [encode, longestOperands], fun x h => by cases h⟩
theorem htClear : Statement .htClear := by
  exact ⟨by simp [encode, longestOperands], fun x h => by cases h⟩
theorem htLookup (i : Bucket) : Statement (.htLookup i) := by
  exact ⟨by simp [encode, longestOperands], fun x h => by cases h⟩
theorem htInsert (i : Bucket) (p : Pos) : Statement (.htInsert i p) := by
  exact ⟨by simp [encode, longestOperands], fun x h => by cases h⟩
theorem htProbe (p : Pos) : Statement (.htProbe p) := by
  exact ⟨by simp [encode, longestOperands], fun x h => by cases h⟩
theorem htAccept (ref : Ref) (ip : Pos) : Statement (.htAccept ref ip) := by
  exact ⟨by simp [encode, longestOperands], fun x h => by cases h⟩
theorem eInit : Statement .eInit := by
  refine ⟨by decide, fun x h => ?_⟩; cases h; exact ⟨rfl, rfl⟩
theorem eSearchInit : Statement .eSearchInit := by
  refine ⟨by decide, fun x h => ?_⟩; cases h; exact ⟨rfl, rfl⟩
theorem eProbe : Statement .eProbe := by
  refine ⟨by decide, fun x h => ?_⟩; cases h; exact ⟨rfl, rfl⟩
theorem eCatchup : Statement .eCatchup := by
  refine ⟨by decide, fun x h => ?_⟩; cases h; exact ⟨rfl, rfl⟩
theorem eLitlen : Statement .eLitlen := by
  refine ⟨by decide, fun x h => ?_⟩; cases h; exact ⟨rfl, rfl⟩
theorem eLitcopy : Statement .eLitcopy := by
  refine ⟨by decide, fun x h => ?_⟩; cases h; exact ⟨rfl, rfl⟩
theorem eOffset : Statement .eOffset := by
  refine ⟨by decide, fun x h => ?_⟩; cases h; exact ⟨rfl, rfl⟩
theorem eExtend : Statement .eExtend := by
  refine ⟨by decide, fun x h => ?_⟩; cases h; exact ⟨rfl, rfl⟩
theorem eMlen : Statement .eMlen := by
  refine ⟨by decide, fun x h => ?_⟩; cases h; exact ⟨rfl, rfl⟩
theorem eEndchk : Statement .eEndchk := by
  refine ⟨by decide, fun x h => ?_⟩; cases h; exact ⟨rfl, rfl⟩
theorem eChain : Statement .eChain := by
  refine ⟨by decide, fun x h => ?_⟩; cases h; exact ⟨rfl, rfl⟩
theorem eRehash : Statement .eRehash := by
  refine ⟨by decide, fun x h => ?_⟩; cases h; exact ⟨rfl, rfl⟩
theorem eLast : Statement .eLast := by
  refine ⟨by decide, fun x h => ?_⟩; cases h; exact ⟨rfl, rfl⟩
theorem dInit : Statement .dInit := by
  refine ⟨by decide, fun x h => ?_⟩; cases h; exact ⟨rfl, rfl⟩
theorem dToken : Statement .dToken := by
  refine ⟨by decide, fun x h => ?_⟩; cases h; exact ⟨rfl, rfl⟩
theorem dLitext : Statement .dLitext := by
  refine ⟨by decide, fun x h => ?_⟩; cases h; exact ⟨rfl, rfl⟩
theorem dLitcopy : Statement .dLitcopy := by
  refine ⟨by decide, fun x h => ?_⟩; cases h; exact ⟨rfl, rfl⟩
theorem dEofchk : Statement .dEofchk := by
  refine ⟨by decide, fun x h => ?_⟩; cases h; exact ⟨rfl, rfl⟩
theorem dOffset : Statement .dOffset := by
  refine ⟨by decide, fun x h => ?_⟩; cases h; exact ⟨rfl, rfl⟩
theorem dMlext : Statement .dMlext := by
  refine ⟨by decide, fun x h => ?_⟩; cases h; exact ⟨rfl, rfl⟩
theorem dMatch4 : Statement .dMatch4 := by
  refine ⟨by decide, fun x h => ?_⟩; cases h; exact ⟨rfl, rfl⟩
theorem dMatchcopy : Statement .dMatchcopy := by
  refine ⟨by decide, fun x h => ?_⟩; cases h; exact ⟨rfl, rfl⟩
theorem cp16 (m : Space) (a : Pos) (d : Pos) : Statement (.cp16 m a d) := by
  exact ⟨by simp [encode, strideBytes, longestOperands], fun x h => by cases h⟩
theorem cp8 (m : Space) (a : Pos) (d : Pos) : Statement (.cp8 m a d) := by
  exact ⟨by simp [encode, strideBytes, longestOperands], fun x h => by cases h⟩
theorem cp4 (m : Space) (a : Pos) (d : Pos) : Statement (.cp4 m a d) := by
  exact ⟨by simp [encode, strideBytes, longestOperands], fun x h => by cases h⟩
theorem cp2 (m : Space) (a : Pos) (d : Pos) : Statement (.cp2 m a d) := by
  exact ⟨by simp [encode, strideBytes, longestOperands], fun x h => by cases h⟩
theorem cp1 (m : Space) (a : Pos) (d : Pos) : Statement (.cp1 m a d) := by
  exact ⟨by simp [encode, strideBytes, longestOperands], fun x h => by cases h⟩
theorem fcpExact (a : Pos) (d : Pos) (n : Len) : Statement (.fcpExact a d n) := by
  exact ⟨by simp [encode, runBytes, longestOperands], fun x h => by cases h⟩
theorem fcpWild (a : Pos) (d : Pos) (n : Len) : Statement (.fcpWild a d n) := by
  exact ⟨by simp [encode, runBytes, longestOperands], fun x h => by cases h⟩
theorem mcopy (ref : Ref) (op : Pos) (n : Len) (form : CopyForm) : Statement (.mcopy ref op n form) := by
  exact ⟨by simp [encode, longestOperands], fun x h => by cases h⟩

end Sys2Proof.Laws.Shape
end

