-- ==== Sys2Proof/Tests/Slice0.lean ====
section
/-! SUPPORT. The model's own tests: an ill-formed term for each check of WellFormed, the decoding of a word of every constructor written
out from the spec's encodings, one step of every instruction against the spec's vectors (spec/95_test_vectors.md) and corner cases, and a
witness for every statement that has hypotheses. -/

namespace Sys2Proof.Tests

open Sys2Proof Sys2Proof.Machine

/-! ### Helpers -/

/-- Bytes from address `a` on. -/
def cells (a : Nat) : List Nat → Memory
  | [] => []
  | b :: bs => (a, BitVec.ofNat 8 b) :: cells (a + 1) bs

/-- A machine with these bytes in SRC and DST from address 0 on, both of 64 bytes. -/
def machine (src dst : List Nat) : State :=
  { State.reset with srcSize := 64, dstSize := 64, src := cells 0 src, dst := cells 0 dst }

/-- A machine running a command, in a state. -/
def busy (s : State) (code : Word) (x : St) : State :=
  { s with cmd := code, st := x, status := { s.status with state := .busy } }

/-- The outcome is a next state of which `p` holds. -/
def nextWith (o : Out) (p : State → Bool) : Bool :=
  match o with
  | .next s => p s
  | .fault _ => false
  | .refused _ => false

/-- The outcome is this fault. -/
def faults (o : Out) (f : Fault) : Bool :=
  match o with
  | .next _ => false
  | .fault g => decide (g = f)
  | .refused _ => false

/-- The outcome is this refusal. -/
def refuses (o : Out) (r : Refusal) : Bool :=
  match o with
  | .next _ => false
  | .fault _ => false
  | .refused q => decide (q = r)

/-- DST holds these bytes from an address on. -/
def dstHas (s : State) (a : Nat) (bs : List Nat) : Bool :=
  decide ((Memory.bytes .dst s.dst a bs.length).map BitVec.toNat = bs)

/-! ### Well-formedness: one ill-formed term for each check -/

theorem test_wf_extTerm : (Instr.extTerm 0xFF#8).wf = false ∧ (Instr.extTerm 0xFE#8).wf = true := by decide
theorem test_wf_packToken : (Instr.packToken 547608330001#40).wf = false ∧ (Instr.packToken 547608330000#40).wf = true := by decide
theorem test_wf_packExt : (Instr.packExt 547608330001#40).wf = false := by decide
theorem test_wf_htInsert : (Instr.htInsert 0#13 0x80000000#32).wf = false ∧ (Instr.htInsert 0#13 0x7FFFFFFF#32).wf = true := by decide
theorem test_wf_htProbe : (Instr.htProbe 0x80000000#32).wf = false := by decide
theorem test_wf_htAccept : (Instr.htAccept (-1#33) 0#32).wf = false ∧ (Instr.htAccept 0x80000000#33 0#32).wf = false ∧
    (Instr.htAccept 0#33 0x80000000#32).wf = false ∧ (Instr.htAccept 0x7FFFFFFF#33 0x7FFFFFFF#32).wf = true := by decide
theorem test_wf_cp16 : (Instr.cp16 .src 0x80000000#32 0#32).wf = false ∧ (Instr.cp16 .src 0#32 0x80000000#32).wf = false := by decide
theorem test_wf_cp8 : (Instr.cp8 .src 0x80000000#32 0#32).wf = false ∧ (Instr.cp8 .src 0#32 0x80000000#32).wf = false := by decide
theorem test_wf_cp4 : (Instr.cp4 .dst 0x80000000#32 0#32).wf = false ∧ (Instr.cp4 .dst 0#32 0x80000000#32).wf = false := by decide
theorem test_wf_cp2 : (Instr.cp2 .dst 0x80000000#32 0#32).wf = false ∧ (Instr.cp2 .dst 0#32 0x80000000#32).wf = false := by decide
theorem test_wf_cp1 : (Instr.cp1 .src 0x80000000#32 0#32).wf = false ∧ (Instr.cp1 .src 0#32 0x80000000#32).wf = false := by decide
theorem test_wf_fcpExact : (Instr.fcpExact 0x80000000#32 0#32 0#40).wf = false ∧ (Instr.fcpExact 0#32 0x80000000#32 0#40).wf = false ∧
    (Instr.fcpExact 0#32 0#32 547608330001#40).wf = false := by decide
theorem test_wf_fcpWild : (Instr.fcpWild 0x80000000#32 0#32 0#40).wf = false ∧ (Instr.fcpWild 0#32 0x80000000#32 0#40).wf = false ∧
    (Instr.fcpWild 0#32 0#32 547608330001#40).wf = false := by decide
theorem test_wf_mcopy : (Instr.mcopy (-65536#33) 0#32 0#40 .exact).wf = false ∧ (Instr.mcopy 0x80000000#33 0#32 0#40 .exact).wf = false ∧
    (Instr.mcopy 0#33 0x80000000#32 0#40 .wild).wf = false ∧ (Instr.mcopy 0#33 0#32 547608330001#40 .wild).wf = false ∧
    (Instr.mcopy (-65535#33) 0#32 0#40 .exact).wf = true := by decide
/-- The decoder refuses what WellFormed refuses, and bits above an operand's width. -/
theorem test_decoder_refuses_ill_formed :
    decode .opid [0x47#8, 0#8, 0#8, 0#8, 0x80#8] = .error .badOperand ∧ decode .opid [0x23#8, 0x10#8] = .error .badOperand ∧
    decode .opid [0x45#8, 0#8, 0x20#8] = .error .badOperand := ⟨rfl, rfl, rfl⟩

/-! ### Decoding: a word for every constructor -/

/-- R72, R74, R77, R78: `LLLLMMMM`, `11111111`, a byte below it, a raw byte, and two bytes little-endian. -/
theorem test_decode_wire :
    decode .token [0b10110110#8] = .ok (.token 0b1011#4 0b0110#4, []) ∧
    decode .ext [0b11111111#8] = .ok (.extCont, []) ∧ decode .ext [0b11111110#8] = .ok (.extTerm 254#8, []) ∧
    decode .literal [0x61#8] = .ok (.literal 0x61#8, []) ∧
    decode .offset [0x0C#8, 0x01#8] = .ok (.offset 268#16, []) := ⟨rfl, rfl, rfl, rfl, rfl⟩
/-- R85, R86: the four codes, and that no other value is one. -/
theorem test_decode_commands :
    decode .cmd [1#8, 0#8, 0#8, 0#8] = .ok (.maxlen, []) ∧ decode .cmd [2#8, 0#8, 0#8, 0#8] = .ok (.compress, []) ∧
    decode .cmd [3#8, 0#8, 0#8, 0#8] = .ok (.decompressKnown, []) ∧
    decode .cmd [4#8, 0#8, 0#8, 0#8] = .ok (.decompressStream, []) ∧
    decode .cmd [0#8, 0#8, 0#8, 0#8] = .error (.reservedCommand 0#32) ∧
    decode .cmd [5#8, 0#8, 0#8, 0#8] = .error (.reservedCommand 5#32) ∧
    decode .cmd [2#8, 1#8, 0#8, 0#8] = .error (.reservedCommand 0x102#32) := ⟨rfl, rfl, rfl, rfl, rfl, rfl, rfl⟩
/-- R25, R87: the host and terminal states. -/
theorem test_decode_host_states :
    decode .opid [0x00#8] = .ok (.idle, []) ∧ decode .opid [0x0E#8] = .ok (.mMaxlen, []) ∧
    decode .opid [0x1E#8] = .ok (.done, []) ∧ decode .opid [0x1F#8] = .ok (.error, []) ∧
    decode .opid [0x01#8] = .error (.reservedOpid 0x01#8) := ⟨rfl, rfl, rfl, rfl, rfl⟩
/-- R25, R87: ENC, `011` and the step's number. -/
theorem test_decode_enc :
    decode .opid [0x61#8] = .ok (.eInit, []) ∧ decode .opid [0x62#8] = .ok (.eSearchInit, []) ∧
    decode .opid [0x63#8] = .ok (.eProbe, []) ∧ decode .opid [0x64#8] = .ok (.eCatchup, []) ∧
    decode .opid [0x65#8] = .ok (.eLitlen, []) ∧ decode .opid [0x66#8] = .ok (.eLitcopy, []) ∧
    decode .opid [0x67#8] = .ok (.eOffset, []) ∧ decode .opid [0x68#8] = .ok (.eExtend, []) ∧
    decode .opid [0x69#8] = .ok (.eMlen, []) ∧ decode .opid [0x6A#8] = .ok (.eEndchk, []) ∧
    decode .opid [0x6B#8] = .ok (.eChain, []) ∧ decode .opid [0x6C#8] = .ok (.eRehash, []) ∧
    decode .opid [0x6D#8] = .ok (.eLast, []) ∧ decode .opid [0x6E#8] = .error (.reservedOpid 0x6E#8) :=
  ⟨rfl, rfl, rfl, rfl, rfl, rfl, rfl, rfl, rfl, rfl, rfl, rfl, rfl, rfl⟩
/-- R25, R87: DEC, `100` and the step's number. -/
theorem test_decode_dec :
    decode .opid [0x81#8] = .ok (.dInit, []) ∧ decode .opid [0x82#8] = .ok (.dToken, []) ∧
    decode .opid [0x83#8] = .ok (.dLitext, []) ∧ decode .opid [0x84#8] = .ok (.dLitcopy, []) ∧
    decode .opid [0x85#8] = .ok (.dEofchk, []) ∧ decode .opid [0x86#8] = .ok (.dOffset, []) ∧
    decode .opid [0x87#8] = .ok (.dMlext, []) ∧ decode .opid [0x88#8] = .ok (.dMatch4, []) ∧
    decode .opid [0x89#8] = .ok (.dMatchcopy, []) := ⟨rfl, rfl, rfl, rfl, rfl, rfl, rfl, rfl, rfl⟩
/-- R87: TUN and PACK, with the model's operand bytes. -/
theorem test_decode_tun :
    decode .opid [0x21#8, 0x1A#8] = .ok (.tunSplit 0x1A#8, []) ∧ decode .opid [0x22#8] = .ok (.tunExt, []) ∧
    decode .opid [0x23#8, 0x0E#8] = .ok (.tunLen 14#4, []) ∧
    decode .opid [0x24#8, 0x0E#8, 1#8, 0#8, 0#8, 0#8] = .ok (.packToken 270#40, []) ∧
    decode .opid [0x25#8, 0xFF#8, 0#8, 0#8, 0#8, 1#8] = .ok (.packExt 0x1000000FF#40, []) := ⟨rfl, rfl, rfl, rfl, rfl⟩
/-- R87: the hash table. -/
theorem test_decode_hash :
    decode .opid [0x41#8, 0x61#8, 0x62#8, 0x63#8, 0x64#8] = .ok (.hashW 0x64636261#32, []) ∧
    decode .opid [0x42#8, 0x61#8, 0x62#8, 0x63#8, 0x64#8] = .ok (.hashN 0x64636261#32, []) ∧
    decode .opid [0x43#8, 0x0A#8, 0#8, 1#8, 0#8] = .ok (.htSelect 65546#32, []) ∧
    decode .opid [0x44#8] = .ok (.htClear, []) ∧
    decode .opid [0x45#8, 0xFF#8, 0x1F#8] = .ok (.htLookup 8191#13, []) ∧
    decode .opid [0x46#8, 0x53#8, 2#8, 1#8, 0#8, 0#8, 0#8] = .ok (.htInsert 595#13 1#32, []) ∧
    decode .opid [0x47#8, 0#8, 1#8, 0#8, 0#8] = .ok (.htProbe 256#32, []) ∧
    decode .opid [0x48#8, 0x02#8, 0#8, 0#8, 0#8, 0#8, 9#8, 0#8, 0#8, 0#8] = .ok (.htAccept 2#33 9#32, []) :=
  ⟨rfl, rfl, rfl, rfl, rfl, rfl, rfl, rfl⟩
/-- R87: FCP. -/
theorem test_decode_fcp :
    decode .opid [0xA1#8, 0#8, 1#8, 0#8, 0#8, 0#8, 2#8, 0#8, 0#8, 0#8] = .ok (.cp16 .src 1#32 2#32, []) ∧
    decode .opid [0xA2#8, 1#8, 1#8, 0#8, 0#8, 0#8, 2#8, 0#8, 0#8, 0#8] = .ok (.cp8 .dst 1#32 2#32, []) ∧
    decode .opid [0xA3#8, 0#8, 0#8, 1#8, 0#8, 0#8, 2#8, 0#8, 0#8, 0#8] = .ok (.cp4 .src 256#32 2#32, []) ∧
    decode .opid [0xA4#8, 0#8, 1#8, 0#8, 0#8, 0#8, 0#8, 2#8, 0#8, 0#8] = .ok (.cp2 .src 1#32 512#32, []) ∧
    decode .opid [0xA5#8, 1#8, 1#8, 0#8, 0#8, 0#8, 2#8, 0#8, 0#8, 0#8] = .ok (.cp1 .dst 1#32 2#32, []) ∧
    decode .opid [0xA6#8, 1#8, 0#8, 0#8, 0#8, 2#8, 0#8, 0#8, 0#8, 3#8, 0#8, 0#8, 0#8, 0#8] = .ok (.fcpExact 1#32 2#32 3#40, []) ∧
    decode .opid [0xA7#8, 1#8, 0#8, 0#8, 0#8, 2#8, 0#8, 0#8, 0#8, 3#8, 0#8, 0#8, 0#8, 0#8] = .ok (.fcpWild 1#32 2#32 3#40, []) ∧
    decode .opid [0xA8#8, 0xFF#8, 0xFF#8, 0xFF#8, 0xFF#8, 1#8, 2#8, 0#8, 0#8, 0#8, 3#8, 0#8, 0#8, 0#8, 0#8, 1#8] =
      .ok (.mcopy (-1#33) 2#32 3#40 .wild, []) := ⟨rfl, rfl, rfl, rfl, rfl, rfl, rfl, rfl⟩

/-! ### Wire elements -/

/-- P1 part 2 step 2: the token 1A. -/
theorem test_token : nextWith (exec (.token 1#4 10#4) (busy (machine [0x1A] []) 3#32 .dToken)) (fun t =>
    decide (t.tok = 0x1A#8 ∧ t.ll = 1#4 ∧ t.ml = 10#4 ∧ t.len = 1#40 ∧ t.ip = 1#32 ∧ t.st = .dLitcopy)) = true := by decide
theorem test_token_saturated : nextWith (exec (.token 15#4 0#4) (busy (machine [0xF0] []) 3#32 .dToken)) (fun t =>
    decide (t.len = 15#40 ∧ t.st = .dLitext)) = true := by decide
/-- R74: `FF` adds 255 and another byte follows. -/
theorem test_extCont : nextWith (exec .extCont { busy (machine [0xF0, 0xFF] []) 3#32 .dLitext with ip := 1#32, len := 15#40 }) (fun t =>
    decide (t.len = 270#40 ∧ t.ip = 2#32 ∧ t.st = .dLitext)) = true := by decide
/-- R102's example: `len = 15`, `b = 0x21` gives 48. -/
theorem test_extTerm : nextWith (exec (.extTerm 0x21#8) { busy (machine [] []) 3#32 .dMlext with ip := 5#32, len := 15#40 }) (fun t =>
    decide (t.len = 48#40 ∧ t.ip = 6#32 ∧ t.st = .dMatch4)) = true := by decide
theorem test_literal : nextWith (exec (.literal 0x61#8) { busy (machine [] []) 3#32 .dLitcopy with ip := 1#32, op := 3#32 }) (fun t =>
    dstHas t 3 [0x61] && decide (t.ip = 2#32 ∧ t.op = 4#32)) = true := by decide
/-- P1 part 2 step 5: the offset 1 at `op = 1`. -/
theorem test_offset : nextWith (exec (.offset 1#16) { busy (machine [] []) 3#32 .dOffset with ip := 2#32, op := 1#32, ml := 10#4 }) (fun t =>
    decide (t.off = 1#16 ∧ t.ip = 4#32 ∧ t.ref = 0#33 ∧ t.len = 10#40 ∧ t.st = .dMatch4)) = true := by decide
theorem test_offset_before_output : nextWith (exec (.offset 2#16) { busy (machine [] []) 3#32 .dOffset with op := 1#32 }) (fun t =>
    decide (t.ref.toInt = -1)) = true := by decide

/-! ### Commands and the states around them -/

theorem test_maxlen : nextWith (exec .maxlen { machine [] [] with srcSize := 2139095024, srcLen := 2139095024#32 }) (fun t =>
    decide (t.st = .mMaxlen ∧ t.status.state = .busy)) = true ∧
    refuses (exec .maxlen { machine [] [] with srcLen := 2139095025#32 }) .srcLenTooLarge = true := by decide
/-- D9, U9: SRC of 64 bytes. -/
theorem test_maxlen_beyond : nextWith (exec .maxlen { machine [] [] with srcLen := 64#32 }) (fun t => decide (t.st = .mMaxlen)) = true ∧
    refuses (exec .maxlen { machine [] [] with srcLen := 65#32 }) .srcLenBeyondSrc = true ∧
    refuses (exec .mMaxlen { machine [] [] with srcLen := 65#32 }) .srcLenBeyondSrc = true := by decide
/-- R252: the bound of 20 bytes is 36. -/
theorem test_compress : nextWith (exec .compress { machine [] [] with srcLen := 20#32, dstCap := 36#32 }) (fun t =>
    decide (t.st = .eInit ∧ t.cmd = 2#32)) = true ∧
    refuses (exec .compress { machine [] [] with srcLen := 20#32, dstCap := 35#32 }) .dstCapTooSmall = true := by decide
/-- R250: VARIANT, LENMIS and ERRCODE are cleared. -/
theorem test_decompressKnown : nextWith (exec .decompressKnown { machine [] [] with
      expLen := 64#32, status := { state := .error, variant := .wide, lenmis := true, errcode := 1#4 } }) (fun t =>
    decide (t.st = .dInit ∧ t.status.word = 1#32)) = true ∧
    refuses (exec .decompressKnown { machine [] [] with expLen := 65#32 }) .expLenBeyondDst = true := by decide
theorem test_decompressStream : nextWith (exec .decompressStream { machine [] [] with srcLen := 64#32, dstCap := 64#32 }) (fun t =>
    decide (t.st = .dInit ∧ t.cmd = 4#32)) = true ∧
    refuses (exec .decompressStream (busy (machine [] []) 4#32 .dToken)) .busy = true := by decide
theorem test_idle : nextWith (exec .idle State.reset) (fun t => decide (t = State.reset)) = true := by decide
/-- R251's corner cases: 254 gives 270, 255 gives 272. -/
theorem test_mMaxlen : nextWith (exec .mMaxlen (busy { machine [] [] with srcSize := 255, srcLen := 254#32 } 1#32 .mMaxlen)) (fun t =>
      decide (t.result = 270#32 ∧ t.status.word = 2#32)) = true ∧
    nextWith (exec .mMaxlen (busy { machine [] [] with srcSize := 255, srcLen := 255#32 } 1#32 .mMaxlen)) (fun t =>
      decide (t.result = 272#32)) = true := by decide
/-- P1: after ENC RESULT is `op`; after a known-size DEC it is `ip`, and LENMIS says that `op` is not `oend` (V-D8). -/
theorem test_done : nextWith (exec .done { busy (machine [] []) 2#32 .eLast with op := 10#32 }) (fun t =>
      decide (t.result = 10#32 ∧ t.status.word = 2#32)) = true ∧
    nextWith (exec .done { busy (machine [] []) 3#32 .dLitcopy with ip := 10#32, op := 20#32, oend := 21#32 }) (fun t =>
      decide (t.result = 10#32 ∧ t.status.word = 0x0A#32)) = true := by decide
/-- P3: `RESULT = -5 = 0xFFFFFFFB` and `STATUS = 0x13`. -/
theorem test_error : nextWith (exec .error { busy (machine [] []) 3#32 .dLitcopy with ip := 5#32 }) (fun t =>
    decide (t.result = 0xFFFFFFFB#32 ∧ t.status.word = 0x13#32 ∧ t.st = .error)) = true := by decide

/-- R193, U6, P3: an ended decompress command keeps the bytes below `op` and at or above `oend`; those between are drawn. -/
theorem test_tail_unspecified :
    (let o := exec .error { busy (machine [] [1, 2, 3, 4, 5, 6]) 3#32 .dLitcopy with ip := 5#32, op := 2#32, oend := 5#32 };
      nextWith o (fun t => dstHas t 0 [1, 2] && dstHas t 5 [6] && decide (t.draws = 3)) = true ∧
      ∃ t, o = .next t ∧ t.dstAt 2 = Config.drawByte 0 ∧ t.dstAt 4 = Config.drawByte 2) := ⟨by decide, _, rfl, rfl, rfl⟩

/-! ### TUN and PACK (V-T1 to V-T21) -/

theorem test_tunSplit : nextWith (exec (.tunSplit 0x1A#8) (machine [] [])) (fun t => decide (t.ll = 1#4 ∧ t.ml = 10#4)) = true ∧
    nextWith (exec (.tunSplit 0xF0#8) (machine [] [])) (fun t => decide (t.ll = 15#4 ∧ t.ml = 0#4)) = true := by decide
theorem test_tunExt : nextWith (exec .tunExt { machine [0x21] [] with len := 15#40 }) (fun t =>
      decide (t.len = 48#40 ∧ t.ip = 1#32 ∧ t.more = false)) = true ∧
    nextWith (exec .tunExt { machine [0xFF] [] with len := 15#40 }) (fun t => decide (t.len = 270#40 ∧ t.more = true)) = true := by decide
theorem test_tunExt_fault : faults (exec .tunExt { machine [] [] with ip := 64#32 }) .srcRange = true := by decide
theorem test_tunLen : nextWith (exec (.tunLen 14#4) (machine [] [])) (fun t => decide (t.len = 14#40 ∧ t.ip = 0#32)) = true ∧
    nextWith (exec (.tunLen 15#4) (machine [0] [])) (fun t => decide (t.len = 15#40 ∧ t.ip = 1#32)) = true := by decide
theorem test_tunLen_long : nextWith (exec (.tunLen 15#4) (machine [0xFF, 0xFF, 0xFE] [])) (fun t =>
    decide (t.len = 779#40 ∧ t.ip = 3#32)) = true := by decide
theorem test_packToken : nextWith (exec (.packToken 14#40) { machine [] [] with op := 2#32 }) (fun t =>
      dstHas t 2 [0xE0] && decide (t.tokpos = 2#32 ∧ t.op = 3#32)) = true ∧
    nextWith (exec (.packToken 270#40) (machine [] [])) (fun t => dstHas t 0 [0xF0]) = true := by decide
theorem test_packExt : nextWith (exec (.packExt 255#40) (machine [] [])) (fun t =>
      dstHas t 0 [0xFF, 0] && decide (t.op = 2#32)) = true ∧
    nextWith (exec (.packExt 275#40) (machine [] [])) (fun t => dstHas t 0 [0xFF, 0x14]) = true := by decide

/-! ### Hash and hash table (V-H1 to V-H11) -/

theorem test_hashW : nextWith (exec (.hashW 0x64636261#32) (machine [] [])) (fun t => decide (t.h = 1584#13)) = true ∧
    nextWith (exec (.hashW 0xFFFFFFFF#32) (machine [] [])) (fun t => decide (t.h = 1564#13)) = true := by decide
theorem test_hashN : nextWith (exec (.hashN 0x61616161#32) (machine [] [])) (fun t => decide (t.h = 1190#13)) = true ∧
    nextWith (exec (.hashN 0x00000100#32) (machine [] [])) (fun t => decide (t.h = 1775#13)) = true := by decide
theorem test_htSelect : nextWith (exec (.htSelect 65545#32) (machine [] [])) (fun t => decide (t.variant = .narrow)) = true ∧
    nextWith (exec (.htSelect 65546#32) (machine [] [])) (fun t => decide (t.variant = .wide)) = true := by decide
theorem test_htClear : nextWith (exec .htClear { machine [] [] with htN := [(595, 1#16)], htW := [(3, 7#32)] }) (fun t =>
    decide (t.htAt 595#13 = 0#32 ∧ t.htW = [(3, 7#32)])) = true := by decide
theorem test_htLookup : nextWith (exec (.htLookup 595#13) { machine [] [] with htN := [(595, 1#16)] }) (fun t =>
      decide (t.ref = 1#33)) = true ∧
    exec (.htLookup 4096#13) { machine [] [] with variant := .wide } = .next { machine [] [] with
      variant := .wide, ref := (Config.strayEntry 0).setWidth 33, draws := 1 } := ⟨by decide, rfl⟩
theorem test_htInsert : nextWith (exec (.htInsert 595#13 1#32) { machine [] [] with htN := [(595, 9#16)] }) (fun t =>
      decide (t.htAt 595#13 = 1#32)) = true ∧
    nextWith (exec (.htInsert 4096#13 7#32) { machine [] [] with variant := .wide, htN := [(3, 9#16)] }) (fun t =>
      decide (t.draws = 1 ∧ t.htN = [(3, 9#16)])) = true := by decide
/-- R126: a position that does not fit a narrow entry; the other effects stand. -/
theorem test_htInsert_unfit : ∃ t, exec (.htInsert 595#13 65536#32) { machine [] [] with htN := [(3, 9#16)], htW := [(2, 5#32)] } = .next t ∧
    t.htAt 3#13 = 9#32 ∧ t.htW = [(2, 5#32)] ∧ t.draws = 0 := by
  refine ⟨_, rfl, ?_, rfl, rfl⟩
  have h := State.htAt_htPut_of_ne { machine [] [] with htN := [(3, 9#16)], htW := [(2, 5#32)] } (i := 595#13) (j := 3#13) 65536#32 (by decide)
  exact h.trans (by decide)
/-- V-H10: the second probe of twenty `a`. -/
theorem test_htProbe : nextWith (exec (.htProbe 1#32) (machine (List.replicate 20 0x61) [])) (fun t =>
    decide (t.h = 1190#13 ∧ t.ref = 0#33 ∧ t.htAt 1190#13 = 1#32)) = true := by decide
/-- V-H11. -/
theorem test_htAccept : nextWith (exec (.htAccept 0#33 1#32) (machine (List.replicate 20 0x61) [])) (fun t => t.accepted) = true ∧
    nextWith (exec (.htAccept 0#33 0#32) { machine (List.replicate 20 0x61) [] with accepted := true }) (fun t => !t.accepted) = true := by
  decide
theorem test_htAccept_distance : nextWith (exec (.htAccept 0#33 65536#32) { machine [] [] with accepted := true }) (fun t => !t.accepted) =
    true := by decide

/-! ### ENC: the steps of P1 part 1, and the corner cases of the rules -/

/-- P1 in a state: twenty `a`, the limits 8 and 15. -/
def aaa (x : St) : State :=
  { busy (machine (List.replicate 20 0x61) [0x10, 0x61, 0x01, 0x00]) 2#32 x with
    srcLen := 20#32, dstCap := 36#32, iend := 20#32, mflimit := 8#32, matchlimit := 15#32 }

theorem test_eInit : nextWith (exec .eInit (aaa .eInit)) (fun t =>
    decide (t.iend = 20#32 ∧ t.mflimit = 8#32 ∧ t.matchlimit = 15#32 ∧ t.variant = .narrow ∧ t.st = .eSearchInit)) = true := by decide
theorem test_eInit_short : nextWith (exec .eInit { aaa .eInit with srcLen := 16#32 }) (fun t => decide (t.st = .eLast)) = true ∧
    nextWith (exec .eInit { aaa .eInit with srcLen := 17#32 }) (fun t =>
      decide (t.st = .eSearchInit ∧ t.mflimit = 5#32 ∧ t.matchlimit = 12#32)) = true := by decide
theorem test_eSearchInit : nextWith (exec .eSearchInit { aaa .eSearchInit with ip := 3#32 }) (fun t =>
    decide (t.attempts = 67#32 ∧ t.fwd = 3#32 ∧ t.st = .eProbe)) = true := by decide
/-- P1 steps 3 and 4. -/
theorem test_eProbe : nextWith (exec .eProbe { aaa .eProbe with attempts := 67#32 }) (fun t =>
      decide (t.attempts = 68#32 ∧ t.ip = 0#32 ∧ t.fwd = 1#32 ∧ t.h = 1190#13 ∧ t.ref = 0#33 ∧ t.st = .eProbe)) = true ∧
    nextWith (exec .eProbe { aaa .eProbe with attempts := 68#32, fwd := 1#32 }) (fun t =>
      decide (t.ip = 1#32 ∧ t.fwd = 2#32 ∧ t.htAt 1190#13 = 1#32 ∧ t.st = .eCatchup)) = true := by decide
/-- R143: a probe past `mflimit` ends the search; the step is `attempts >> 6`. -/
theorem test_eProbe_end : nextWith (exec .eProbe { aaa .eProbe with attempts := 128#32, fwd := 9#32 }) (fun t =>
    decide (t.ip = 9#32 ∧ t.fwd = 11#32 ∧ t.st = .eLast)) = true := by decide
/-- R144: back over equal bytes, to the start of SRC. -/
theorem test_eCatchup : nextWith (exec .eCatchup { aaa .eCatchup with ip := 6#32, ref := 2#33 }) (fun t =>
    decide (t.ip = 4#32 ∧ t.ref = 0#33 ∧ t.st = .eLitlen)) = true := by decide
/-- C5: no further back than `anchor`. -/
theorem test_eCatchup_anchor : nextWith (exec .eCatchup { aaa .eCatchup with ip := 6#32, ref := 4#33, anchor := 5#32 }) (fun t =>
    decide (t.ip = 5#32 ∧ t.ref = 3#33)) = true := by decide
theorem test_eLitlen : nextWith (exec .eLitlen { aaa .eLitlen with ip := 1#32 }) (fun t =>
    dstHas t 0 [0x10] && decide (t.len = 1#40 ∧ t.tokpos = 0#32 ∧ t.op = 1#32)) = true := by decide
theorem test_eLitlen_ext : nextWith (exec .eLitlen { aaa .eLitlen with ip := 15#32 }) (fun t =>
    dstHas t 0 [0xF0, 0x00] && decide (t.op = 2#32)) = true := by decide
theorem test_eLitcopy : nextWith (exec .eLitcopy { aaa .eLitcopy with op := 1#32, len := 1#40 }) (fun t =>
    dstHas t 0 [0x10, 0x61] && decide (t.op = 2#32 ∧ t.st = .eOffset)) = true := by decide
theorem test_eOffset : nextWith (exec .eOffset { aaa .eOffset with ip := 1#32, op := 2#32 }) (fun t =>
      dstHas t 2 [0x01, 0x00] && decide (t.op = 4#32 ∧ t.st = .eExtend)) = true ∧
    nextWith (exec .eOffset { aaa .eOffset with ip := 256#32, op := 2#32 }) (fun t => dstHas t 2 [0x00, 0x01]) = true := by decide
theorem test_eExtend : nextWith (exec .eExtend { aaa .eExtend with ip := 1#32, op := 4#32 }) (fun t =>
    decide (t.mstart = 5#32 ∧ t.ip = 15#32 ∧ t.ref = 14#33 ∧ t.st = .eMlen)) = true := by decide
theorem test_eMlen : nextWith (exec .eMlen { aaa .eMlen with ip := 15#32, mstart := 5#32, op := 4#32 }) (fun t =>
    dstHas t 0 [0x1A] && decide (t.len = 10#40 ∧ t.op = 4#32)) = true := by decide
/-- V-T20: the code 290 gives the low nibble `F` and the bytes `FF 14`. -/
theorem test_eMlen_ext : nextWith (exec .eMlen { aaa .eMlen with ip := 290#32, op := 4#32 }) (fun t =>
    dstHas t 0 [0x1F, 0x61, 0x01, 0x00, 0xFF, 0x14] && decide (t.op = 6#32)) = true := by decide
theorem test_eEndchk : nextWith (exec .eEndchk { aaa .eEndchk with ip := 15#32 }) (fun t => decide (t.anchor = 15#32 ∧ t.st = .eLast)) =
      true ∧
    nextWith (exec .eEndchk { aaa .eEndchk with ip := 8#32 }) (fun t => decide (t.anchor = 0#32 ∧ t.st = .eChain)) = true := by decide
/-- R151: an accepted candidate gets the token `00`; nothing is inserted. -/
theorem test_eChain : nextWith (exec .eChain { aaa .eChain with ip := 8#32, op := 4#32, htN := [(1190, 5#16)] }) (fun t =>
      dstHas t 4 [0x00] && decide (t.ref = 5#33 ∧ t.tokpos = 4#32 ∧ t.op = 5#32 ∧ t.htN = [(1190, 5#16)] ∧ t.st = .eOffset)) = true ∧
    nextWith (exec .eChain { aaa .eChain with ip := 8#32, op := 4#32, htN := [(1190, 8#16)] }) (fun t =>
      decide (t.op = 4#32 ∧ t.st = .eRehash)) = true := by decide
/-- R152: where both positions have one bucket, the later one stays. -/
theorem test_eRehash : nextWith (exec .eRehash { aaa .eRehash with ip := 8#32 }) (fun t =>
    decide (t.htN = [(1190, 8#16)] ∧ t.anchor = 8#32 ∧ t.ip = 9#32 ∧ t.st = .eSearchInit)) = true := by decide
theorem test_eLast : nextWith (exec .eLast { aaa .eLast with anchor := 15#32, op := 4#32 }) (fun t =>
    dstHas t 4 [0x50, 0x61, 0x61, 0x61, 0x61, 0x61] && decide (t.op = 10#32 ∧ t.result = 10#32 ∧ t.status.word = 2#32)) = true := by decide
/-- V-E0: the empty input. -/
theorem test_eLast_empty : nextWith (exec .eLast { busy (machine [] []) 2#32 .eLast with tokpos := 9#32 }) (fun t =>
    dstHas t 0 [0x00] && decide (t.result = 1#32 ∧ t.tokpos = 0#32)) = true := by decide

/-! ### DEC: the steps of P1 part 2 and the vectors V-D -/

/-- The stream `A` in a state of the known-size decoder. -/
def dec (x : St) : State :=
  { busy (machine [0x1A, 0x61, 0x01, 0x00, 0x50, 0x61, 0x61, 0x61, 0x61, 0x61] [0x61]) 3#32 x with
    expLen := 20#32, oend := 20#32, srcLen := 10#32, dstCap := 40#32 }

theorem test_dInit : nextWith (exec .dInit { dec .dInit with ip := 9#32, mode := .streaming, iend := 7#32 }) (fun t =>
      decide (t.mode = .known ∧ t.oend = 20#32 ∧ t.ip = 0#32 ∧ t.iend = 7#32)) = true ∧
    nextWith (exec .dInit { dec .dInit with cmd := 4#32 }) (fun t =>
      decide (t.mode = .streaming ∧ t.oend = 40#32 ∧ t.iend = 10#32 ∧ t.st = .dToken)) = true := by decide
theorem test_dToken : nextWith (exec .dToken (dec .dToken)) (fun t =>
    decide (t.tok = 0x1A#8 ∧ t.ll = 1#4 ∧ t.ml = 10#4 ∧ t.len = 1#40 ∧ t.ip = 1#32 ∧ t.st = .dLitcopy)) = true := by decide
/-- V-D3. -/
theorem test_dToken_empty : nextWith (exec .dToken { dec .dToken with mode := .streaming }) (fun t =>
    decide (t.st = .done ∧ t.result = 0#32 ∧ t.ip = 0#32)) = true := by decide
/-- R183's example: `F0 01`. -/
theorem test_dLitext : nextWith (exec .dLitext { dec .dLitext with ip := 2#32, len := 15#40 }) (fun t =>
    decide (t.len = 16#40 ∧ t.ip = 3#32 ∧ t.st = .dLitcopy)) = true := by decide
/-- P1 part 2 step 3: the wide copy; the zone above it is unspecified. -/
theorem test_dLitcopy_wide : nextWith (exec .dLitcopy { dec .dLitcopy with ip := 1#32, len := 1#40 }) (fun t =>
    dstHas t 0 [0x61] && decide (t.cpy = 1#40 ∧ t.ip = 2#32 ∧ t.op = 1#32 ∧ t.st = .dEofchk)) = true := by decide
/-- P1 part 2 step 9, and P3 step 9 (V-D6). -/
theorem test_dLitcopy_end : nextWith (exec .dLitcopy { dec .dLitcopy with ip := 5#32, op := 15#32, len := 5#40 }) (fun t =>
      dstHas t 15 [0x61, 0x61, 0x61, 0x61, 0x61] && decide (t.result = 10#32 ∧ t.op = 20#32 ∧ t.status.word = 2#32)) = true ∧
    nextWith (exec .dLitcopy { dec .dLitcopy with ip := 5#32, op := 15#32, len := 5#40, oend := 19#32 }) (fun t =>
      dstHas t 0 [0x61] && decide (t.result = 0xFFFFFFFB#32 ∧ t.op = 15#32 ∧ t.status.word = 0x13#32 ∧ t.draws = 4)) = true := by decide
theorem test_dEofchk : nextWith (exec .dEofchk { dec .dEofchk with op := 1#32 }) (fun t => decide (t.st = .dOffset)) = true ∧
    nextWith (exec .dEofchk { dec .dEofchk with mode := .streaming, ip := 10#32, iend := 10#32, op := 20#32 }) (fun t =>
      decide (t.st = .done ∧ t.result = 20#32)) = true := by decide
theorem test_dOffset : nextWith (exec .dOffset { dec .dOffset with ip := 2#32, op := 1#32, ml := 10#4 }) (fun t =>
    decide (t.off = 1#16 ∧ t.ip = 4#32 ∧ t.ref = 0#33 ∧ t.len = 10#40 ∧ t.st = .dMatch4)) = true := by decide
/-- V-D9: the two bytes must be in SRC. -/
theorem test_dOffset_fault : faults (exec .dOffset { dec .dOffset with ip := 63#32 }) .srcRange = true := by decide
/-- V-D14: the extension byte `50` gives `len = 95`. -/
theorem test_dMlext : nextWith (exec .dMlext { dec .dMlext with ip := 4#32, len := 15#40 }) (fun t =>
    decide (t.len = 95#40 ∧ t.ip = 5#32 ∧ t.st = .dMatch4)) = true := by decide
theorem test_dMatch4 : nextWith (exec .dMatch4 { dec .dMatch4 with op := 1#32 }) (fun t =>
    dstHas t 0 [0x61, 0x61, 0x61, 0x61, 0x61] && decide (t.op = 5#32 ∧ t.ref = 4#33 ∧ t.st = .dMatchcopy)) = true := by decide
/-- V-D10. -/
theorem test_dMatch4_badRef : faults (exec .dMatch4 { dec .dMatch4 with op := 1#32, ref := -1#33 }) .badRef = true := by decide
/-- P1 part 2 step 7. -/
theorem test_dMatchcopy : nextWith (exec .dMatchcopy { dec .dMatchcopy with
      op := 5#32, ref := 4#33, len := 10#40, dst := cells 0 [0x61, 0x61, 0x61, 0x61, 0x61] }) (fun t =>
    dstHas t 5 (List.replicate 10 0x61) && decide (t.cpy = 15#40 ∧ t.op = 15#32 ∧ t.st = .dToken)) = true := by decide
/-- V-D7 and V-D12a. -/
theorem test_dMatchcopy_end : nextWith (exec .dMatchcopy { dec .dMatchcopy with
        ip := 4#32, op := 5#32, ref := 4#33, len := 10#40, oend := 14#32 }) (fun t =>
      decide (t.result = 0xFFFFFFFC#32 ∧ t.op = 5#32 ∧ t.status.errcode = 1#4)) = true ∧
    nextWith (exec .dMatchcopy { dec .dMatchcopy with
        ip := 4#32, op := 5#32, ref := 4#33, len := 11#40, oend := 16#32, dst := cells 0 (List.replicate 5 0x61) }) (fun t =>
      decide (t.result = 4#32 ∧ t.op = 16#32 ∧ t.status.word = 2#32)) = true := by decide

/-! ### FCP (V-F1 to V-F7) -/

/-- Sixteen different bytes in SRC, `61 62 63 64` in DST. -/
def strip : State := machine [0, 1, 2, 3, 4, 5, 6, 7, 8, 9, 10, 11, 12, 13, 14, 15, 16, 17, 18, 19] [0x61, 0x62, 0x63, 0x64]

theorem test_cp16 : nextWith (exec (.cp16 .src 0#32 1#32) strip) (fun t =>
    dstHas t 0 [0x61, 0, 1, 2, 3, 4, 5, 6, 7, 8, 9, 10, 11, 12, 13, 14, 15] && decide (t.dst.length = 17)) = true := by decide
theorem test_cp8 : nextWith (exec (.cp8 .src 3#32 4#32) strip) (fun t =>
    dstHas t 3 [0x64, 3, 4, 5, 6, 7, 8, 9, 10] && decide (t.dst.length = 12)) = true := by decide
/-- R223's example, and R220: a move reads all its bytes before it writes. -/
theorem test_cp4 : nextWith (exec (.cp4 .dst 0#32 8#32) strip) (fun t => dstHas t 8 [0x61, 0x62, 0x63, 0x64]) = true ∧
    nextWith (exec (.cp4 .dst 0#32 1#32) strip) (fun t => dstHas t 0 [0x61, 0x61, 0x62, 0x63, 0x64]) = true := by decide
theorem test_cp2 : nextWith (exec (.cp2 .dst 2#32 0#32) strip) (fun t => dstHas t 0 [0x63, 0x64, 0x63, 0x64]) = true := by decide
theorem test_cp1 : nextWith (exec (.cp1 .src 5#32 63#32) strip) (fun t => dstHas t 63 [5]) = true ∧
    faults (exec (.cp1 .src 5#32 64#32) strip) .dstRange = true := by decide
theorem test_fcpExact : nextWith (exec (.fcpExact 15#32 15#32 5#40) strip) (fun t =>
      dstHas t 15 [15, 16, 17, 18, 19] && decide (t.dst.length = 9)) = true ∧
    faults (exec (.fcpExact 62#32 0#32 3#40) strip) .srcRange = true := by decide
/-- V-F3: the run is copied; 13 bytes leave a zone of 3. -/
theorem test_fcpWild : nextWith (exec (.fcpWild 1#32 0#32 13#40) strip) (fun t =>
      dstHas t 0 [1, 2, 3, 4, 5, 6, 7, 8, 9, 10, 11, 12, 13] && decide (t.dst.length = 16)) = true ∧
    nextWith (exec (.fcpWild 1#32 10#32 8#40) strip) (fun t => decide (t.dst.length = 12)) = true := by decide
/-- V-F6 and V-F7. -/
theorem test_mcopy : nextWith (exec (.mcopy 0#33 3#32 7#40 .exact) strip) (fun t =>
      dstHas t 3 [0x61, 0x62, 0x63, 0x61, 0x62, 0x63, 0x61]) = true ∧
    nextWith (exec (.mcopy 0#33 4#32 8#40 .wild) strip) (fun t =>
      dstHas t 4 [0x61, 0x62, 0x63, 0x64, 0x61, 0x62, 0x63, 0x64]) = true := by decide
theorem test_mcopy_badRef : faults (exec (.mcopy (-1#33) 3#32 0#40 .exact) strip) .badRef = true := by decide

/-! ### The step and the host -/

/-- R250: the host writes an operand, then CMD; the engine then takes its step; the poll reads BUSY. -/
theorem test_host_session : nextWith (step { machine [] [] with host := [.writeCsr .srcLen 20#32, .writeCsr .cmd 1#32] }) (fun t =>
      decide (t.srcLen = 20#32 ∧ t.host = [.writeCsr .cmd 1#32])) = true ∧
    nextWith (step { machine [] [] with srcLen := 20#32, host := [.writeCsr .cmd 1#32, .readCsr .result] }) (fun t =>
      decide (t.st = .mMaxlen ∧ t.host = [.readCsr .result])) = true := by decide
/-- R250 (d), R259: a poll reads BUSY and the engine takes its step all the same; another move waits. -/
theorem test_host_poll :
    nextWith (step { busy (machine [] []) 1#32 .mMaxlen with host := [.readCsr .status, .readCsr .status] }) (fun t =>
      decide (t.hostData = 1#32 ∧ t.st = .done ∧ t.host = [.readCsr .status])) = true ∧
    nextWith (step { busy (machine [] []) 1#32 .mMaxlen with host := [.readCsr .result] }) (fun t =>
      decide (t.st = .done ∧ t.result = 16#32 ∧ t.host = [.readCsr .result])) = true := by decide
/-- R250 (d): `pollEnd` stays while BUSY, and ends with the read of DONE. -/
theorem test_host_pollEnd :
    nextWith (step { busy (machine [] []) 1#32 .mMaxlen with host := [.pollEnd] }) (fun t =>
      decide (t.hostData = 1#32 ∧ t.st = .done ∧ t.host = [.pollEnd])) = true ∧
    nextWith (step { machine [] [] with st := .done, status := State.reset.status.finish, host := [.pollEnd] }) (fun t =>
      decide (t.hostData = 2#32 ∧ t.host = [])) = true := by decide
theorem test_reserved_command : refuses (step { machine [] [] with host := [.writeCsr .cmd 0x102#32] }) (.reservedCommand 0x102#32) = true := by
  decide
/-- The stride schedule of V-F1. -/
theorem test_schedule : (match strip.fcpSchedule 0 20 20 with
    | .ok t => dstHas t 20 [0, 1, 2, 3, 4, 5, 6, 7, 8, 9, 10, 11, 12, 13, 14, 15, 16, 17, 18, 19]
    | .error _ => false) = true := by decide

/-- R229's pattern through the back-offset table of R230: the gap 3 repeats `61 62 63`. -/
theorem test_table : (Memory.bytes .dst (Memory.tableCopy (cells 0 [0x61, 0x62, 0x63]) 0 3 6) 3 10).map BitVec.toNat =
    [0x61, 0x62, 0x63, 0x61, 0x62, 0x63, 0x61, 0x62, 0x63, 0x61] := by decide

/-! ### Witnesses: for each statement with hypotheses, a state and operands that meet all of them, one for each clause -/

theorem witness_DecodeEncodeRoundTrip : (Instr.extTerm 0xFE#8).wf = true ∧
    (Instr.mcopy (-65535#33) 0x7FFFFFFF#32 547608330000#40 .wild).wf = true ∧ (Instr.htAccept 0#33 0x7FFFFFFF#32).wf = true := by decide
theorem witness_DecodeReadsOnlyEncodings :
    decode .opid [0x45#8, 0xFF#8, 0x1F#8, 0xAA#8] = .ok (.htLookup 8191#13, [0xAA#8]) ∧
    decode .ext [0xFE#8] = .ok (.extTerm 0xFE#8, []) := ⟨rfl, rfl⟩
theorem witness_ReservedCommandRefused (w : Word) (hw : w = 0#32 ∨ w = 5#32 ∨ w = 0x101#32) :
    let s : State := { machine [] [] with host := [.writeCsr .cmd w] }
    s.invoke = [] ∧ s.status.state ≠ .busy ∧ s.host = .writeCsr .cmd w :: [] ∧ (w.toNat = 0 ∨ 4 < w.toNat) := by
  rcases hw with rfl | rfl | rfl <;> decide
/-- The four clauses in turn. -/
theorem witness_StepRunsDecodedInstruction :
    (let s : State := { machine [] [] with invoke := [0x23#8, 0x0F#8] };
      s.invoke ≠ [] ∧ decode .opid s.invoke = .ok (.tunLen 15#4, [])) ∧
    (let s := aaa .eProbe;
      s.invoke = [] ∧ s.status.state = .busy) ∧
    (let s : State := { machine [] [] with host := [.writeCsr .cmd 4#32] };
      s.invoke = [] ∧ s.status.state ≠ .busy ∧ s.host = .writeCsr .cmd 4#32 :: [] ∧
        decode .cmd (leBytes 4 (4#32).toNat) = .ok (.decompressStream, [])) ∧
    ((machine [] []).invoke = [] ∧ (machine [] []).status.state ≠ .busy ∧ (machine [] []).host = []) :=
  ⟨⟨by decide, rfl⟩, by decide, ⟨by decide, by decide, by decide, rfl⟩, by decide⟩
/-- A stream of one byte (or two) at the last address of SRC, in each state that reads one element. -/
def lastByte (x : St) (m : Mode) (bs : List Nat) : State :=
  { busy { machine [] [] with src := cells (64 - bs.length) bs } 4#32 x with
    mode := m, ip := BitVec.ofNat 32 (64 - bs.length), iend := 64#32 }
theorem witness_StreamStepRunsElement :
    (∀ m : Fin 2, let s := lastByte .dToken (if m = 0 then .known else .streaming) [0xF0];
      s.invoke = [] ∧ s.status.state = .busy ∧ s.st = .dToken ∧
        (s.mode = .streaming → s.ip.toNat < s.iend.toNat) ∧ s.ip.toNat + 1 ≤ s.srcSize ∧ s.srcAt s.ip.toNat = 0xF0#8) ∧
    (∀ x : Fin 2, ∀ b : Fin 2, let s := lastByte (if x = 0 then .dLitext else .dMlext) .known [0xFE + b];
      (s.st = .dLitext ∨ s.st = .dMlext) ∧ s.ip.toNat + 1 ≤ s.srcSize ∧ s.srcAt s.ip.toNat = BitVec.ofNat 8 (0xFE + b)) ∧
    (let s := lastByte .dOffset .known [0xFF, 0x00];
      s.st = .dOffset ∧ s.ip.toNat + 2 ≤ s.srcSize ∧ s.srcAt s.ip.toNat = 0xFF#8 ∧ s.srcAt (s.ip.toNat + 1) = 0x00#8) ∧
    decode .token [0xF0#8] = .ok (.token 15#4 0#4, []) ∧ decode .ext [0xFE#8] = .ok (.extTerm 0xFE#8, []) ∧
    decode .ext [0xFF#8] = .ok (.extCont, []) ∧ decode .offset [0xFF#8, 0x00#8] = .ok (.offset 255#16, []) :=
  ⟨by decide, by decide, by decide, rfl, rfl, rfl, rfl⟩
/-- The run ends exactly at the limit, and 7 bytes before it. -/
theorem witness_NearEndRunIsItsLiterals (e : Fin 8) :
    let s : State := { dec .dLitcopy with ip := 5#32, op := 15#32, len := 5#40, oend := BitVec.ofNat 32 (20 + e) }
    s.sizesOk ∧ s.st = .dLitcopy ∧ s.op.toNat + s.len.toNat ≤ s.oend.toNat ∧
      s.oend.toNat < s.op.toNat + s.len.toNat + 8 ∧ s.oend.toNat ≤ s.dstSize ∧ s.ip.toNat + s.len.toNat ≤ s.srcSize := by
  revert e; decide
/-- The last byte of SRC and of DST, and the first that is none. -/
theorem witness_HostMovesBetweenCommands (m : HostMove)
    (_ : m ∈ [.writeSrc 63#32 1#8, .writeSrc 64#32 1#8, .writeDst 63#32 1#8, .writeDst 64#32 1#8, .readSrc 63#32, .readSrc 64#32,
      .readDst 63#32, .readDst 64#32, .readCsr .cmd, .readCsr .status, .readCsr .srcLen, .readCsr .dstCap, .readCsr .expLen,
      .readCsr .result, .writeCsr .srcLen 7#32, .writeCsr .dstCap 7#32, .writeCsr .expLen 7#32, .writeCsr .status 7#32,
      .writeCsr .result 7#32, .writeCsr .cmd 1#32, .wait, .pollEnd]) :
    let s : State := { machine [] [] with host := [m] }
    s.invoke = [] ∧ s.status.state ≠ .busy ∧ s.host = m :: [] := ⟨rfl, (by decide : EngState.idle ≠ .busy), rfl⟩
theorem witness_BusyHostOnlyPolls (m : HostMove) (_ : m ∈ [.readCsr .status, .pollEnd, .wait, .readCsr .result, .writeCsr .cmd 1#32]) :
    (let s : State := { aaa .eInit with host := [m] };
      s.invoke = [] ∧ s.status.state = .busy ∧ s.host = m :: []) ∧
    (HostMove.writeCsr .cmd 1#32 ≠ .readCsr .status ∧ HostMove.writeCsr .cmd 1#32 ≠ .pollEnd ∧
      HostMove.writeCsr .cmd 1#32 ≠ .wait) := ⟨⟨rfl, rfl, rfl⟩, by decide⟩
theorem witness_EngineLeavesHostSide :
    (∃ t, exec .eLitcopy { aaa .eLitcopy with op := 1#32, len := 1#40 } = .next t) ∧ ∃ t, exec .dInit (dec .dInit) = .next t :=
  ⟨⟨_, rfl⟩, _, rfl⟩
/-- A store of one byte at the last address of DST, and an address just below it; an overflow, and the addresses around the bytes that
become unspecified. -/
theorem witness_StoresStayInTheirRange :
    strip.sizesOk ∧ (∃ t, exec (.cp1 .src 5#32 63#32) strip = .next t) ∧
      (∀ r ∈ storedAt (.cp1 .src 5#32 63#32) strip, 62 < r.1 ∨ r.1 + r.2 ≤ 62) ∧
      (∀ r ∈ storedAt (.cp1 .src 5#32 63#32) strip, 64 < r.1 ∨ r.1 + r.2 ≤ 64) ∧
      (let s : State := { dec .dLitcopy with ip := 5#32, op := 15#32, len := 5#40, oend := 19#32 };
        s.sizesOk ∧ (∃ t, exec .dLitcopy s = .next t) ∧ (∀ r ∈ storedAt .dLitcopy s, 14 < r.1 ∨ r.1 + r.2 ≤ 14) ∧
          ∀ r ∈ storedAt .dLitcopy s, 19 < r.1 ∨ r.1 + r.2 ≤ 19) :=
  ⟨by decide, ⟨_, rfl⟩, by decide, by decide, by decide, ⟨_, rfl⟩, by decide, by decide⟩
theorem witness_StepKeepsInv :
    State.reset.Inv ∧ (∃ t, step State.reset = .next t) ∧ (dec .dToken).Inv ∧ ∃ t, step (dec .dToken) = .next t :=
  ⟨⟨by decide, by decide, by decide, by decide, trivial, rfl⟩, ⟨_, rfl⟩,
    ⟨by decide, by decide, by decide, by decide, (by decide : (dec .dToken).decCursors), rfl⟩, _, rfl⟩
/-- Each command at its bounds. -/
theorem witness_CommandsStart :
    (machine [] []).status.state ≠ .busy ∧
    (let s : State := { machine [] [] with srcSize := 2139095024, srcLen := 2139095024#32 };
      s.srcLen.toNat ≤ 2139095024 ∧ s.srcLen.toNat ≤ s.srcSize) ∧
    (let s : State := { machine [] [] with srcLen := 48#32, dstCap := 64#32 };
      s.srcLen.toNat ≤ 2139095024 ∧ s.srcLen.toNat ≤ s.srcSize ∧
        s.srcLen.toNat + s.srcLen.toNat / 255 + 16 ≤ s.dstCap.toNat ∧ s.dstCap.toNat ≤ s.dstSize) ∧
    (let s : State := { machine [] [] with expLen := 64#32 };
      s.expLen.toNat ≤ s.dstSize ∧ s.expLen.toNat < 2 ^ 31) ∧
    (let s : State := { machine [] [] with srcLen := 64#32, dstCap := 64#32 };
      s.srcLen.toNat ≤ s.srcSize ∧ s.dstCap.toNat < 2 ^ 31 ∧ s.dstCap.toNat ≤ s.dstSize) := by decide
theorem witness_BrokenPreconditionRefused :
    (let s : State := { machine [] [] with srcLen := 2139095025#32 };
      2139095024 < s.srcLen.toNat) ∧
    (let s : State := { machine [] [] with srcLen := 65#32 };
      s.srcSize < s.srcLen.toNat) ∧
    (let s : State := { machine [] [] with srcLen := 20#32, dstCap := 35#32 };
      s.dstCap.toNat < s.srcLen.toNat + s.srcLen.toNat / 255 + 16) ∧
    (let s : State := { machine [] [] with dstCap := 65#32 };
      s.dstSize < s.dstCap.toNat) ∧
    (let s : State := { machine [] [] with expLen := 65#32 };
      s.dstSize < s.expLen.toNat) ∧
    (let s : State := { machine [] [] with expLen := 0x80000000#32, dstCap := 0x80000000#32 };
      2 ^ 31 ≤ s.expLen.toNat ∧ 2 ^ 31 ≤ s.dstCap.toNat) := by decide
/-- Both branches, at the bound. -/
theorem witness_MaxlenResult :
    (∃ t, exec .mMaxlen { machine [] [] with srcSize := 2139095024, srcLen := 2139095024#32 } = .next t ∧ t.result.toInt = 2147483647) ∧
    exec .mMaxlen { machine [] [] with srcLen := 2139095025#32 } = .refused .srcLenTooLarge ∧
    exec .mMaxlen { machine [] [] with srcLen := 65#32 } = .refused .srcLenBeyondSrc := ⟨⟨_, rfl, by decide⟩, rfl, rfl⟩
/-- Each command, with addresses on both sides of the bytes that become unspecified. -/
theorem witness_IdleWaitsAndDoneWrites :
    (busy (machine [] []) 2#32 .eLast).cmd = 2#32 ∧ (busy (machine [] []) 3#32 .dToken).cmd = 3#32 ∧
    (busy (machine [] []) 4#32 .dToken).cmd = 4#32 ∧ (busy (machine [] []) 1#32 .mMaxlen).cmd = 1#32 ∧
    (3#32 ≠ 1#32 ∧ 3#32 ≠ 2#32 ∧ 4#32 ≠ 1#32 ∧ 4#32 ≠ 2#32 ∧ State.reset.cmd ≠ 1#32 ∧ State.reset.cmd ≠ 2#32) ∧
    (let s : State := { dec .dLitcopy with op := 15#32, oend := 19#32 };
      ¬(s.op.toNat ≤ 14 ∧ 14 < s.oend.toNat) ∧ ¬(s.op.toNat ≤ 19 ∧ 19 < s.oend.toNat)) := by decide
theorem witness_ErrorEntry :
    (let s : State := { dec .dLitcopy with ip := 1#32 };
      1 ≤ s.ip.toNat ∧ s.ip.toNat < 2 ^ 31) ∧
    (let s : State := { dec .dLitcopy with ip := 0x7FFFFFFF#32 };
      1 ≤ s.ip.toNat ∧ s.ip.toNat < 2 ^ 31) := by decide
theorem witness_ElementsInContext :
    (dec .dToken).st = .dToken ∧ (dec .dLitext).st = .dLitext ∧ (dec .dMlext).st = .dMlext ∧ 0xFE#8 ≠ 0xFF#8 ∧
    (let s : State := { dec .dLitcopy with op := 63#32 };
      s.st = .dLitcopy ∧ s.op.toNat + 1 ≤ s.dstSize) ∧ (dec .dOffset).st = .dOffset := by decide
theorem witness_ElementsOutOfContext :
    State.reset.st ≠ .dToken ∧ State.reset.st ≠ .dLitext ∧ State.reset.st ≠ .dMlext ∧ State.reset.st ≠ .dLitcopy ∧
    State.reset.st ≠ .dOffset := by decide
/-- The code 14; no `0xFF` and a final 254; two `0xFF` up to the last byte of SRC; a SRC of `0xFF` only. -/
theorem witness_LengthAssembly :
    (14#4).toNat < 15 ∧
    (let s := machine [0xFE] [];
      s.sizesOk ∧ 254 < 255 ∧ s.ip.toNat + 0 + 1 ≤ s.srcSize ∧ (s.srcAt (s.ip.toNat + 0)).toNat = 254) ∧
    (let s : State := { machine [] [] with src := cells 61 [0xFF, 0xFF, 0], ip := 61#32 };
      s.sizesOk ∧ s.ip.toNat + 2 + 1 ≤ s.srcSize ∧ (∀ j < 2, (s.srcAt (s.ip.toNat + j)).toNat = 255) ∧
        (s.srcAt (s.ip.toNat + 2)).toNat = 0) ∧
    (let s : State := { machine [] [] with src := cells 63 [0xFF], ip := 63#32 };
      ∀ a, s.ip.toNat ≤ a → a < s.srcSize → (s.srcAt a).toNat = 255) :=
  ⟨by decide, by decide, by decide, fun a h1 h2 => by
    obtain rfl : a = 63 := Nat.le_antisymm (Nat.le_of_lt_succ h2) h1
    decide⟩
/-- The last address of DST; a final byte of 254 and one of 0 after `0xFF`. -/
theorem witness_PackWrites :
    (let s : State := { machine [] [] with op := 63#32 };
      s.op.toNat + 1 ≤ s.dstSize ∧ s.op.toNat + (254#40).toNat / 255 + 1 ≤ s.dstSize) ∧
    (let s : State := { machine [] [] with op := 62#32 };
      s.op.toNat + (255#40).toNat / 255 + 1 ≤ s.dstSize) := by decide
/-- The lengths 14, 15 and 270. -/
theorem witness_PackThenUnpack :
    (let s := machine [] [];
      s.sizesOk ∧ s.ip.toNat + (extOf 14).length ≤ s.srcSize ∧
        Memory.bytes .src s.src s.ip.toNat (extOf 14).length = extOf 14) ∧
    (let s := machine [0x00] [];
      s.ip.toNat + (extOf 15).length ≤ s.srcSize ∧ Memory.bytes .src s.src s.ip.toNat (extOf 15).length = extOf 15) ∧
    (let s := machine [0xFF, 0x00] [];
      s.ip.toNat + (extOf 270).length ≤ s.srcSize ∧ Memory.bytes .src s.src s.ip.toNat (extOf 270).length = extOf 270) ∧
    ∃ t, exec (.tunLen 15#4) (machine [0xFF, 0x00] []) = .next t := ⟨by decide, by decide, by decide, _, rfl⟩
theorem witness_SelectAndClear :
    ({ machine [] [] with variant := .wide } : State).variant = .wide ∧ (machine [] []).variant = .narrow := by decide
/-- The last index of the wide table and the first it has not; the last position a narrow entry holds and the first it does not. -/
theorem witness_LookupAndInsert :
    (let s : State := { machine [] [] with variant := .wide };
      (s.variant = .wide → (4095#13).toNat < 4096) ∧ s.variant = .wide ∧ 4096 ≤ (4096#13).toNat) ∧
    ((machine [] []).variant = .wide → (8191#13).toNat < 4096) ∧
    ((machine [] []).variant = .narrow → (65535#32).toNat < 65536) ∧
    ¬((machine [] []).variant = .narrow → (65536#32).toNat < 65536) ∧ (0#13 : Bucket) ≠ 1#13 := by decide
/-- A position that fits a narrow entry, and one that does not. -/
theorem witness_ProbeLooksUpThenInserts :
    (60#32).toNat + 4 ≤ (machine [] []).srcSize ∧ ((machine [] []).variant = .narrow → (60#32).toNat < 65536) ∧
    (65536#32).toNat + 4 ≤ ({ machine [] [] with srcSize := 65540 } : State).srcSize := by decide
theorem witness_AcceptDecides : 0 ≤ (0#33).toInt ∧ (60#32).toNat + 4 ≤ (machine [] []).srcSize := by decide
/-- A probe past `mflimit`, one at it, and one at a position that does not fit a narrow entry. -/
theorem witness_ProbeStep :
    (let s : State := { aaa .eProbe with fwd := 9#32 };
      s.mflimit.toNat < s.fwd.toNat) ∧
    (let s : State := { aaa .eProbe with fwd := 8#32 };
      s.fwd.toNat ≤ s.mflimit.toNat ∧ s.fwd.toNat + 4 ≤ s.srcSize ∧ (s.variant = .narrow → s.fwd.toNat < 65536)) ∧
    (let s : State := { aaa .eProbe with fwd := 65536#32, mflimit := 65536#32, srcSize := 65540 };
      s.fwd.toNat ≤ s.mflimit.toNat ∧ s.fwd.toNat + 4 ≤ s.srcSize) := by decide
theorem witness_CatchupStep :
    let s : State := { aaa .eCatchup with ip := 64#32, ref := 64#33 }
    0 ≤ s.ref.toInt ∧ s.ip.toNat ≤ s.srcSize ∧ s.ref.toInt ≤ s.srcSize := by decide
theorem witness_LitlenStep :
    let s : State := { aaa .eLitlen with ip := 15#32, op := 62#32 }
    s.sizesOk ∧ s.anchor.toNat ≤ s.ip.toNat ∧ s.op.toNat + (headOf (s.ip.toNat - s.anchor.toNat)).length ≤ s.dstSize := by decide
/-- A run up to the last byte of DST; the distance 65535. -/
theorem witness_LitcopyAndOffsetSteps :
    (let s : State := { aaa .eLitcopy with op := 44#32, len := 20#40 };
      s.anchor.toNat + s.len.toNat ≤ s.srcSize ∧ s.op.toNat + s.len.toNat ≤ s.dstSize) ∧
    (let s : State := { aaa .eOffset with ip := 65535#32, op := 62#32 };
      s.ref.toInt + (65535 : Nat) = s.ip.toNat ∧ 65535 < 65536 ∧ s.op.toNat + 2 ≤ s.dstSize) := by decide
theorem witness_ExtendStep :
    let s : State := { aaa .eExtend with ip := 8#32, ref := 7#33 }
    s.sizesOk ∧ 0 ≤ s.ref.toInt ∧ s.ref.toInt ≤ s.ip.toNat ∧ s.ip.toNat + 4 ≤ s.matchlimit.toNat ∧
      s.matchlimit.toNat ≤ s.srcSize := by decide
theorem witness_MlenStep :
    let s : State := { aaa .eMlen with ip := 20#32, mstart := 5#32, op := 63#32 }
    s.sizesOk ∧ s.mstart.toNat ≤ s.ip.toNat ∧ s.tokpos.toNat < s.op.toNat ∧
      s.op.toNat + (extOf (s.ip.toNat - s.mstart.toNat)).length ≤ s.dstSize := by decide
/-- Both branches: a candidate of the same four bytes, and the position itself. -/
theorem witness_ChainStep :
    (let s : State := { aaa .eChain with ip := 8#32, op := 63#32, htN := [(1190, 5#16)] };
      s.ip.toNat + 4 ≤ s.srcSize ∧ s.op.toNat + 1 ≤ s.dstSize ∧
        (let r := (s.htAt (hashOf s.variant (s.wordAt s.ip.toNat))).toNat;
          r < s.ip.toNat ∧ s.ip.toNat - r ≤ 65535 ∧ ∀ j : Fin 4, s.srcAt (r + j) = s.srcAt (s.ip.toNat + j))) ∧
    (let s : State := { aaa .eChain with ip := 8#32, op := 63#32, htN := [(1190, 8#16)] };
      s.ip.toNat + 4 ≤ s.srcSize ∧ s.op.toNat + 1 ≤ s.dstSize ∧
        ¬(s.htAt (hashOf s.variant (s.wordAt s.ip.toNat))).toNat < s.ip.toNat) := by decide
/-- Two buckets, and every position fits; then the first position that does not fit a narrow entry. -/
theorem witness_RehashStep :
    (let s : State := { aaa .eRehash with ip := 2#32, src := cells 0 [1, 2, 3, 4, 5, 6] };
      2 ≤ s.ip.toNat ∧ s.ip.toNat + 4 ≤ s.srcSize ∧ (s.variant = .narrow → s.ip.toNat < 65536) ∧
        (s.variant = .narrow → s.ip.toNat - 2 < 65536) ∧
        hashOf s.variant (s.wordAt (s.ip.toNat - 2)) ≠ hashOf s.variant (s.wordAt s.ip.toNat)) ∧
    (let s : State := { aaa .eRehash with ip := 65536#32, srcSize := 65540 };
      2 ≤ s.ip.toNat ∧ s.ip.toNat + 4 ≤ s.srcSize ∧ ¬(s.variant = .narrow → s.ip.toNat < 65536)) := by decide
theorem witness_LastStep :
    let s : State := { aaa .eLast with anchor := 5#32, op := 47#32 }
    s.sizesOk ∧ s.anchor.toNat ≤ s.iend.toNat ∧ s.iend.toNat ≤ s.srcSize ∧
      (let l := s.iend.toNat - s.anchor.toNat;
        s.op.toNat + (headOf l).length + l ≤ s.dstSize) := by decide
/-- At the start of a command, in a search, before an offset, and at the end. -/
theorem witness_EncNeverStops_eInit : (aaa .eInit).EncInv :=
  ⟨by decide, (by decide : (aaa .eInit).srcLen.toNat ≤ (aaa .eInit).srcSize ∧ maxCompressed (aaa .eInit).srcLen.toNat ≤ (aaa .eInit).dstSize)⟩
theorem witness_EncNeverStops_eSearchInit : (aaa .eSearchInit).EncInv :=
  ⟨by decide, (by decide : (aaa .eSearchInit).encBlock), by decide, by decide, by decide⟩
theorem witness_EncNeverStops_eOffset : ({ aaa .eOffset with ip := 1#32, op := 2#32 } : State).EncInv :=
  ⟨by decide, (by decide : ({ aaa .eOffset with ip := 1#32, op := 2#32 } : State).encBlock),
    ⟨by decide, by decide, by decide, by decide, by decide⟩, by decide, by decide⟩
theorem witness_EncNeverStops_eLast : ({ aaa .eLast with anchor := 15#32, op := 4#32 } : State).EncInv :=
  ⟨by decide, (by decide : (20#32).toNat ≤ 64), by decide, by decide, by decide⟩
theorem witness_CompressMeetsEncInv :
    (machine [] []).sizesOk ∧ ∃ t, exec .compress { machine [] [] with srcLen := 48#32, dstCap := 64#32 } = .next t :=
  ⟨by decide, _, rfl⟩
theorem witness_Transitions :
    (∃ t, exec (aaa .eEndchk).st.instr (aaa .eEndchk) = .next t) ∧ (aaa .eEndchk).st.isEnc = true ∧
    (∃ t, exec (dec .dToken).st.instr (dec .dToken) = .next t) ∧ (dec .dToken).st.isDec = true := ⟨⟨_, rfl⟩, rfl, ⟨_, rfl⟩, rfl⟩
theorem witness_EncUsesNoDraw :
    (aaa .eSearchInit).st.isEnc = true ∧ ∃ t, exec (aaa .eSearchInit).st.instr (aaa .eSearchInit) = .next t := ⟨rfl, _, rfl⟩
theorem witness_DecInit : (dec .dInit).cmd = 3#32 ∧ ({ dec .dInit with cmd := 4#32 } : State).cmd ≠ 3#32 := by decide
/-- The branches of D.TOKEN: the streaming end, the last byte of SRC, and past it. -/
theorem witness_TokenStep :
    (let s := lastByte .dToken .streaming [];
      s.mode = .streaming ∧ s.iend.toNat ≤ s.ip.toNat) ∧
    (let s := lastByte .dToken .streaming [0];
      ¬(s.mode = .streaming ∧ s.iend.toNat ≤ s.ip.toNat) ∧ s.ip.toNat < s.srcSize) ∧
    (let s := lastByte .dToken .known [];
      ¬(s.mode = .streaming ∧ s.iend.toNat ≤ s.ip.toNat) ∧ ¬s.ip.toNat < s.srcSize) := by decide
/-- One past the limit; one byte past SRC, near the end and away from it; exactly at the limit and 7 before it; 8 before it. -/
theorem witness_LitcopyStep :
    (let s : State := { dec .dLitcopy with ip := 5#32, op := 15#32, len := 5#40, oend := 19#32 };
      s.sizesOk ∧ s.oend.toNat < s.op.toNat + s.len.toNat) ∧
    (∀ e : Fin 2, let s : State := { dec .dLitcopy with
        ip := 60#32, op := 15#32, len := 5#40, oend := BitVec.ofNat 32 (20 + 8 * e) };
      s.sizesOk ∧ s.op.toNat + s.len.toNat ≤ s.oend.toNat ∧ 0 < s.len.toNat ∧ s.srcSize < s.ip.toNat + s.len.toNat) ∧
    (∀ e : Fin 8, let s : State := { dec .dLitcopy with ip := 5#32, op := 15#32, len := 5#40, oend := BitVec.ofNat 32 (20 + e) };
      s.sizesOk ∧ s.op.toNat + s.len.toNat ≤ s.oend.toNat ∧ s.oend.toNat < s.op.toNat + s.len.toNat + 8 ∧
        s.oend.toNat ≤ s.dstSize ∧ s.ip.toNat + s.len.toNat ≤ s.srcSize) ∧
    (let s : State := { dec .dLitcopy with ip := 5#32, op := 15#32, len := 5#40, oend := 28#32 };
      s.sizesOk ∧ s.op.toNat + s.len.toNat + 8 ≤ s.oend.toNat ∧ s.oend.toNat ≤ s.dstSize ∧
        s.ip.toNat + s.len.toNat ≤ s.srcSize) := by decide
/-- The known-size end, the streaming end with the cursor at `iend`, and neither. -/
theorem witness_EofchkAndOffsetSteps :
    (let s : State := { dec .dEofchk with op := 20#32 };
      s.mode = .known ∧ s.op = s.oend) ∧
    (let s : State := { dec .dEofchk with mode := .streaming, ip := 10#32, iend := 10#32, op := 12#32 };
      s.mode = .streaming ∧ s.iend.toNat ≤ s.ip.toNat) ∧
    (let s : State := { dec .dEofchk with op := 12#32 };
      ¬(s.mode = .known ∧ s.op = s.oend) ∧ ¬(s.mode = .streaming ∧ s.iend.toNat ≤ s.ip.toNat)) := by decide
theorem witness_Match4Step :
    (let s : State := { dec .dMatch4 with ref := -1#33 };
      s.ref.toInt < 0) ∧
    (let s : State := { dec .dMatch4 with op := 60#32, ref := 59#33 };
      0 ≤ s.ref.toInt ∧ s.ref.toInt + 4 ≤ s.dstSize ∧ s.op.toNat + 4 ≤ s.dstSize) := by decide
/-- One past the limit; exactly at it; 1 and 7 before it; 8 before it. -/
theorem witness_MatchcopyStep :
    (let s : State := { dec .dMatchcopy with op := 5#32, ref := 4#33, len := 10#40, oend := 14#32 };
      s.sizesOk ∧ s.oend.toNat < s.op.toNat + s.len.toNat) ∧
    (let s : State := { dec .dMatchcopy with op := 5#32, ref := 4#33, len := 10#40, oend := 15#32 };
      s.sizesOk ∧ s.op.toNat + s.len.toNat = s.oend.toNat ∧ s.oend.toNat ≤ s.dstSize ∧ 0 ≤ s.ref.toInt ∧
        s.ref.toInt ≤ s.op.toNat) ∧
    (∀ e : Fin 7, let s : State := { dec .dMatchcopy with
        op := 5#32, ref := 5#33, len := 10#40, oend := BitVec.ofNat 32 (16 + e) };
      s.op.toNat + s.len.toNat < s.oend.toNat ∧ s.oend.toNat < s.op.toNat + s.len.toNat + 8 ∧ s.oend.toNat ≤ s.dstSize ∧
        0 ≤ s.ref.toInt ∧ s.ref.toInt ≤ s.op.toNat) ∧
    (let s : State := { dec .dMatchcopy with op := 5#32, ref := 0#33, len := 10#40, oend := 23#32 };
      s.op.toNat + s.len.toNat + 8 ≤ s.oend.toNat ∧ s.oend.toNat ≤ s.dstSize ∧ 0 ≤ s.ref.toInt ∧
        s.ref.toInt ≤ s.op.toNat) := by decide
/-- Both commands, the limit at the end of DST; two steps; the first address above the limit. -/
theorem witness_DecompressStaysBelowItsLimit :
    (let s : State := { dec .dInit with expLen := 64#32 };
      s.sizesOk ∧ s.st = .dInit ∧ s.phaseOk ∧ (∃ t, runDec 2 s = .next t) ∧
        (if s.cmd = 3#32 then s.expLen.toNat else s.dstCap.toNat) ≤ 64) ∧
    (let s : State := { dec .dInit with cmd := 4#32 };
      s.sizesOk ∧ s.st = .dInit ∧ s.phaseOk ∧ (∃ t, runDec 2 s = .next t) ∧
        (if s.cmd = 3#32 then s.expLen.toNat else s.dstCap.toNat) ≤ 40) := by
  refine ⟨⟨by decide, rfl, ?_, ⟨_, rfl⟩, by decide⟩, by decide, rfl, ?_, ⟨_, rfl⟩, by decide⟩
  · exact (by decide : (64#32).toNat ≤ 64)
  · exact (by decide : (40#32).toNat ≤ 64)
/-- A step that goes on with `ref` left by an earlier command (P1 part 2: `ref = 14`), one that reads past SRC, one that reads before the
output, and one in each state where `ref` is a match source, at `ref = op`. -/
theorem witness_DecStopsOnlyOnReads :
    (let s : State := { dec .dToken with ref := 14#33 };
      s.sizesOk ∧ s.phaseOk ∧ s.refOk ∧ s.st.isDec = true) ∧
    (let s : State := { dec .dToken with ip := 64#32 };
      s.sizesOk ∧ s.phaseOk ∧ s.refOk ∧ s.st.isDec = true) ∧
    (let s : State := { dec .dMatch4 with ip := 4#32, op := 12#32, ref := -1#33 };
      s.sizesOk ∧ s.phaseOk ∧ s.refOk ∧ s.st.isDec = true) ∧
    (let s : State := { dec .dMatchcopy with ip := 4#32, op := 12#32, ref := 12#33 };
      s.sizesOk ∧ s.phaseOk ∧ s.refOk ∧ s.st.isDec = true) ∧
    (let s : State := { dec .dMlext with ip := 4#32, op := 12#32, ref := 12#33 };
      s.sizesOk ∧ s.phaseOk ∧ s.refOk ∧ s.st.isDec = true) := by
  refine ⟨⟨by decide, ?_, trivial, rfl⟩, ⟨by decide, ?_, trivial, rfl⟩, ⟨by decide, ⟨by decide, by decide, by decide⟩, ?_, rfl⟩,
    ⟨by decide, ⟨by decide, by decide, by decide⟩, ?_, rfl⟩, by decide, ⟨by decide, by decide, by decide⟩, ?_, rfl⟩
  · exact (by decide : (dec .dToken).decCursors)
  · exact (by decide : ({ dec .dToken with ip := 64#32 } : State).decCursors)
  · exact (by decide : (-1#33).toInt ≤ (12#32).toNat)
  · exact (by decide : (12#33).toInt ≤ (12#32).toNat)
  · exact (by decide : (12#33).toInt ≤ (12#32).toNat)
/-- Every stride, from the last bytes of SRC to the last bytes of DST. -/
theorem witness_StrideMoves (k : Nat) (i : Instr)
    (h : (k, i) ∈ [(16, .cp16 .src 48#32 48#32), (8, .cp8 .src 48#32 48#32), (4, .cp4 .src 48#32 48#32),
      (2, .cp2 .src 48#32 48#32), (1, Instr.cp1 .src 48#32 48#32)]) :
    (48#32).toNat + k ≤ strip.size .src ∧ (48#32).toNat + k ≤ strip.dstSize := by
  simp only [List.mem_cons, List.not_mem_nil, or_false, Prod.mk.injEq] at h
  rcases h with ⟨rfl, _⟩ | ⟨rfl, _⟩ | ⟨rfl, _⟩ | ⟨rfl, _⟩ | ⟨rfl, _⟩ <;> decide
/-- Every stride, at the distance 16 up to the last byte of DST; the distance 1 for CP1. -/
theorem witness_StrideEqualsByteMoves (k : Nat) (i : Instr)
    (h : (k, i) ∈ [(16, .cp16 .dst 32#32 48#32), (8, .cp8 .dst 32#32 48#32), (4, .cp4 .dst 32#32 48#32),
      (2, .cp2 .dst 32#32 48#32), (1, Instr.cp1 .dst 32#32 48#32)]) :
    (32#32).toNat + k ≤ (48#32).toNat ∧ (48#32).toNat + k ≤ strip.dstSize := by
  simp only [List.mem_cons, List.not_mem_nil, or_false, Prod.mk.injEq] at h
  rcases h with ⟨rfl, _⟩ | ⟨rfl, _⟩ | ⟨rfl, _⟩ | ⟨rfl, _⟩ | ⟨rfl, _⟩ <;> decide
theorem witness_LiteralCopies :
    ((59#32).toNat + (5#40).toNat ≤ strip.srcSize ∧ (59#32).toNat + (5#40).toNat ≤ strip.dstSize) ∧
    (0 < (6#40).toNat ∧ strip.srcSize < (59#32).toNat + (6#40).toNat) ∧
    ((59#32).toNat + (5#40).toNat ≤ strip.srcSize ∧
      (56#32).toNat + (5#40).toNat + (8 - (5#40).toNat % 8) % 8 ≤ strip.dstSize) := by decide
/-- A run of 31 bytes, which uses every stride, up to the last byte of each memory. -/
theorem witness_ScheduleEqualsExactCopy : 33 + 31 ≤ strip.srcSize ∧ 33 + 31 ≤ strip.dstSize := by decide
theorem witness_MatchCopy :
    (-1#33 : Ref).toInt < 0 ∧
    (0 ≤ (0#33 : Ref).toInt ∧ (0#33 : Ref).toInt + (32#40).toNat ≤ strip.dstSize ∧ (32#32).toNat + (32#40).toNat ≤ strip.dstSize) ∧
    (0 ≤ (31#33 : Ref).toInt ∧ (31#33 : Ref).toInt + (25#40).toNat ≤ strip.dstSize ∧
      (32#32).toNat + (25#40).toNat ≤ strip.dstSize) := by decide

end Sys2Proof.Tests
end

/-! What every instruction of the engine leaves alone and keeps in form, and the case analysis of each step it rests on. -/

namespace Sys2Proof.Machine

/-! ### What is kept -/

/-- A memory in canonical form that lists only addresses below `n` (R32, R50). -/
def Memory.Fits (m : Memory) (n : Nat) : Prop := m.wf ∧ ∀ e ∈ m, e.1 < n

/-- A table in canonical form that lists only indexes below `n` (R31). -/
def Table.Fits {w : Nat} (t : Table w) (n : Nat) : Prop := t.wf ∧ ∀ e ∈ t, e.1 < n

/-- SRC, the sizes, the operand registers and the model's own fields of the host's side (R26, R32, R66; log entries 1, 8, 12). -/
def State.hostSide (s : State) : Memory × Nat × Nat × Word × Word × Word × List HostMove × Word × List Byte :=
  (s.src, s.srcSize, s.dstSize, s.srcLen, s.dstCap, s.expLen, s.host, s.hostData, s.invoke)

/-- From `s` to `t` the host's side is as before, and DST and the tables stay in canonical form inside their spaces. Of an update of
other fields `⟨rfl, id, id, id⟩` says so. -/
structure State.EngineKeeps (s t : State) : Prop where
  hostSide : t.hostSide = s.hostSide
  dst : s.dst.Fits s.dstSize → t.dst.Fits t.dstSize
  htW : s.htW.Fits tableSizeW → t.htW.Fits tableSizeW
  htN : s.htN.Fits tableSizeN → t.htN.Fits tableSizeN

theorem State.hostSide_eq_iff {s t : State} : t.hostSide = s.hostSide ↔
    t.src = s.src ∧ t.srcSize = s.srcSize ∧ t.dstSize = s.dstSize ∧ t.srcLen = s.srcLen ∧ t.dstCap = s.dstCap ∧
    t.expLen = s.expLen ∧ t.host = s.host ∧ t.hostData = s.hostData ∧ t.invoke = s.invoke := by
  simp only [State.hostSide, Prod.mk.injEq]

theorem State.memOk_iff (s : State) : s.memOk ↔
    s.src.Fits s.srcSize ∧ s.dst.Fits s.dstSize ∧ s.htW.Fits tableSizeW ∧ s.htN.Fits tableSizeN := by
  unfold State.memOk Memory.Fits Table.Fits
  tauto

theorem State.sizesOk.src_le {s : State} (h : s.sizesOk) : s.srcSize ≤ maxMemSize := h.2.1
theorem State.sizesOk.dst_le {s : State} (h : s.sizesOk) : s.dstSize ≤ maxMemSize := h.2.2.2

namespace State.EngineKeeps

variable {s t u : State}

theorem trans (h : s.EngineKeeps t) (k : t.EngineKeeps u) : s.EngineKeeps u where
  hostSide := k.hostSide.trans h.hostSide
  dst := k.dst ∘ h.dst
  htW := k.htW ∘ h.htW
  htN := k.htN ∘ h.htN

theorem invoke (h : s.EngineKeeps t) : t.invoke = s.invoke := by
  obtain ⟨-, -, -, -, -, -, -, -, hi⟩ := State.hostSide_eq_iff.mp h.hostSide
  exact hi

theorem sizesOk (h : s.EngineKeeps t) (hs : s.sizesOk) : t.sizesOk := by
  obtain ⟨-, hsrc, hdst, -⟩ := State.hostSide_eq_iff.mp h.hostSide
  unfold State.sizesOk
  rwa [hsrc, hdst]

theorem memOk (h : s.EngineKeeps t) (hs : s.memOk) : t.memOk := by
  obtain ⟨hsrc, hsize, -⟩ := State.hostSide_eq_iff.mp h.hostSide
  rw [State.memOk_iff] at hs ⊢
  obtain ⟨hfits, hdst, hW, hN⟩ := hs
  exact ⟨by rwa [hsrc, hsize], h.dst hdst, h.htW hW, h.htN hN⟩

end State.EngineKeeps

/-! ### Memories and tables that fit their spaces -/

theorem Memory.Fits.store {m : Memory} {n a : Nat} {bs : List Byte} (h : m.Fits n) (hb : bs = [] ∨ a + bs.length ≤ n) :
    (Memory.store m a bs).Fits n := by
  refine ⟨Memory.store_wf a bs h.1, fun e he => ?_⟩
  rcases Memory.mem_store he with he | ⟨_, he⟩
  · exact h.2 e he
  · rcases hb with rfl | hb
    · simp only [List.length_nil] at he; omega
    · omega

theorem Memory.Fits.copyUp {m : Memory} {sp : Space} {n r d k : Nat} (h : m.Fits n) (hk : k = 0 ∨ d + k ≤ n) :
    (Memory.copyUp sp m r d k).Fits n := by
  refine ⟨Memory.copyUp_wf r d k h.1, fun e he => ?_⟩
  rcases Memory.mem_copyUp he with he | he
  · exact h.2 e he
  · omega

theorem Table.Fits.set {w n i : Nat} {t : Table w} (v : BitVec w) (h : t.Fits n) (hi : i < n) : (Table.set t i v).Fits n :=
  ⟨Table.set_wf i v h.1, fun e he => (Table.mem_set he).elim (h.2 e) fun hk => hk ▸ hi⟩

theorem Table.Fits.nil {w : Nat} (n : Nat) : Table.Fits ([] : Table w) n := ⟨Table.wf_nil, fun _ he => nomatch he⟩

/-! ### The shared operations -/

section
variable {s t : State}

/-- Bytes of DST are stored where DST has them. -/
theorem State.EngineKeeps.of_store {a : Nat} {bs : List Byte} (hb : bs = [] ∨ a + bs.length ≤ s.dstSize) :
    s.EngineKeeps { s with dst := Memory.store s.dst a bs } :=
  ⟨rfl, fun h => h.store hb, id, id⟩

theorem State.writeDst_keeps {a : Nat} {bs : List Byte} (h : s.writeDst a bs = .ok t) : s.EngineKeeps t := by
  obtain ⟨rfl, hb⟩ := State.writeDst_ok h
  exact .of_store hb

theorem State.packToken_keeps {l : Nat} (h : s.packToken l = .ok t) : s.EngineKeeps t := by
  obtain ⟨hb, rfl⟩ := State.packToken_ok h
  exact (State.EngineKeeps.of_store (.inr hb)).trans ⟨rfl, id, id, id⟩

theorem State.packExt_keeps {r : Nat} (h : s.packExt r = .ok t) : s.EngineKeeps t := by
  obtain ⟨hb, rfl⟩ := State.packExt_ok h
  exact (State.EngineKeeps.of_store (.inr (by rwa [extBytes_length]))).trans ⟨rfl, id, id, id⟩

theorem State.packLen_keeps {l : Nat} (h : s.packLen l = .ok t) : s.EngineKeeps t := by
  obtain ⟨u, hu, h⟩ := except_bind_ok h
  split at h
  · exact (State.packToken_keeps hu).trans (State.packExt_keeps h)
  · cases h
    exact State.packToken_keeps hu

theorem State.stride_keeps {k a d : Nat} {m : Space} (h : s.stride k m a d = .ok t) : s.EngineKeeps t := by
  obtain ⟨bs, -, h⟩ := except_bind_ok h
  exact State.writeDst_keeps h

theorem State.fcpExact_keeps {a d n : Nat} (h : s.fcpExact a d n = .ok t) : s.EngineKeeps t := State.stride_keeps h

theorem State.fcpWild_keeps {a d n : Nat} (h : s.fcpWild a d n = .ok t) : s.EngineKeeps t := by
  obtain ⟨u, hu, h⟩ := except_bind_ok h
  obtain ⟨v, hv, h⟩ := except_bind_ok h
  cases h
  exact ((State.fcpExact_keeps hu).trans (State.writeDst_keeps hv)).trans ⟨rfl, id, id, id⟩

theorem State.mcopyExact_keeps {ref : Int} {d n : Nat} (h : s.mcopyExact ref d n = .ok t) : s.EngineKeeps t := by
  obtain ⟨rfl, -, hn⟩ := State.mcopyExact_ok h
  exact ⟨rfl, fun h => h.copyUp (hn.imp_right And.right), id, id⟩

theorem State.matchCopy_keeps {ref : Int} {d n : Nat} {f : CopyForm} (h : s.matchCopy ref d n f = .ok t) : s.EngineKeeps t := by
  cases f with
  | exact => exact State.mcopyExact_keeps h
  | wild =>
    obtain ⟨u, hu, h⟩ := except_bind_ok h
    obtain ⟨v, hv, h⟩ := except_bind_ok h
    cases h
    exact ((State.mcopyExact_keeps hu).trans (State.writeDst_keeps hv)).trans ⟨rfl, id, id, id⟩

theorem State.tunExt_keeps {r : State × Bool} (h : s.tunExt = .ok r) : s.EngineKeeps r.1 := by
  obtain ⟨-, rfl⟩ := State.tunExt_ok h
  exact ⟨rfl, id, id, id⟩

theorem State.tunLoop_keeps {n : Nat} (h : State.tunLoop n s = .ok t) : s.EngineKeeps t := by
  induction n generalizing s with
  | zero => cases h
  | succ n ih =>
    simp only [State.tunLoop] at h
    split at h
    · cases h
    · next u more hu =>
      have hk : s.EngineKeeps u := State.tunExt_keeps hu
      split at h
      · exact hk.trans (ih h)
      · cases h
        exact hk

theorem State.tunLen_keeps {c : BitVec 4} (h : s.tunLen c = .ok t) : s.EngineKeeps t := by
  have hk : s.EngineKeeps { s with len := c.setWidth 40 } := ⟨rfl, id, id, id⟩
  unfold State.tunLen at h
  dsimp only at h
  split at h
  · exact hk.trans (State.tunLoop_keeps h)
  · cases h
    exact hk

/-- An insertion at an index the selected variant has stays inside its table. -/
theorem State.htPut_keeps {i : Bucket} (p : Pos) (hi : s.bucketOk i) : s.EngineKeeps (s.htPut i p) := by
  unfold State.htPut
  split
  · next hv => exact ⟨rfl, id, fun h => h.set p (hi hv), id⟩
  · exact ⟨rfl, id, id, fun h => h.set _ i.isLt⟩

theorem State.strayPut_fits (p : Pos) (h : s.htW.Fits tableSizeW) : (s.strayPut p).Fits tableSizeW :=
  ⟨State.strayPut_wf p h.1, State.strayPut_mem h.2⟩

theorem State.htSet_keeps (i : Bucket) (p : Pos) : s.EngineKeeps (s.htSet i p) := by
  by_cases hi : s.bucketOk i
  · rw [State.htSet_of hi]
    exact State.htPut_keeps p hi
  · rw [State.htSet_stray hi]
    exact ⟨rfl, id, State.strayPut_fits p, id⟩

theorem State.htGet_keeps (i : Bucket) : s.EngineKeeps (s.htGet i).2 := by
  rw [State.htGet_fields]
  exact ⟨rfl, id, id, id⟩

theorem State.htReset_keeps : s.EngineKeeps s.htReset := by
  unfold State.htReset
  split
  · exact ⟨rfl, id, fun _ => .nil _, id⟩
  · exact ⟨rfl, id, id, fun _ => .nil _⟩

theorem State.htProbeAt_keeps {p : Pos} (h : s.htProbeAt p = .ok t) : s.EngineKeeps t := by
  obtain ⟨-, rfl⟩ := State.htProbeAt_ok h
  exact (State.htPut_keeps p (s.hashOf_bucketOk _)).trans ⟨rfl, id, id, id⟩

theorem State.insertAt_keeps {p : Int} (h : s.insertAt p = .ok t) : s.EngineKeeps t := by
  obtain ⟨-, -, rfl⟩ := State.insertAt_ok h
  exact State.htPut_keeps _ (s.hashOf_bucketOk _)

theorem State.loseTail_keeps : s.EngineKeeps s.loseTail := by
  have hd : s.dst.Fits s.dstSize → s.loseTail.dst.Fits s.dstSize := fun h => ⟨State.loseTail_wf h.1, State.loseTail_mem h.2⟩
  rw [State.loseTail_eq]
  exact ⟨rfl, hd, id, id⟩

theorem State.endDec_keeps : s.EngineKeeps s.endDec := State.loseTail_keeps.trans ⟨rfl, id, id, id⟩

theorem State.raiseOverflow_keeps : s.EngineKeeps s.raiseOverflow := State.loseTail_keeps.trans ⟨rfl, id, id, id⟩

end

end Sys2Proof.Machine

/-! ### What each step can do -/

namespace Sys2Proof.Machine

section
variable {s t : State}

/-- R141: the registers as E.INIT sets them, before it clears the table. -/
def State.encStarted (s : State) : State :=
  { s with
    iend := s.srcLen, ip := 0#32, anchor := 0#32, op := 0#32, variant := selectVariant s.srcLen.toNat
    status := s.status.withVariant (selectVariant s.srcLen.toNat) }

/-- R143: the counter and the cursors as E.PROBE moves them, before it tests or probes. -/
def State.probeMoved (s : State) : State :=
  { s with attempts := s.attempts + 1#32, ip := s.fwd, fwd := advance s.fwd (s.attempts >>> skipStrength).toNat }

theorem execEInit_next (h : execEInit s = .next t) : ∃ m l x, (x = .eLast ∨ x = .eSearchInit) ∧
    t = { s.encStarted.htReset with mflimit := m, matchlimit := l, st := x } := by
  unfold execEInit at h
  dsimp only at h
  split at h <;> cases h
  · exact ⟨_, _, _, .inl rfl, rfl⟩
  · exact ⟨_, _, _, .inr rfl, rfl⟩

theorem execEProbe_next (h : execEProbe s = .next t) :
    (s.mflimit.toNat < s.fwd.toNat ∧ t = { s.probeMoved with st := .eLast }) ∨
    ∃ u ok, s.probeMoved.htProbeAt s.fwd = .ok u ∧ u.accept u.ref.toInt (pos u.ip) = .ok ok ∧
      t = { u with st := if ok then .eCatchup else .eProbe } := by
  unfold execEProbe at h
  dsimp only at h
  split at h
  · cases h
    exact .inl ⟨by assumption, rfl⟩
  · obtain ⟨u, hu, h⟩ := orFault_next h
    obtain ⟨ok, hok, h⟩ := orFault_next h
    cases h
    exact .inr ⟨u, ok, hu, hok, rfl⟩

theorem execECatchup_next (h : execECatchup s = .next t) :
    ∃ i r, t = { s with ip := i, ref := r, st := .eLitlen } := by
  obtain ⟨u, hu, h⟩ := orFault_next h
  cases h
  exact ⟨u.ip, u.ref, by rw [catchupLoop_fields hu]⟩

theorem execELitlen_next (h : execELitlen s = .next t) : ∃ l u,
    State.packLen { s with len := l } l.toNat = .ok u ∧ t = { u with st := .eLitcopy } := by
  obtain ⟨u, hu, h⟩ := orFault_next h
  cases h
  exact ⟨_, u, hu, rfl⟩

theorem execELitcopy_next (h : execELitcopy s = .next t) : ∃ u,
    s.fcpExact s.anchor.toNat s.op.toNat s.len.toNat = .ok u ∧
    t = { u with op := advance s.op s.len.toNat, st := .eOffset } := by
  obtain ⟨u, hu, h⟩ := orFault_next h
  cases h
  exact ⟨u, hu, rfl⟩

theorem execEOffset_next (h : execEOffset s = .next t) : ∃ v u,
    s.memWrite s.op.toNat 2 v = .ok u ∧ t = { u with op := advance s.op 2, st := .eExtend } := by
  obtain ⟨u, hu, h⟩ := orFault_next h
  cases h
  exact ⟨_, u, hu, rfl⟩

theorem execEExtend_next (h : execEExtend s = .next t) :
    ∃ i r m, t = { s with ip := i, ref := r, mstart := m, st := .eMlen } := by
  obtain ⟨u, hu, h⟩ := orFault_next h
  cases h
  exact ⟨u.ip, u.ref, _, by rw [extendLoop_fields hu]⟩

theorem execEMlen_next (h : execEMlen s = .next t) : ∃ l v u,
    State.memWrite { s with len := l } s.tokpos.toNat 1 v = .ok u ∧
    (t = { u with st := .eEndchk } ∨ ∃ w, u.packExt (l.toNat - mlMask) = .ok w ∧ t = { w with st := .eEndchk }) := by
  obtain ⟨b, -, h⟩ := orFault_next h
  obtain ⟨u, hu, h⟩ := orFault_next h
  obtain ⟨w, hw, h⟩ := orFault_next h
  cases h
  refine ⟨_, _, u, hu, ?_⟩
  split at hw
  · exact .inr ⟨w, hw, rfl⟩
  · cases hw
    exact .inl rfl

theorem execEEndchk_next (h : execEEndchk s = .next t) :
    ∃ a x, (x = .eLast ∨ x = .eChain) ∧ t = { s with anchor := a, st := x } := by
  unfold execEEndchk at h
  split at h <;> cases h
  · exact ⟨_, _, .inl rfl, rfl⟩
  · exact ⟨_, _, .inr rfl, rfl⟩

theorem execEChain_next (h : execEChain s = .next t) : ∃ b, s.hashAt (pos s.ip) = .ok b ∧
    (t = { (s.htGet b).2 with h := b, ref := (s.htGet b).1.setWidth 33, st := .eRehash } ∨
    ∃ u, State.packToken { (s.htGet b).2 with h := b, ref := (s.htGet b).1.setWidth 33 } 0 = .ok u ∧
      t = { u with st := .eOffset }) := by
  obtain ⟨b, hb, h⟩ := orFault_next h
  obtain ⟨ok, -, h⟩ := orFault_next h
  refine ⟨b, hb, ?_⟩
  split at h
  · obtain ⟨u, hu, h⟩ := orFault_next h
    cases h
    exact .inr ⟨u, hu, rfl⟩
  · cases h
    exact .inl rfl

theorem execERehash_next (h : execERehash s = .next t) : ∃ u v,
    s.insertAt (pos s.ip - 2) = .ok u ∧ u.insertAt (pos s.ip) = .ok v ∧
    t = { v with anchor := s.ip, ip := advance s.ip 1, st := .eSearchInit } := by
  obtain ⟨u, hu, h⟩ := orFault_next h
  obtain ⟨v, hv, h⟩ := orFault_next h
  cases h
  exact ⟨u, v, hu, hv, rfl⟩

theorem execELast_next (h : execELast s = .next t) : ∃ l u v,
    State.packLen { s with len := l } l.toNat = .ok u ∧ u.fcpExact u.anchor.toNat u.op.toNat l.toNat = .ok v ∧
    t = State.endEnc { v with op := advance u.op l.toNat } := by
  obtain ⟨u, hu, h⟩ := orFault_next h
  obtain ⟨v, hv, h⟩ := orFault_next h
  cases h
  exact ⟨_, u, v, hu, hv, rfl⟩

theorem execDInit_next (h : execDInit s = .next t) :
    (s.cmd = cmdKnown ∧
      t = { s with ip := 0#32, op := 0#32, mode := .known, oend := s.expLen, st := .dToken }) ∨
    (s.cmd ≠ cmdKnown ∧ t = { s with
      ip := 0#32, op := 0#32, mode := .streaming, oend := s.dstCap, iend := s.srcLen, st := .dToken }) := by
  unfold execDInit at h
  dsimp only at h
  split at h <;> cases h
  · exact .inl ⟨by assumption, rfl⟩
  · exact .inr ⟨by assumption, rfl⟩

theorem execDToken_next (h : execDToken s = .next t) :
    t = s.endDec ∨ (s.ip.toNat < s.srcSize ∧ t = s.takeToken (s.srcAt s.ip.toNat)) := by
  unfold execDToken at h
  split at h
  · cases h
    exact .inl rfl
  · obtain ⟨b, hb, h⟩ := orFault_next h
    obtain ⟨-, hi, rfl⟩ := State.readByte_ok hb
    cases h
    rw [pos_toNat] at *
    exact .inr ⟨hi, rfl⟩

/-- D.LITEXT and D.MLEXT: one extension byte, and the state `again` while another follows, `after` then (R183, R187). -/
theorem takeExt_next {again after : St}
    (h : (orFault s.tunExt fun r => .next { r.1 with st := if r.2 then again else after }) = .next t) :
    s.ip.toNat < s.srcSize ∧ ∃ x, (x = again ∨ x = after) ∧ t = { s.takeExt (s.srcAt s.ip.toNat) with st := x } := by
  obtain ⟨r, hr, h⟩ := orFault_next h
  obtain ⟨hi, rfl⟩ := State.tunExt_ok hr
  cases h
  exact ⟨hi, _, by split <;> simp, rfl⟩

theorem nearEnd_iff (c : Nat) (s : State) : nearEnd c s = true ↔ s.oend.toNat < c + 8 := by
  simp [nearEnd]

theorem execDLitcopy_next {c : Nat} (hc : s.op.toNat + s.len.toNat = c) (h : execDLitcopy s = .next t) :
    (s.oend.toNat < c ∧ t = State.raiseOverflow { s with cpy := BitVec.ofNat 40 c }) ∨
    (c ≤ s.oend.toNat ∧ s.oend.toNat < c + 8 ∧ ∃ u,
      State.fcpExact { s with cpy := BitVec.ofNat 40 c } s.ip.toNat s.op.toNat s.len.toNat = .ok u ∧
      t = State.endDec { u with ip := advance s.ip s.len.toNat, op := BitVec.ofNat 32 c }) ∨
    (c + 8 ≤ s.oend.toNat ∧ ∃ u,
      State.fcpWild { s with cpy := BitVec.ofNat 40 c } s.ip.toNat s.op.toNat s.len.toNat = .ok u ∧
      t = { u with ip := advance s.ip s.len.toNat, op := BitVec.ofNat 32 c, st := .dEofchk }) := by
  unfold execDLitcopy at h
  dsimp only at h
  rw [hc] at h
  split at h
  · next hn =>
    rw [nearEnd_iff] at hn
    split at h
    · cases h
      exact .inl ⟨by assumption, rfl⟩
    · obtain ⟨u, hu, h⟩ := orFault_next h
      cases h
      exact .inr (.inl ⟨by omega, hn, u, hu, rfl⟩)
  · next hn =>
    rw [nearEnd_iff] at hn
    obtain ⟨u, hu, h⟩ := orFault_next h
    cases h
    exact .inr (.inr ⟨by omega, u, hu, rfl⟩)

theorem execDEofchk_next (h : execDEofchk s = .next t) : t = s.endDec ∨ t = { s with st := .dOffset } := by
  unfold execDEofchk at h
  split at h
  · cases h
    exact .inl rfl
  · split at h <;> cases h
    · exact .inl rfl
    · exact .inr rfl

theorem execDOffset_next (h : execDOffset s = .next t) : s.ip.toNat + 2 ≤ s.srcSize ∧ ∃ o, t = s.takeOffset o := by
  obtain ⟨v, hv, h⟩ := orFault_next h
  obtain ⟨bs, hb, rfl⟩ := except_map_eq_ok hv
  obtain ⟨-, hn | ⟨-, hn⟩⟩ := State.readBytes_ok hb
  · omega
  · cases h
    exact ⟨by simpa [State.size] using hn, _, rfl⟩

theorem execDMatch4_next (h : execDMatch4 s = .next t) : ∃ r u, s.mcopyExact s.ref.toInt s.op.toNat minMatch = .ok u ∧
    t = { u with op := advance s.op minMatch, ref := r, st := .dMatchcopy } := by
  obtain ⟨u, hu, h⟩ := orFault_next h
  cases h
  exact ⟨_, u, hu, rfl⟩

theorem execDMatchcopy_next {c : Nat} (hc : s.op.toNat + s.len.toNat = c) (h : execDMatchcopy s = .next t) :
    (s.oend.toNat < c ∧ t = State.raiseOverflow { s with cpy := BitVec.ofNat 40 c }) ∨
    (c ≤ s.oend.toNat ∧ ∃ f u,
      State.matchCopy { s with cpy := BitVec.ofNat 40 c } s.ref.toInt s.op.toNat s.len.toNat f = .ok u ∧
      (f = .wild → c + 8 ≤ s.oend.toNat) ∧
      t = if c = s.oend.toNat then State.endDec { u with op := BitVec.ofNat 32 c }
        else { u with op := BitVec.ofNat 32 c, st := .dToken }) := by
  unfold execDMatchcopy at h
  dsimp only at h
  rw [hc] at h
  split at h
  · split at h
    · cases h
      exact .inl ⟨by assumption, rfl⟩
    · obtain ⟨u, hu, h⟩ := orFault_next h
      refine .inr ⟨by omega, .exact, u, hu, nofun, ?_⟩
      split at h <;> cases h
      · next hce => rw [if_pos hce]
      · next hce => rw [if_neg hce]
  · next hn =>
    rw [nearEnd_iff] at hn
    obtain ⟨u, hu, h⟩ := orFault_next h
    cases h
    exact .inr ⟨by omega, .wild, u, hu, fun _ => by omega, by rw [if_neg (by omega)]⟩

theorem execMMaxlen_next (h : execMMaxlen s = .next t) : s.srcLen.toNat ≤ maxSrcLen ∧ t = s.endMaxlen := by
  unfold execMMaxlen at h
  split at h
  · cases h
  · split at h <;> cases h
    exact ⟨by omega, rfl⟩

theorem execMaxlen_next (h : execMaxlen s = .next t) : t = s.startCommand cmdMaxlen .mMaxlen := by
  unfold execMaxlen at h
  repeat' split at h
  all_goals cases h
  rfl

theorem execCompress_next (h : execCompress s = .next t) : t = s.startCommand cmdCompress .eInit := by
  unfold execCompress at h
  repeat' split at h
  all_goals cases h
  rfl

theorem execDecompressKnown_next (h : execDecompressKnown s = .next t) :
    s.expLen.toNat ≤ s.dstSize ∧ t = s.startCommand cmdKnown .dInit := by
  unfold execDecompressKnown at h
  repeat' split at h
  all_goals cases h
  exact ⟨by omega, rfl⟩

theorem execDecompressStream_next (h : execDecompressStream s = .next t) :
    s.dstCap.toNat ≤ s.dstSize ∧ t = s.startCommand cmdStream .dInit := by
  unfold execDecompressStream at h
  repeat' split at h
  all_goals cases h
  exact ⟨by omega, rfl⟩

end

end Sys2Proof.Machine

/-! ### Every instruction -/

namespace Sys2Proof.Machine

section
variable {s t : State}

/-- An operation that is run alone answers what it computes. -/
theorem orFault_next_iff {r : Except Fault State} : orFault r .next = .next t ↔ r = .ok t := by
  cases r <;> simp

theorem execToken_keeps {ll ml : BitVec 4} (h : execToken ll ml s = .next t) : s.EngineKeeps t := by
  unfold execToken at h
  split at h <;> cases h
  exact ⟨rfl, id, id, id⟩

theorem execExtCont_keeps (h : execExtCont s = .next t) : s.EngineKeeps t := by
  unfold execExtCont at h
  split at h <;> cases h
  exact ⟨rfl, id, id, id⟩

theorem execExtTerm_keeps {v : Byte} (h : execExtTerm v s = .next t) : s.EngineKeeps t := by
  unfold execExtTerm at h
  repeat' split at h
  all_goals cases h
  all_goals exact ⟨rfl, id, id, id⟩

theorem execLiteral_keeps {b : Byte} (h : execLiteral b s = .next t) : s.EngineKeeps t := by
  unfold execLiteral at h
  split at h
  · obtain ⟨u, hu, h⟩ := orFault_next h
    cases h
    exact (State.writeDst_keeps hu).trans ⟨rfl, id, id, id⟩
  · cases h

theorem execOffset_keeps {o : BitVec 16} (h : execOffset o s = .next t) : s.EngineKeeps t := by
  unfold execOffset at h
  split at h <;> cases h
  exact ⟨rfl, id, id, id⟩

theorem execDone_keeps (h : execDone s = .next t) : s.EngineKeeps t := by
  unfold execDone at h
  split at h
  · cases h
    exact ⟨rfl, id, id, id⟩
  · split at h <;> cases h
    · exact ⟨rfl, id, id, id⟩
    · exact State.endDec_keeps

theorem execTunExt_keeps (h : execTunExt s = .next t) : s.EngineKeeps t := by
  obtain ⟨r, hr, h⟩ := orFault_next h
  cases h
  exact (State.tunExt_keeps hr).trans ⟨rfl, id, id, id⟩

theorem execHtAccept_keeps {ref : Ref} {ip : Pos} (h : execHtAccept ref ip s = .next t) : s.EngineKeeps t := by
  obtain ⟨b, -, h⟩ := orFault_next h
  cases h
  exact ⟨rfl, id, id, id⟩

theorem execHtLookup_keeps {i : Bucket} (h : execHtLookup i s = .next t) : s.EngineKeeps t := by
  cases h
  exact (State.htGet_keeps i).trans ⟨rfl, id, id, id⟩

theorem execEInit_keeps (h : execEInit s = .next t) : s.EngineKeeps t := by
  obtain ⟨m, l, x, -, rfl⟩ := execEInit_next h
  have hu : s.EngineKeeps s.encStarted := ⟨rfl, id, id, id⟩
  exact (hu.trans State.htReset_keeps).trans ⟨rfl, id, id, id⟩

theorem execEProbe_keeps (h : execEProbe s = .next t) : s.EngineKeeps t := by
  have hm : s.EngineKeeps s.probeMoved := ⟨rfl, id, id, id⟩
  obtain ⟨-, rfl⟩ | ⟨u, ok, hu, -, rfl⟩ := execEProbe_next h
  · exact hm.trans ⟨rfl, id, id, id⟩
  · exact (hm.trans (State.htProbeAt_keeps hu)).trans ⟨rfl, id, id, id⟩

theorem execECatchup_keeps (h : execECatchup s = .next t) : s.EngineKeeps t := by
  obtain ⟨i, r, rfl⟩ := execECatchup_next h
  exact ⟨rfl, id, id, id⟩

theorem execELitlen_keeps (h : execELitlen s = .next t) : s.EngineKeeps t := by
  obtain ⟨l, u, hu, rfl⟩ := execELitlen_next h
  have hl : s.EngineKeeps { s with len := l } := ⟨rfl, id, id, id⟩
  exact (hl.trans (State.packLen_keeps hu)).trans ⟨rfl, id, id, id⟩

theorem execELitcopy_keeps (h : execELitcopy s = .next t) : s.EngineKeeps t := by
  obtain ⟨u, hu, rfl⟩ := execELitcopy_next h
  exact (State.fcpExact_keeps hu).trans ⟨rfl, id, id, id⟩

theorem execEOffset_keeps (h : execEOffset s = .next t) : s.EngineKeeps t := by
  obtain ⟨v, u, hu, rfl⟩ := execEOffset_next h
  exact (State.writeDst_keeps hu).trans ⟨rfl, id, id, id⟩

theorem execEExtend_keeps (h : execEExtend s = .next t) : s.EngineKeeps t := by
  obtain ⟨i, r, m, rfl⟩ := execEExtend_next h
  exact ⟨rfl, id, id, id⟩

theorem execEMlen_keeps (h : execEMlen s = .next t) : s.EngineKeeps t := by
  obtain ⟨l, v, u, hu, h⟩ := execEMlen_next h
  have hl : s.EngineKeeps { s with len := l } := ⟨rfl, id, id, id⟩
  have hk := hl.trans (State.writeDst_keeps hu)
  obtain rfl | ⟨w, hw, rfl⟩ := h
  · exact hk.trans ⟨rfl, id, id, id⟩
  · exact (hk.trans (State.packExt_keeps hw)).trans ⟨rfl, id, id, id⟩

theorem execEEndchk_keeps (h : execEEndchk s = .next t) : s.EngineKeeps t := by
  obtain ⟨a, x, -, rfl⟩ := execEEndchk_next h
  exact ⟨rfl, id, id, id⟩

theorem execEChain_keeps (h : execEChain s = .next t) : s.EngineKeeps t := by
  obtain ⟨b, -, h⟩ := execEChain_next h
  have hk : s.EngineKeeps { (s.htGet b).2 with h := b, ref := (s.htGet b).1.setWidth 33 } :=
    (State.htGet_keeps b).trans ⟨rfl, id, id, id⟩
  obtain rfl | ⟨u, hu, rfl⟩ := h
  · exact hk.trans ⟨rfl, id, id, id⟩
  · exact (hk.trans (State.packToken_keeps hu)).trans ⟨rfl, id, id, id⟩

theorem execERehash_keeps (h : execERehash s = .next t) : s.EngineKeeps t := by
  obtain ⟨u, v, hu, hv, rfl⟩ := execERehash_next h
  exact ((State.insertAt_keeps hu).trans (State.insertAt_keeps hv)).trans ⟨rfl, id, id, id⟩

theorem execELast_keeps (h : execELast s = .next t) : s.EngineKeeps t := by
  obtain ⟨l, u, v, hu, hv, rfl⟩ := execELast_next h
  have hl : s.EngineKeeps { s with len := l } := ⟨rfl, id, id, id⟩
  exact ((hl.trans (State.packLen_keeps hu)).trans (State.fcpExact_keeps hv)).trans ⟨rfl, id, id, id⟩

theorem execDInit_keeps (h : execDInit s = .next t) : s.EngineKeeps t := by
  obtain ⟨-, rfl⟩ | ⟨-, rfl⟩ := execDInit_next h <;> exact ⟨rfl, id, id, id⟩

theorem execDToken_keeps (h : execDToken s = .next t) : s.EngineKeeps t := by
  obtain rfl | ⟨-, rfl⟩ := execDToken_next h
  · exact State.endDec_keeps
  · exact ⟨rfl, id, id, id⟩

theorem execDLitext_keeps (h : execDLitext s = .next t) : s.EngineKeeps t := by
  obtain ⟨-, x, -, rfl⟩ := takeExt_next h
  exact ⟨rfl, id, id, id⟩

theorem execDMlext_keeps (h : execDMlext s = .next t) : s.EngineKeeps t := by
  obtain ⟨-, x, -, rfl⟩ := takeExt_next h
  exact ⟨rfl, id, id, id⟩

theorem execDLitcopy_keeps (h : execDLitcopy s = .next t) : s.EngineKeeps t := by
  have hc : s.EngineKeeps { s with cpy := BitVec.ofNat 40 (s.op.toNat + s.len.toNat) } := ⟨rfl, id, id, id⟩
  obtain ⟨-, rfl⟩ | ⟨-, -, u, hu, rfl⟩ | ⟨-, u, hu, rfl⟩ := execDLitcopy_next rfl h
  · exact hc.trans State.raiseOverflow_keeps
  · refine .trans ?_ State.endDec_keeps
    exact (hc.trans (State.fcpExact_keeps hu)).trans ⟨rfl, id, id, id⟩
  · exact (hc.trans (State.fcpWild_keeps hu)).trans ⟨rfl, id, id, id⟩

theorem execDEofchk_keeps (h : execDEofchk s = .next t) : s.EngineKeeps t := by
  obtain rfl | rfl := execDEofchk_next h
  · exact State.endDec_keeps
  · exact ⟨rfl, id, id, id⟩

theorem execDOffset_keeps (h : execDOffset s = .next t) : s.EngineKeeps t := by
  obtain ⟨-, o, rfl⟩ := execDOffset_next h
  exact ⟨rfl, id, id, id⟩

theorem execDMatch4_keeps (h : execDMatch4 s = .next t) : s.EngineKeeps t := by
  obtain ⟨r, u, hu, rfl⟩ := execDMatch4_next h
  exact (State.mcopyExact_keeps hu).trans ⟨rfl, id, id, id⟩

theorem execDMatchcopy_keeps (h : execDMatchcopy s = .next t) : s.EngineKeeps t := by
  have hc : s.EngineKeeps { s with cpy := BitVec.ofNat 40 (s.op.toNat + s.len.toNat) } := ⟨rfl, id, id, id⟩
  obtain ⟨-, rfl⟩ | ⟨-, f, u, hu, -, rfl⟩ := execDMatchcopy_next rfl h
  · exact hc.trans State.raiseOverflow_keeps
  · have hu := hc.trans (State.matchCopy_keeps hu)
    split
    · refine .trans ?_ State.endDec_keeps
      exact hu.trans ⟨rfl, id, id, id⟩
    · exact hu.trans ⟨rfl, id, id, id⟩

/-- The index is a variable here, or the kernel would compute a hash to compare the two states. -/
theorem State.EngineKeeps.of_h (b : Bucket) : s.EngineKeeps { s with h := b } := ⟨rfl, id, id, id⟩

/-- No instruction touches the host's side, and each keeps DST and the tables in form. -/
theorem exec_keeps {i : Instr} (h : exec i s = .next t) : s.EngineKeeps t := by
  cases i with
  | token => exact execToken_keeps h
  | extCont => exact execExtCont_keeps h
  | extTerm => exact execExtTerm_keeps h
  | literal => exact execLiteral_keeps h
  | offset => exact execOffset_keeps h
  | maxlen => cases execMaxlen_next h; exact ⟨rfl, id, id, id⟩
  | compress => cases execCompress_next h; exact ⟨rfl, id, id, id⟩
  | decompressKnown => obtain ⟨-, rfl⟩ := execDecompressKnown_next h; exact ⟨rfl, id, id, id⟩
  | decompressStream => obtain ⟨-, rfl⟩ := execDecompressStream_next h; exact ⟨rfl, id, id, id⟩
  | idle => cases h; exact ⟨rfl, id, id, id⟩
  | mMaxlen => obtain ⟨-, rfl⟩ := execMMaxlen_next h; exact ⟨rfl, id, id, id⟩
  | done => exact execDone_keeps h
  | error => cases h; exact State.raiseOverflow_keeps
  | tunSplit => cases h; exact ⟨rfl, id, id, id⟩
  | tunExt => exact execTunExt_keeps h
  | tunLen => exact State.tunLen_keeps (orFault_next_iff.mp h)
  | packToken => exact State.packToken_keeps (orFault_next_iff.mp h)
  | packExt => exact State.packExt_keeps (orFault_next_iff.mp h)
  | hashW => cases h; exact .of_h _
  | hashN => cases h; exact .of_h _
  | htSelect => cases h; exact ⟨rfl, id, id, id⟩
  | htClear => cases h; exact State.htReset_keeps
  | htLookup => exact execHtLookup_keeps h
  | htInsert i p => cases h; exact State.htSet_keeps i p
  | htProbe => exact State.htProbeAt_keeps (orFault_next_iff.mp h)
  | htAccept => exact execHtAccept_keeps h
  | eInit => exact execEInit_keeps h
  | eSearchInit => cases h; exact ⟨rfl, id, id, id⟩
  | eProbe => exact execEProbe_keeps h
  | eCatchup => exact execECatchup_keeps h
  | eLitlen => exact execELitlen_keeps h
  | eLitcopy => exact execELitcopy_keeps h
  | eOffset => exact execEOffset_keeps h
  | eExtend => exact execEExtend_keeps h
  | eMlen => exact execEMlen_keeps h
  | eEndchk => exact execEEndchk_keeps h
  | eChain => exact execEChain_keeps h
  | eRehash => exact execERehash_keeps h
  | eLast => exact execELast_keeps h
  | dInit => exact execDInit_keeps h
  | dToken => exact execDToken_keeps h
  | dLitext => exact execDLitext_keeps h
  | dLitcopy => exact execDLitcopy_keeps h
  | dEofchk => exact execDEofchk_keeps h
  | dOffset => exact execDOffset_keeps h
  | dMlext => exact execDMlext_keeps h
  | dMatch4 => exact execDMatch4_keeps h
  | dMatchcopy => exact execDMatchcopy_keeps h
  | cp16 => exact State.stride_keeps (orFault_next_iff.mp h)
  | cp8 => exact State.stride_keeps (orFault_next_iff.mp h)
  | cp4 => exact State.stride_keeps (orFault_next_iff.mp h)
  | cp2 => exact State.stride_keeps (orFault_next_iff.mp h)
  | cp1 => exact State.stride_keeps (orFault_next_iff.mp h)
  | fcpExact => exact State.fcpExact_keeps (orFault_next_iff.mp h)
  | fcpWild => exact State.fcpWild_keeps (orFault_next_iff.mp h)
  | mcopy => exact State.matchCopy_keeps (orFault_next_iff.mp h)

end

/-- Settles O10: the frame is a part of what every instruction keeps. -/
theorem engineLeavesHostSide : Obligations.EngineLeavesHostSide := by
  unfold Obligations.EngineLeavesHostSide
  intro i s t h
  exact State.hostSide_eq_iff.mp (exec_keeps h).hostSide

end Sys2Proof.Machine

/-! ### How a step of a running command ends -/

namespace Sys2Proof.Machine

section
variable {s t : State}

/-- What a step of a running command comes to (R25, R27, R28): the command goes on, with cursors as the next state asks; it ends in
DONE with a RESULT that is not negative; or it ends in ERROR with a negative one. -/
inductive State.Advances (s t : State) : Prop
  | goesOn (st : t.st.engState = .busy) (status : t.status.state = s.status.state)
      (errcode : t.status.errcode = s.status.errcode) (phase : t.phaseOk)
  | ends (st : t.st = .done) (status : t.status.state = .done)
      (errcode : t.status.errcode = s.status.errcode) (result : 0 ≤ t.result.toInt)
  | fails (st : t.st = .error) (status : t.status.state = .error)
      (errcode : t.status.errcode = 1#4) (result : t.result.toInt < 0)

/-- Nothing is asked of the cursors while no command runs. -/
theorem State.phaseOk_of_not_busy (h : s.st.engState ≠ .busy) : s.phaseOk := by
  unfold State.phaseOk
  revert h
  cases s.st <;> simp [St.engState]

/-- The invariant after a step of a running command. -/
theorem State.Advances.inv (ha : s.Advances t) (hk : s.EngineKeeps t) (hs : s.Inv) (hb : s.status.state = .busy) : t.Inv := by
  obtain ⟨hz, hm, ⟨-, herr⟩, -, -, hinv⟩ := hs
  rw [hb] at herr
  refine ⟨hk.sizesOk hz, hk.memOk hm, ?_⟩
  cases ha with
  | goesOn st status errcode phase =>
    rw [hb] at status
    refine ⟨⟨status.trans st.symm, ?_⟩, fun h => absurd status h, phase, hk.invoke.trans hinv⟩
    rw [errcode, herr, status]
  | ends st status errcode result =>
    refine ⟨⟨by rw [status, st]; rfl, ?_⟩, fun _ => ?_, State.phaseOk_of_not_busy (by rw [st]; decide), hk.invoke.trans hinv⟩
    · rw [errcode, herr, status]
      rfl
    · rw [status]
      exact ⟨nofun, fun h => absurd h (by omega)⟩
  | fails st status errcode result =>
    refine ⟨⟨by rw [status, st]; rfl, ?_⟩, fun _ => ?_, State.phaseOk_of_not_busy (by rw [st]; decide), hk.invoke.trans hinv⟩
    · rw [errcode, status]
      rfl
    · exact ⟨fun _ => result, fun _ => status⟩

end

/-! ### The registers -/

section
variable {s t : State}

/-- A position is no negative number as RESULT (R22, R28). -/
theorem pos_toInt_nonneg {p : Pos} (h : p.toNat ≤ maxMemSize) : 0 ≤ p.toInt := by
  simp only [maxMemSize] at h
  rw [BitVec.toInt_eq_toNat_cond]
  split <;> omega

/-- The RESULT of the error entry is negative (R283). -/
theorem neg_pos_toInt {p : Pos} (h1 : 1 ≤ p.toNat) (h : p.toNat ≤ maxMemSize) : (-p).toInt < 0 := by
  simp only [maxMemSize] at h
  rw [BitVec.toInt_eq_toNat_cond, BitVec.toNat_neg]
  split <;> omega

theorem advance_toNat_le (p : Pos) (n : Nat) : (advance p n).toNat ≤ p.toNat + n := by
  rw [advance, BitVec.toNat_ofNat]
  exact Nat.mod_le _ _

theorem ofNat_toNat_le (n : Nat) : (BitVec.ofNat 32 n).toNat ≤ n := by
  rw [BitVec.toNat_ofNat]
  exact Nat.mod_le _ _

@[simp] theorem State.htPut_op (s : State) (i : Bucket) (p : Pos) : (s.htPut i p).op = s.op := by rw [State.htPut_fields]
@[simp] theorem State.htPut_status (s : State) (i : Bucket) (p : Pos) : (s.htPut i p).status = s.status := by
  rw [State.htPut_fields]
@[simp] theorem State.htPut_dstSize (s : State) (i : Bucket) (p : Pos) : (s.htPut i p).dstSize = s.dstSize := by
  rw [State.htPut_fields]
@[simp] theorem State.htGet_op (s : State) (i : Bucket) : (s.htGet i).2.op = s.op := by rw [State.htGet_fields]
@[simp] theorem State.htGet_status (s : State) (i : Bucket) : (s.htGet i).2.status = s.status := by rw [State.htGet_fields]
@[simp] theorem State.htGet_dstSize (s : State) (i : Bucket) : (s.htGet i).2.dstSize = s.dstSize := by rw [State.htGet_fields]

/-! ### The states, by what they ask of the cursors -/

theorem St.busy_of_isEnc {x : St} (h : x.isEnc = true) : x.engState = .busy := by
  revert h
  cases x <;> simp [St.isEnc, St.engState]

/-- A state of ENC asks at most that the output cursor be inside DST. -/
theorem State.phaseOk_of_enc (hst : s.st.isEnc = true) (hop : s.op.toNat ≤ s.dstSize) : s.phaseOk := by
  unfold State.phaseOk
  revert hst
  cases s.st <;> simp [St.isEnc, hop]

/-- Every state of ENC but the first asks that. -/
theorem State.phaseOk_enc (hst : s.st.isEnc = true) (hne : s.st ≠ .eInit) (h : s.phaseOk) : s.op.toNat ≤ s.dstSize := by
  unfold State.phaseOk at h
  revert h hst hne
  cases s.st <;> simp [St.isEnc]

theorem State.phaseOk_dToken (hst : s.st = .dToken) : s.phaseOk ↔ s.decCursors := by
  unfold State.phaseOk
  rw [hst]

theorem State.phaseOk_literal (hst : s.st = .dLitext ∨ s.st = .dLitcopy) :
    s.phaseOk ↔ s.decCursors ∧ 1 ≤ s.ip.toNat := by
  unfold State.phaseOk
  rcases hst with hst | hst <;> rw [hst]

theorem State.phaseOk_match (hst : s.st = .dEofchk ∨ s.st = .dOffset ∨ s.st = .dMlext ∨ s.st = .dMatch4) :
    s.phaseOk ↔ s.decCursors ∧ 1 ≤ s.ip.toNat ∧ s.op.toNat + 8 ≤ s.oend.toNat := by
  unfold State.phaseOk
  rcases hst with hst | hst | hst | hst <;> rw [hst]

theorem State.phaseOk_dMatchcopy (hst : s.st = .dMatchcopy) :
    s.phaseOk ↔ s.decCursors ∧ 1 ≤ s.ip.toNat ∧ s.op.toNat + 4 ≤ s.oend.toNat := by
  unfold State.phaseOk
  rw [hst]

/-! ### The three ways, by what the step answers -/

theorem State.Advances.of_enc (hst : t.st.isEnc = true) (hs : t.status = s.status) (hop : t.op.toNat ≤ t.dstSize) :
    s.Advances t :=
  .goesOn (St.busy_of_isEnc hst) (by rw [hs]) (by rw [hs]) (State.phaseOk_of_enc hst hop)

theorem State.Advances.of_endDec {u : State} (hz : u.sizesOk) (hs : u.status = s.status) (hip : u.ip.toNat ≤ u.srcSize)
    (hop : u.op.toNat ≤ u.dstSize) : s.Advances u.endDec := by
  obtain ⟨-, hsrc, -, hdst⟩ := hz
  refine .ends rfl rfl (by rw [← hs]; rfl) ?_
  rw [State.endDec_result]
  split
  · exact pos_toInt_nonneg (by omega)
  · exact pos_toInt_nonneg (by omega)

theorem State.Advances.of_raiseOverflow {u : State} (hz : u.sizesOk) (h1 : 1 ≤ u.ip.toNat) (hip : u.ip.toNat ≤ u.srcSize) :
    s.Advances u.raiseOverflow := by
  obtain ⟨-, hsrc, -, -⟩ := hz
  exact .fails rfl rfl rfl (neg_pos_toInt h1 (by omega))

/-! ### The steps of ENC -/

theorem execEInit_advances (h : execEInit s = .next t) : s.Advances t := by
  obtain ⟨m, l, x, hx, rfl⟩ := execEInit_next h
  have hxe : x.isEnc = true := by rcases hx with rfl | rfl <;> rfl
  refine .goesOn (St.busy_of_isEnc hxe) ?_ ?_ (State.phaseOk_of_enc hxe ?_) <;> simp [State.encStarted]

theorem execEProbe_advances (hop : s.op.toNat ≤ s.dstSize) (h : execEProbe s = .next t) : s.Advances t := by
  obtain ⟨-, rfl⟩ | ⟨u, ok, hu, -, rfl⟩ := execEProbe_next h
  · exact .of_enc rfl rfl hop
  · obtain ⟨-, rfl⟩ := State.htProbeAt_ok hu
    refine .of_enc (by cases ok <;> rfl) ?_ ?_
    · simp [State.probeMoved]
    · simpa [State.probeMoved] using hop

theorem execELitlen_advances (hz : s.sizesOk) (h : execELitlen s = .next t) : s.Advances t := by
  obtain ⟨l, u, hu, rfl⟩ := execELitlen_next h
  obtain ⟨hb, rfl⟩ := State.packLen_ok (s := { s with len := l }) hz hu
  exact .of_enc rfl rfl ((advance_toNat_le _ _).trans hb)

/-- The output cursor after a run of `n` bytes, which DST has. -/
theorem advance_op_le {n : Nat} (hop : s.op.toNat ≤ s.dstSize) (hn : n = 0 ∨ s.op.toNat + n ≤ s.dstSize) :
    (advance s.op n).toNat ≤ s.dstSize := by
  have := advance_toNat_le s.op n
  omega

theorem execELitcopy_advances (hop : s.op.toNat ≤ s.dstSize) (h : execELitcopy s = .next t) : s.Advances t := by
  obtain ⟨u, hu, rfl⟩ := execELitcopy_next h
  obtain ⟨rfl, hn⟩ := State.fcpExact_ok hu
  exact .of_enc rfl rfl (advance_op_le hop (hn.imp_right And.right))

theorem execEOffset_advances (hop : s.op.toNat ≤ s.dstSize) (h : execEOffset s = .next t) : s.Advances t := by
  obtain ⟨v, u, hu, rfl⟩ := execEOffset_next h
  obtain ⟨rfl, hn⟩ := State.memWrite_ok hu
  exact .of_enc rfl rfl (advance_op_le hop hn)

theorem execEMlen_advances (hop : s.op.toNat ≤ s.dstSize) (h : execEMlen s = .next t) : s.Advances t := by
  obtain ⟨l, v, u, hu, h⟩ := execEMlen_next h
  obtain ⟨rfl, -⟩ := State.memWrite_ok hu
  obtain rfl | ⟨w, hw, rfl⟩ := h
  · exact .of_enc rfl rfl hop
  · obtain ⟨hb, rfl⟩ := State.packExt_ok hw
    exact .of_enc rfl rfl ((advance_toNat_le _ _).trans hb)

theorem execEChain_advances (hop : s.op.toNat ≤ s.dstSize) (h : execEChain s = .next t) : s.Advances t := by
  obtain ⟨b, -, rfl | ⟨u, hu, rfl⟩⟩ := execEChain_next h
  · exact .of_enc rfl (by simp) (by simpa using hop)
  · obtain ⟨hb, rfl⟩ := State.packToken_ok hu
    exact .of_enc rfl (by simp) ((advance_toNat_le _ _).trans hb)

theorem execERehash_advances (hop : s.op.toNat ≤ s.dstSize) (h : execERehash s = .next t) : s.Advances t := by
  obtain ⟨u, v, hu, hv, rfl⟩ := execERehash_next h
  obtain ⟨-, -, rfl⟩ := State.insertAt_ok hu
  obtain ⟨-, -, rfl⟩ := State.insertAt_ok hv
  exact .of_enc rfl (by simp) (by simpa using hop)

theorem execELast_advances (hz : s.sizesOk) (h : execELast s = .next t) : s.Advances t := by
  obtain ⟨l, u, v, hu, hv, rfl⟩ := execELast_next h
  obtain ⟨hb, rfl⟩ := State.packLen_ok (s := { s with len := l }) hz hu
  obtain ⟨rfl, hn⟩ := State.fcpExact_ok hv
  have hop := advance_op_le ((advance_toNat_le _ _).trans hb) (hn.imp_right And.right)
  exact .ends rfl rfl rfl (pos_toInt_nonneg (Nat.le_trans hop hz.dst_le))

/-! ### The steps of DEC -/

theorem execDInit_advances (hst : s.st = .dInit) (hp : s.phaseOk) (h : execDInit s = .next t) : s.Advances t := by
  unfold State.phaseOk at hp
  rw [hst] at hp
  dsimp only at hp
  obtain ⟨hc, rfl⟩ | ⟨hc, rfl⟩ := execDInit_next h
  · rw [if_pos hc] at hp
    exact .goesOn rfl rfl rfl ((State.phaseOk_dToken rfl).mpr ⟨Nat.zero_le _, hp, Nat.zero_le _⟩)
  · rw [if_neg hc] at hp
    exact .goesOn rfl rfl rfl ((State.phaseOk_dToken rfl).mpr ⟨Nat.zero_le _, hp, Nat.zero_le _⟩)

/-- The cursors after one or two bytes of SRC have been consumed. -/
theorem advance_ip_bounds (hz : s.sizesOk) {n : Nat} (hn : 1 ≤ n) (h : s.ip.toNat + n ≤ s.srcSize) :
    (advance s.ip n).toNat ≤ s.srcSize ∧ 1 ≤ (advance s.ip n).toNat := by
  have hsrc : s.srcSize ≤ 2147483647 := hz.src_le
  rw [advance_toNat (by omega)]
  omega

theorem execDToken_advances (hz : s.sizesOk) (hst : s.st = .dToken) (hp : s.phaseOk) (h : execDToken s = .next t) :
    s.Advances t := by
  obtain ⟨hop, hoend, hip⟩ := (State.phaseOk_dToken hst).mp hp
  obtain rfl | ⟨hi, rfl⟩ := execDToken_next h
  · exact .of_endDec hz rfl hip (hop.trans hoend)
  · obtain ⟨h1, h2⟩ := advance_ip_bounds hz (Nat.le_refl 1) hi
    have hx : ∀ b, (s.takeToken b).st = .dLitext ∨ (s.takeToken b).st = .dLitcopy := by
      intro b
      rw [State.takeToken_st]
      split <;> simp
    refine .goesOn ?_ rfl rfl ((State.phaseOk_literal (hx _)).mpr ⟨⟨hop, hoend, h1⟩, h2⟩)
    rcases hx (s.srcAt s.ip.toNat) with hx | hx <;> rw [hx] <;> rfl

theorem execDLitext_advances (hz : s.sizesOk) (hst : s.st = .dLitext) (hp : s.phaseOk) (h : execDLitext s = .next t) :
    s.Advances t := by
  obtain ⟨⟨hop, hoend, -⟩, -⟩ := (State.phaseOk_literal (.inl hst)).mp hp
  obtain ⟨hi, x, hx, rfl⟩ := takeExt_next h
  obtain ⟨h1, h2⟩ := advance_ip_bounds hz (Nat.le_refl 1) hi
  refine .goesOn ?_ rfl rfl ((State.phaseOk_literal hx).mpr ⟨⟨hop, hoend, h1⟩, h2⟩)
  rcases hx with rfl | rfl <;> rfl

theorem execDLitcopy_advances (hz : s.sizesOk) (hst : s.st = .dLitcopy) (hp : s.phaseOk) (h : execDLitcopy s = .next t) :
    s.Advances t := by
  obtain ⟨⟨hop, hoend, hip⟩, h1⟩ := (State.phaseOk_literal (.inr hst)).mp hp
  have hsrc : s.srcSize ≤ 2147483647 := hz.src_le
  have hcop := ofNat_toNat_le (s.op.toNat + s.len.toNat)
  have hipn (hn : s.len.toNat = 0 ∨ s.ip.toNat + s.len.toNat ≤ s.srcSize) :
      (advance s.ip s.len.toNat).toNat = s.ip.toNat + s.len.toNat := advance_toNat (by omega)
  obtain ⟨-, rfl⟩ | ⟨hc, -, u, hu, rfl⟩ | ⟨hc, u, hu, rfl⟩ := execDLitcopy_next rfl h
  · exact .of_raiseOverflow hz h1 hip
  · obtain ⟨rfl, hn⟩ := State.fcpExact_ok hu
    have hn := hn.imp_right And.left
    exact .of_endDec hz rfl (by dsimp only at hn ⊢; rw [hipn hn]; omega) (by dsimp only; omega)
  · obtain ⟨rfl, hn⟩ := State.fcpWild_ok hu
    have hn := hn.imp_right And.left
    refine .goesOn rfl rfl rfl ((State.phaseOk_match (.inl rfl)).mpr ?_)
    dsimp only [State.decCursors] at hn ⊢
    rw [hipn hn]
    omega

theorem execDEofchk_advances (hz : s.sizesOk) (hst : s.st = .dEofchk) (hp : s.phaseOk) (h : execDEofchk s = .next t) :
    s.Advances t := by
  have hp := (State.phaseOk_match (.inl hst)).mp hp
  obtain rfl | rfl := execDEofchk_next h
  · obtain ⟨⟨hop, hoend, hip⟩, -⟩ := hp
    exact .of_endDec hz rfl hip (hop.trans hoend)
  · exact .goesOn rfl rfl rfl ((State.phaseOk_match (.inr (.inl rfl))).mpr hp)

theorem execDOffset_advances (hz : s.sizesOk) (hst : s.st = .dOffset) (hp : s.phaseOk) (h : execDOffset s = .next t) :
    s.Advances t := by
  obtain ⟨⟨hop, hoend, -⟩, -, h8⟩ := (State.phaseOk_match (.inr (.inl hst))).mp hp
  obtain ⟨hi, o, rfl⟩ := execDOffset_next h
  obtain ⟨h1, h2⟩ := advance_ip_bounds hz (by omega) hi
  have hx : (s.takeOffset o).st = .dMlext ∨ (s.takeOffset o).st = .dMatch4 := by
    rw [State.takeOffset_st]
    split <;> simp
  refine .goesOn ?_ rfl rfl ((State.phaseOk_match (.inr (.inr hx))).mpr ⟨⟨hop, hoend, h1⟩, h2, h8⟩)
  rcases hx with hx | hx <;> rw [hx] <;> rfl

theorem execDMlext_advances (hz : s.sizesOk) (hst : s.st = .dMlext) (hp : s.phaseOk) (h : execDMlext s = .next t) :
    s.Advances t := by
  obtain ⟨⟨hop, hoend, -⟩, -, h8⟩ := (State.phaseOk_match (.inr (.inr (.inl hst)))).mp hp
  obtain ⟨hi, x, hx, rfl⟩ := takeExt_next h
  obtain ⟨h1, h2⟩ := advance_ip_bounds hz (Nat.le_refl 1) hi
  refine .goesOn ?_ rfl rfl ((State.phaseOk_match (.inr (.inr hx))).mpr ⟨⟨hop, hoend, h1⟩, h2, h8⟩)
  rcases hx with rfl | rfl <;> rfl

theorem execDMatch4_advances (hst : s.st = .dMatch4) (hp : s.phaseOk) (h : execDMatch4 s = .next t) :
    s.Advances t := by
  obtain ⟨⟨hop, hoend, hip⟩, h1, h8⟩ := (State.phaseOk_match (.inr (.inr (.inr hst)))).mp hp
  obtain ⟨r, u, hu, rfl⟩ := execDMatch4_next h
  obtain ⟨rfl, -⟩ := State.mcopyExact_ok hu
  refine .goesOn rfl rfl rfl ((State.phaseOk_dMatchcopy rfl).mpr ?_)
  have h4 := advance_toNat_le s.op minMatch
  dsimp only [State.decCursors, minMatch] at h4 ⊢
  omega

/-- The match copy writes DST and the counter of draws and nothing else. -/
theorem State.matchCopy_fields {ref : Int} {d n : Nat} {f : CopyForm} (h : s.matchCopy ref d n f = .ok t) :
    t = { s with dst := t.dst, draws := t.draws } := by
  cases f with
  | exact => rw [(State.mcopyExact_ok h).1]
  | wild =>
    obtain ⟨z, -, rfl, -⟩ := State.mcopyWild_ok h
    rfl

theorem execDMatchcopy_advances (hz : s.sizesOk) (hst : s.st = .dMatchcopy) (hp : s.phaseOk)
    (h : execDMatchcopy s = .next t) : s.Advances t := by
  obtain ⟨⟨hop, hoend, hip⟩, h1, -⟩ := (State.phaseOk_dMatchcopy hst).mp hp
  have hcop := ofNat_toNat_le (s.op.toNat + s.len.toNat)
  obtain ⟨-, rfl⟩ | ⟨hc, f, u, hu, -, rfl⟩ := execDMatchcopy_next rfl h
  · exact .of_raiseOverflow hz h1 hip
  · rw [State.matchCopy_fields hu]
    split
    · exact .of_endDec hz rfl hip (by dsimp only; omega)
    · exact .goesOn rfl rfl rfl ((State.phaseOk_dToken rfl).mpr ⟨by dsimp only; omega, hoend, hip⟩)

theorem execMMaxlen_advances (h : execMMaxlen s = .next t) : s.Advances t := by
  obtain ⟨hl, rfl⟩ := execMMaxlen_next h
  have hc : maxCompressed s.srcLen.toNat ≤ maxMemSize := by
    simp only [maxCompressed, maxSrcLen, maxMemSize] at hl ⊢
    omega
  exact .ends rfl rfl rfl (pos_toInt_nonneg ((ofNat_toNat_le _).trans hc))

/-- Every step of a running command, from the cursors its state asks for. -/
theorem exec_advances (hz : s.sizesOk) (hp : s.phaseOk) (hb : s.st.engState = .busy) (h : exec s.st.instr s = .next t) :
    s.Advances t := by
  have hop (he : s.st.isEnc = true) (hne : s.st ≠ .eInit) : s.op.toNat ≤ s.dstSize := State.phaseOk_enc he hne hp
  cases hst : s.st <;> rw [hst] at h hb hop
  case idle | done | error => cases hb
  case mMaxlen => exact execMMaxlen_advances h
  case eInit => exact execEInit_advances h
  case eSearchInit => cases h; exact .of_enc rfl rfl (hop rfl nofun)
  case eProbe => exact execEProbe_advances (hop rfl nofun) h
  case eCatchup => obtain ⟨i, r, rfl⟩ := execECatchup_next h; exact .of_enc rfl rfl (hop rfl nofun)
  case eLitlen => exact execELitlen_advances hz h
  case eLitcopy => exact execELitcopy_advances (hop rfl nofun) h
  case eOffset => exact execEOffset_advances (hop rfl nofun) h
  case eExtend => obtain ⟨i, r, m, rfl⟩ := execEExtend_next h; exact .of_enc rfl rfl (hop rfl nofun)
  case eMlen => exact execEMlen_advances (hop rfl nofun) h
  case eEndchk =>
    obtain ⟨a, x, hx, rfl⟩ := execEEndchk_next h
    exact .of_enc (by rcases hx with rfl | rfl <;> rfl) rfl (hop rfl nofun)
  case eChain => exact execEChain_advances (hop rfl nofun) h
  case eRehash => exact execERehash_advances (hop rfl nofun) h
  case eLast => exact execELast_advances hz h
  case dInit => exact execDInit_advances hst hp h
  case dToken => exact execDToken_advances hz hst hp h
  case dLitext => exact execDLitext_advances hz hst hp h
  case dLitcopy => exact execDLitcopy_advances hz hst hp h
  case dEofchk => exact execDEofchk_advances hz hst hp h
  case dOffset => exact execDOffset_advances hz hst hp h
  case dMlext => exact execDMlext_advances hz hst hp h
  case dMatch4 => exact execDMatch4_advances hst hp h
  case dMatchcopy => exact execDMatchcopy_advances hz hst hp h

end

end Sys2Proof.Machine

/-! ### The step -/

namespace Sys2Proof.Machine

section
variable {s t : State}

theorem step_of_invoke {i : Instr} {rest : List Byte} (hi : s.invoke ≠ []) (h : decode .opid s.invoke = .ok (i, rest)) :
    step s = exec i { s with invoke := [] } := by
  rw [step, nextAct, if_pos hi, fetchInvocation, h]

theorem step_of_busy (hi : s.invoke = []) (hb : s.status.state = .busy) : step s = exec s.st.instr s.hostBusy := by
  rw [step, nextAct, if_neg (not_not_intro hi), if_pos hb]

theorem step_of_no_move (hi : s.invoke = []) (hb : s.status.state ≠ .busy) (hh : s.host = []) : step s = exec .idle s := by
  rw [step, nextAct, if_neg (not_not_intro hi), if_neg hb, hh]

theorem step_of_command {w : Word} {rest : List HostMove} (hi : s.invoke = []) (hb : s.status.state ≠ .busy)
    (hh : s.host = .writeCsr .cmd w :: rest) : step s =
      match decodeCmd w with
      | .ok i => exec i { s with host := rest }
      | .error e => .refused (refusalOf e) := by
  rw [step, nextAct, if_neg (not_not_intro hi), if_neg hb, hh]
  simp only [fetchCommand, decode_cmd]
  cases decodeCmd w <;> rfl

/-- The host's list after a move that is no command: the move is done, but the loop of reads goes on in IDLE (R250 (d)). -/
def State.hostAfter (s : State) (m : HostMove) (rest : List HostMove) : List HostMove :=
  match m with
  | .pollEnd => if s.status.state = .idle then s.host else rest
  | _ => rest

theorem step_of_move {m : HostMove} {rest : List HostMove} (hi : s.invoke = []) (hb : s.status.state ≠ .busy)
    (hh : s.host = m :: rest) (hm : ∀ w, m ≠ .writeCsr .cmd w) :
    step s = hostMove m { s with host := s.hostAfter m rest } := by
  rw [step, nextAct, if_neg (not_not_intro hi), if_neg hb, hh]
  cases m with
  | writeCsr c v =>
    cases c with
    | cmd => exact absurd rfl (hm v)
    | _ => rfl
  | pollEnd => simp only [State.hostAfter, hh]
  | _ => rfl

/-- While no command runs, a step that answers a state is the engine's waiting, the start of a command or a move of the host. -/
theorem step_next_of_not_busy (hi : s.invoke = []) (hb : s.status.state ≠ .busy) (h : step s = .next t) :
    t = s ∨ ∃ r, (∃ w i, decodeCmd w = .ok i ∧ exec i { s with host := r } = .next t) ∨
      ∃ m, hostMove m { s with host := r } = .next t := by
  cases hh : s.host with
  | nil =>
    rw [step_of_no_move hi hb hh] at h
    cases h
    exact .inl rfl
  | cons m rest =>
    by_cases hm : ∃ w, m = .writeCsr .cmd w
    · obtain ⟨w, rfl⟩ := hm
      rw [step_of_command hi hb hh] at h
      cases hd : decodeCmd w with
      | ok i => rw [hd] at h; exact .inr ⟨rest, .inl ⟨w, i, hd, h⟩⟩
      | error e => rw [hd] at h; cases h
    · rw [step_of_move hi hb hh fun w hw => hm ⟨w, hw⟩] at h
      exact .inr ⟨_, .inr ⟨m, h⟩⟩

/-! ### The invariant -/

theorem decodeCmd_ok {w : Word} {i : Instr} (h : decodeCmd w = .ok i) :
    i = .maxlen ∨ i = .compress ∨ i = .decompressKnown ∨ i = .decompressStream := by
  unfold decodeCmd at h
  split at h <;> cases h <;> simp

/-- A command that starts, from a state that meets the invariant (R250, R258). -/
theorem startCommand_inv (hs : s.Inv) {code : Word} {x : St} (hx : x.engState = .busy)
    (hp : (s.startCommand code x).phaseOk) : (s.startCommand code x).Inv := by
  obtain ⟨hz, hm, -, -, -, hinv⟩ := hs
  exact ⟨hz, hm, ⟨hx.symm, rfl⟩, fun h => absurd rfl h, hp, hinv⟩

theorem command_inv {w : Word} {i : Instr} (hs : s.Inv) (hd : decodeCmd w = .ok i) (h : exec i s = .next t) : t.Inv := by
  obtain rfl | rfl | rfl | rfl := decodeCmd_ok hd
  · cases execMaxlen_next h
    exact startCommand_inv hs rfl trivial
  · cases execCompress_next h
    exact startCommand_inv hs rfl trivial
  · obtain ⟨hl, rfl⟩ := execDecompressKnown_next h
    exact startCommand_inv hs rfl hl
  · obtain ⟨hl, rfl⟩ := execDecompressStream_next h
    exact startCommand_inv hs rfl hl

theorem hostMove_next {m : HostMove} (h : hostMove m s = .next t) :
    (∃ a b, a < s.srcSize ∧ t = { s with src := Memory.store s.src a [b] }) ∨
    (∃ a b, a < s.dstSize ∧ t = { s with dst := Memory.store s.dst a [b] }) ∨
    ∃ l c e d, t = { s with srcLen := l, dstCap := c, expLen := e, hostData := d } := by
  cases m with
  | writeSrc a b =>
    simp only [hostMove] at h
    split at h <;> cases h
    exact .inl ⟨_, _, by assumption, rfl⟩
  | writeDst a b =>
    simp only [hostMove] at h
    split at h <;> cases h
    exact .inr (.inl ⟨_, _, by assumption, rfl⟩)
  | readSrc a =>
    simp only [hostMove] at h
    split at h <;> cases h
    exact .inr (.inr ⟨_, _, _, _, rfl⟩)
  | readDst a =>
    simp only [hostMove] at h
    split at h <;> cases h
    exact .inr (.inr ⟨_, _, _, _, rfl⟩)
  | writeCsr c v => cases c <;> cases h <;> exact .inr (.inr ⟨_, _, _, _, rfl⟩)
  | readCsr c => cases h; exact .inr (.inr ⟨_, _, _, _, rfl⟩)
  | wait => cases h; exact .inr (.inr ⟨_, _, _, _, rfl⟩)
  | pollEnd => cases h; exact .inr (.inr ⟨_, _, _, _, rfl⟩)

theorem hostMove_inv {m : HostMove} (hs : s.Inv) (hb : s.status.state ≠ .busy) (h : hostMove m s = .next t) : t.Inv := by
  obtain ⟨hz, hm, hst, hr, -, hinv⟩ := hs
  have hx : s.st.engState ≠ .busy := hst.1 ▸ hb
  obtain ⟨hsrc, hdst, hW, hN⟩ := (State.memOk_iff s).mp hm
  obtain ⟨a, b, ha, rfl⟩ | ⟨a, b, ha, rfl⟩ | ⟨l, c, e, d, rfl⟩ := hostMove_next h
  · exact ⟨hz, (State.memOk_iff _).mpr ⟨hsrc.store (.inr ha), hdst, hW, hN⟩, hst, hr, State.phaseOk_of_not_busy hx, hinv⟩
  · exact ⟨hz, (State.memOk_iff _).mpr ⟨hsrc, hdst.store (.inr ha), hW, hN⟩, hst, hr, State.phaseOk_of_not_busy hx, hinv⟩
  · exact ⟨hz, hm, hst, hr, State.phaseOk_of_not_busy hx, hinv⟩

theorem hostBusy_inv (hs : s.Inv) : s.hostBusy.Inv := by
  rw [State.hostBusy_eq]
  exact hs

theorem step_keeps_inv (hs : s.Inv) (h : step s = .next t) : t.Inv := by
  have ⟨_, _, _, _, _, hi⟩ := hs
  by_cases hb : s.status.state = .busy
  · have hu : s.hostBusy.Inv := hostBusy_inv hs
    rw [step_of_busy hi hb, ← State.hostBusy_st] at h
    have hb : s.hostBusy.status.state = .busy := by rwa [State.hostBusy_status]
    have ⟨hz, _, ⟨hst, _⟩, _, hp, _⟩ := hu
    exact (exec_advances hz hp (hst ▸ hb) h).inv (exec_keeps h) hu hb
  · obtain rfl | ⟨r, ⟨w, i, hd, h⟩ | ⟨m, h⟩⟩ := step_next_of_not_busy hi hb h
    · exact hs
    · exact command_inv (s := { s with host := r }) hs hd h
    · exact hostMove_inv (s := { s with host := r }) hs hb h

end

/-- Settles O15: the three ways a step can go, the engine's own by how it ends the command. -/
theorem stepKeepsInv : Obligations.StepKeepsInv := by
  unfold Obligations.StepKeepsInv
  exact fun s t hs h => step_keeps_inv hs h

/-- Settles O14: nothing is listed at reset, and no command runs. -/
theorem resetMeetsInv : Obligations.ResetMeetsInv := by
  unfold Obligations.ResetMeetsInv
  have hm : State.reset.memOk :=
    (State.memOk_iff _).mpr ⟨⟨Memory.wf_nil, nofun⟩, ⟨Memory.wf_nil, nofun⟩, .nil _, .nil _⟩
  exact ⟨by decide, hm, by decide, by decide, State.phaseOk_of_not_busy nofun, rfl⟩

/-- Settles O13: every value is the one `State.reset` is written with. -/
theorem resetState : Obligations.ResetState := by
  unfold Obligations.ResetState
  exact ⟨rfl, rfl, rfl, rfl, rfl, rfl, rfl, rfl⟩

/-! ### What a step runs -/

theorem decode_opid_code (x : St) : decode .opid [x.code] = .ok (x.instr, []) := by
  cases x <;> rfl

/-- Settles O5: one clause for each way `nextAct` goes. -/
theorem stepRunsDecodedInstruction : Obligations.StepRunsDecodedInstruction := by
  unfold Obligations.StepRunsDecodedInstruction
  refine fun s => ⟨fun hi i rest h => step_of_invoke hi h, fun hi hb => ?_, fun hi hb w rest i hh hd => ?_,
    fun hi hb hh => step_of_no_move hi hb hh⟩
  · exact ⟨decode_opid_code s.st, step_of_busy hi hb, State.hostBusy_eq s⟩
  · rw [decode_cmd] at hd
    rw [step_of_command hi hb hh]
    cases hc : decodeCmd w with
    | ok j => rw [hc] at hd; cases hd; rfl
    | error e => rw [hc] at hd; cases hd

/-! ### The host's moves -/

theorem setWidth_byte (b : Byte) : b.setWidth 32 = BitVec.ofNat 32 b.toNat := BitVec.eq_of_toNat_eq (by simp)

/-- Settles O8: each move is `hostMove` at the state whose list of moves has gone on. -/
theorem hostMovesBetweenCommands : Obligations.HostMovesBetweenCommands := by
  unfold Obligations.HostMovesBetweenCommands
  intro s rest m hi hb hh
  have key (hm : ∀ w, m ≠ .writeCsr .cmd w) := step_of_move hi hb hh hm
  cases m with
  | writeSrc a b =>
    dsimp only
    split
    · next ha =>
      exact ⟨_, (key nofun).trans (if_pos ha), rfl, fun c => Memory.byte_insert .src s.src a.toNat c b⟩
    · next ha => exact (key nofun).trans (if_neg ha)
  | writeDst a b =>
    dsimp only
    split
    · next ha => exact ⟨_, (key nofun).trans (if_pos ha), rfl, State.wrote_store _ _ _ _ rfl⟩
    · next ha => exact (key nofun).trans (if_neg ha)
  | readSrc a =>
    dsimp only
    rw [← setWidth_byte]
    exact key nofun
  | readDst a =>
    dsimp only
    rw [← setWidth_byte]
    exact key nofun
  | writeCsr c v =>
    cases c with
    | cmd => trivial
    | _ => exact key nofun
  | readCsr c => cases c <;> exact key nofun
  | wait => exact key nofun
  | pollEnd => exact key nofun

/-! ### The hash table -/

/-- Settles O29: the laws of `htGet` and `htSet` at an index the table has, and at one the wide table has not. -/
theorem lookupAndInsert : Obligations.LookupAndInsert := by
  unfold Obligations.LookupAndInsert
  refine fun s i => ⟨fun hi => ?_, fun hw hi => ?_, fun p => ⟨fun hi => ?_, fun hw hi => ?_⟩⟩
  · rw [exec, execHtLookup, State.htGet_of hi, (ref_of_entry _).1]
  · refine ⟨(s.htGet i).1, (s.htGet i).2.draws, ?_⟩
    rw [exec, execHtLookup, State.htGet_fields, (ref_of_entry _).1]
  · rw [exec, execHtInsert, State.htSet_of hi]
    exact ⟨_, rfl, State.htPut_fields s i p, State.htPut_other s i p, fun j hj => State.htAt_htPut_of_ne s p hj,
      fun hp => State.htAt_htPut_self s hp⟩
  · have hn : ¬s.bucketOk i := fun h => absurd (h hw) (Nat.not_lt.mpr hi)
    rw [exec, execHtInsert, State.htSet_stray hn]
    obtain ⟨k, hk⟩ := State.strayPut_get s p
    refine ⟨_, rfl, rfl, k, fun j => ?_⟩
    simpa [State.htAt, hw] using hk j

/-! ### STATUS -/

/-- The number of a word put together from two. -/
theorem toNat_append_eq_add {v w : Nat} (x : BitVec v) (y : BitVec w) : (x ++ y).toNat = x.toNat * 2 ^ w + y.toNat := by
  rw [BitVec.toNat_append, ← Nat.shiftLeft_add_eq_or_of_lt y.isLt, Nat.shiftLeft_eq]

/-- R27: the value of STATUS, field by field. -/
theorem Status.word_toNat (u : Status) : u.word.toNat =
    u.state.code.toNat + 4 * u.variant.bit.toNat + 8 * u.lenmis.toNat + 16 * u.errcode.toNat := by
  simp only [Status.word, toNat_append_eq_add, BitVec.toNat_ofBool, BitVec.toNat_ofNat]
  omega

/-- Settles O12: each field is a digit of the value of STATUS. -/
theorem statusLayout : Obligations.StatusLayout := by
  unfold Obligations.StatusLayout
  intro u
  have h0 := u.state.code.isLt
  have h1 := u.variant.bit.isLt
  have h2 := u.lenmis.toNat_lt
  have h3 := u.errcode.isLt
  have field (k n : Nat) : (u.word.extractLsb' k n).toNat = (u.state.code.toNat + 4 * u.variant.bit.toNat +
      8 * u.lenmis.toNat + 16 * u.errcode.toNat) / 2 ^ k % 2 ^ n := by
    rw [BitVec.extractLsb'_toNat, Nat.shiftRight_eq_div_pow, Status.word_toNat]
  have hstate : (u.word.extractLsb' 0 2).toNat = u.state.code.toNat := by rw [field]; omega
  have hvariant : (u.word.extractLsb' 2 1).toNat = u.variant.bit.toNat := by rw [field]; omega
  have hlenmis : (u.word.extractLsb' 3 1).toNat = u.lenmis.toNat := by rw [field]; omega
  refine ⟨?_, ?_, ?_, BitVec.eq_of_toNat_eq ?_, BitVec.eq_of_toNat_eq ?_⟩
  · rw [hstate]
    cases u.state <;> rfl
  · rw [hvariant]
    cases u.variant <;> rfl
  · rw [hlenmis]
    cases u.lenmis <;> rfl
  · rw [field]
    omega
  · rw [field, BitVec.toNat_ofNat]
    omega

end Sys2Proof.Machine

/-! ### COMPRESS never stops -/

namespace Sys2Proof.Machine

section
variable {s t : State}

/-! #### The output budget of ENC (R83, R156 (f)) -/

/-- A literal run spends what its input gives it, but for its token's one byte more. -/
theorem encBudget_literals (a l : Nat) : encBudget a + extCount l + l ≤ encBudget (a + l) + 1 := by
  unfold encBudget extCount
  split <;> omega

/-- A match of `4 + l` bytes pays for its token, its offset and its extension bytes. -/
theorem encBudget_match (a l : Nat) : encBudget a + 4 + extCount l ≤ encBudget (a + 4 + l) := by
  unfold encBudget extCount
  split <;> omega

/-- What the block leaves room for, in numbers. -/
theorem State.encBlock.bounds (h : s.encBlock) :
    17 ≤ s.iend.toNat ∧ s.iend.toNat ≤ s.srcSize ∧ s.mflimit.toNat + 12 = s.iend.toNat ∧
    s.matchlimit.toNat + 5 = s.iend.toNat := by
  obtain ⟨h1, h2, -, h4, h5, -⟩ := h
  exact ⟨h1, h2, h4, h5⟩

/-- The output for the first `n` input bytes, and 16 bytes more, are inside DST. -/
theorem State.encBlock.room (h : s.encBlock) {n : Nat} (hn : n ≤ s.iend.toNat) : encBudget n + 16 ≤ s.dstSize := by
  obtain ⟨-, -, h3, -⟩ := h
  unfold maxCompressed at h3
  unfold encBudget
  omega

/-! #### What each step answers -/

theorem orFault_of {α : Type} {r : Except Fault α} {a : α} {k : α → Out} (h : r = .ok a) : orFault r k = k a := by
  rw [h, orFault_ok]

theorem ofInt_pos_sub_pos {p q : Pos} (h : q.toNat ≤ p.toNat) :
    BitVec.ofInt 40 (pos p - pos q) = BitVec.ofNat 40 (p.toNat - q.toNat) := by
  rw [pos, pos, show (p.toNat : Int) - q.toNat = ((p.toNat - q.toNat : Nat) : Int) by omega, BitVec.ofInt_natCast]

/-- The length register holds a difference of positions exactly (R22). -/
theorem len_toNat (p q : Pos) : (BitVec.ofNat 40 (p.toNat - q.toNat)).toNat = p.toNat - q.toNat := by
  have hp := p.isLt
  rw [BitVec.toNat_ofNat]
  omega

/-- E.INIT on an input too short for the main loop (R141). -/
theorem execEInit_short (h : s.srcLen.toNat < 17) :
    execEInit s = .next { s.encStarted.htReset with st := .eLast } := if_pos h

/-- E.INIT on any other input (R141). -/
theorem execEInit_long (h : 17 ≤ s.srcLen.toNat) : execEInit s = .next { s.encStarted.htReset with
    mflimit := BitVec.ofNat 32 (s.srcLen.toNat - 12), matchlimit := BitVec.ofNat 32 (s.srcLen.toNat - 5)
    st := .eSearchInit } := if_neg (Nat.not_lt.mpr h)

/-- E.PROBE past `mflimit` (R143). -/
theorem execEProbe_past (h : s.mflimit.toNat < s.fwd.toNat) : execEProbe s = .next { s.probeMoved with st := .eLast } :=
  if_pos h

/-- E.PROBE at a position it probes (R143). -/
theorem execEProbe_of (hm : s.fwd.toNat ≤ s.mflimit.toNat) (h4 : s.fwd.toNat + 4 ≤ s.srcSize) {b : Bucket} {r : Nat}
    (hb : hashOf s.variant (s.wordAt s.fwd.toNat) = b) (hr : (s.htAt b).toNat = r) :
    execEProbe s = .next { s.probeMoved.htPut b s.fwd with
      h := b, ref := BitVec.ofNat 33 r
      st := if (1 ≤ pos s.fwd - r ∧ pos s.fwd - r ≤ maxDistance) ∧ s.wordAt r = s.wordAt s.fwd.toNat
        then .eCatchup else .eProbe } := by
  have hu := State.htProbeAt_of (s := s.probeMoved) (p := s.fwd) h4
  rw [show hashOf s.probeMoved.variant (s.probeMoved.wordAt s.fwd.toNat) = b from hb,
    show (s.probeMoved.htAt b).toNat = r from hr, State.htPut_fields] at hu
  have hrr : (BitVec.ofNat 33 r).toInt = r := hr ▸ (ref_of_entry _).2
  refine (if_neg (Nat.not_lt.mpr hm)).trans ((orFault_of hu).trans ?_)
  rw [State.htPut_fields, State.accept_of (by rw [hrr]; omega) (by rwa [pos_toNat]), orFault_ok, hrr]
  simp only [decide_eq_true_eq, pos_toNat]
  rfl
/-- E.CATCHUP (R144): both cursors go back by the same `k`, over bytes that are equal. -/
theorem execECatchup_of (hr : 0 ≤ s.ref.toInt) (hi : s.ip.toNat ≤ s.srcSize) (hrs : s.ref.toInt ≤ s.srcSize) :
    ∃ k : Nat, execECatchup s = .next { s with
        ip := BitVec.ofNat 32 (s.ip.toNat - k), ref := BitVec.ofInt 33 (s.ref.toInt - k), st := .eLitlen } ∧
      k ≤ s.ip.toNat - s.anchor.toNat ∧ (k : Int) ≤ s.ref.toInt ∧
      (∀ j, 1 ≤ j → j ≤ k → s.srcAt (s.ip.toNat - j) = s.srcAt (s.ref.toInt.toNat - j)) ∧
      (s.ip.toNat - k ≤ s.anchor.toNat ∨ s.ref.toInt = k ∨
        s.srcAt (s.ip.toNat - (k + 1)) ≠ s.srcAt (s.ref.toInt.toNat - (k + 1))) := by
  obtain ⟨k, hk, h⟩ := catchupLoop_of hr hi hrs (Nat.le_refl _)
  exact ⟨k, by rw [execECatchup, hk]; rfl, h⟩

/-- E.LITLEN (R145). -/
theorem execELitlen_of {l : Nat} (hz : s.sizesOk) (ha : s.anchor.toNat ≤ s.ip.toNat) (hl : s.ip.toNat - s.anchor.toNat = l)
    (h : s.op.toNat + (headOf l).length ≤ s.dstSize) : execELitlen s = .next { s with
      len := BitVec.ofNat 40 l, dst := Memory.store s.dst s.op.toNat (headOf l), tokpos := s.op
      op := advance s.op (headOf l).length, st := .eLitcopy } := by
  subst hl
  have hu := State.packLen_of (s := { s with len := BitVec.ofNat 40 (s.ip.toNat - s.anchor.toNat) }) hz h
  rw [execELitlen, ofInt_pos_sub_pos ha]
  dsimp only
  rw [len_toNat, hu]
  rfl

/-- E.LITCOPY (R146). -/
theorem execELitcopy_of (hs : s.anchor.toNat + s.len.toNat ≤ s.srcSize) (hd : s.op.toNat + s.len.toNat ≤ s.dstSize) :
    execELitcopy s = .next { s with
      dst := Memory.store s.dst s.op.toNat (Memory.bytes .src s.src s.anchor.toNat s.len.toNat)
      op := advance s.op s.len.toNat, st := .eOffset } := by
  rw [execELitcopy, State.fcpExact_of (.inr hs) (.inr hd)]
  rfl

/-- E.OFFSET (R147). -/
theorem execEOffset_of (h : s.op.toNat + 2 ≤ s.dstSize) : execEOffset s = .next { s with
    dst := Memory.store s.dst s.op.toNat (leBytes 2 (BitVec.ofInt 16 (pos s.ip - s.ref.toInt)).toNat)
    op := advance s.op 2, st := .eExtend } := by
  rw [execEOffset, State.memWrite_of h]
  rfl

/-- E.EXTEND (R148): both cursors go on by the 4 verified bytes and by `k` more that are equal. -/
theorem execEExtend_of (hz : s.sizesOk) (hr : 0 ≤ s.ref.toInt) (hri : s.ref.toInt ≤ s.ip.toNat)
    (hi : s.ip.toNat + 4 ≤ s.matchlimit.toNat) (hm : s.matchlimit.toNat ≤ s.srcSize) :
    ∃ k : Nat, execEExtend s = .next { s with
        ip := BitVec.ofNat 32 (s.ip.toNat + 4 + k), ref := BitVec.ofInt 33 (s.ref.toInt + 4 + k)
        mstart := BitVec.ofNat 32 (s.ip.toNat + 4), st := .eMlen } ∧
      s.ip.toNat + 4 + k ≤ s.matchlimit.toNat ∧
      (∀ j < k, s.srcAt (s.ref.toInt.toNat + 4 + j) = s.srcAt (s.ip.toNat + 4 + j)) ∧
      (s.matchlimit.toNat ≤ s.ip.toNat + 4 + k ∨
        s.srcAt (s.ref.toInt.toNat + 4 + k) ≠ s.srcAt (s.ip.toNat + 4 + k)) := by
  have hsrc : s.srcSize ≤ 2147483647 := hz.src_le
  have hip : (advance s.ip 4).toNat = s.ip.toNat + 4 := advance_toNat (by omega)
  have href : (BitVec.ofInt 33 (s.ref.toInt + 4)).toInt = s.ref.toInt + 4 := ref_toInt (by omega) (by omega)
  obtain ⟨k, hk, h1, h2, h3⟩ := extendLoop_of
    (s := { s with ip := advance s.ip 4, ref := BitVec.ofInt 33 (s.ref.toInt + 4), mstart := advance s.ip 4 })
    (by rw [href]; omega) (by rw [href, hip]; omega) hm (Nat.le_refl _)
  dsimp only at hk h1 h2 h3
  rw [show (BitVec.ofInt 33 (s.ref.toInt + 4)).toInt.toNat = s.ref.toInt.toNat + 4 by omega] at h2 h3
  rw [hip] at h1 h2 h3
  refine ⟨k, (orFault_of hk).trans ?_, by omega, h2, h3⟩
  rw [hip, href]
  rfl

/-- The extension bytes of a length, where its code is saturated (R71, R106). -/
theorem State.packExt_extOf {l : Nat} (h : s.op.toNat + (extOf l).length ≤ s.dstSize) :
    (if mlMask ≤ l then s.packExt (l - mlMask) else .ok s) = .ok { s with
      dst := Memory.store s.dst s.op.toNat (extOf l), op := advance s.op (extOf l).length } := by
  unfold mlMask
  rw [extOf_eq] at h ⊢
  split
  · rw [if_neg (by omega), extBytes_length] at *
    exact State.packExt_of h
  · rw [if_pos (by omega), Memory.store_nil, List.length_nil, advance_zero]

/-- E.MLEN (R149). -/
theorem execEMlen_of {l : Nat} (hm : s.mstart.toNat ≤ s.ip.toNat) (hl : s.ip.toNat - s.mstart.toNat = l)
    (ht : s.tokpos.toNat + 1 ≤ s.dstSize) (h : s.op.toNat + (extOf l).length ≤ s.dstSize) : execEMlen s = .next { s with
      len := BitVec.ofNat 40 l
      dst := Memory.store (Memory.store s.dst s.tokpos.toNat (leBytes 1 ((s.dstAt s.tokpos.toNat).toNat + min l 15)))
        s.op.toNat (extOf l)
      op := advance s.op (extOf l).length, st := .eEndchk } := by
  subst hl
  rw [execEMlen, ofInt_pos_sub_pos hm]
  dsimp only
  rw [len_toNat]
  generalize s.ip.toNat - s.mstart.toNat = l at h ⊢
  have hr := State.memRead_of (s := { s with len := BitVec.ofNat 40 l }) (sp := .dst) (a := pos s.tokpos) (n := 1)
    (pos_nonneg _) (by rwa [pos_toNat])
  have hw := State.memWrite_of (s := { s with len := BitVec.ofNat 40 l }) (v := (s.dstAt s.tokpos.toNat).toNat + min l 15) ht
  have hv : leValue (Memory.bytes .dst s.dst (pos s.tokpos).toNat 1) = (s.dstAt s.tokpos.toNat).toNat := by
    simp [Memory.bytes, leValue, State.dstAt]
  have hc : (if mlMask ≤ l then mlMask else l) = min l 15 := by
    unfold mlMask
    split <;> omega
  rw [hr, orFault_ok, State.mem, hv, hc, hw, orFault_ok]
  exact orFault_of (State.packExt_extOf (s := { s with
    len := BitVec.ofNat 40 l
    dst := Memory.store s.dst s.tokpos.toNat (leBytes 1 ((s.dstAt s.tokpos.toNat).toNat + min l 15)) }) h)

/-- E.ENDCHK (R150). -/
theorem execEEndchk_eq (s : State) : execEEndchk s = .next
    (if s.mflimit.toNat < s.ip.toNat then { s with anchor := s.ip, st := .eLast } else { s with st := .eChain }) := by
  unfold execEEndchk
  split <;> rfl

/-- E.CHAIN (R151). -/
theorem execEChain_of (h4 : s.ip.toNat + 4 ≤ s.srcSize) (hd : s.op.toNat + 1 ≤ s.dstSize) {b : Bucket} {r : Nat}
    (hb : hashOf s.variant (s.wordAt s.ip.toNat) = b) (hr : (s.htAt b).toNat = r) :
    execEChain s = .next
      (if (1 ≤ pos s.ip - r ∧ pos s.ip - r ≤ maxDistance) ∧ s.wordAt r = s.wordAt s.ip.toNat then { s with
        h := b, ref := BitVec.ofNat 33 r, dst := Memory.store s.dst s.op.toNat [tokenByte 0], tokpos := s.op
        op := advance s.op 1, st := .eOffset }
      else { s with h := b, ref := BitVec.ofNat 33 r, st := .eRehash }) := by
  have hrr : (BitVec.ofNat 33 r).toInt = r := hr ▸ (ref_of_entry _).2
  have hok : s.bucketOk b := hb ▸ s.hashOf_bucketOk _
  have ha := State.accept_of (s := { s with h := b, ref := BitVec.ofNat 33 r }) (ref := r) (ip := pos s.ip) (by omega)
    (by rwa [pos_toNat])
  have hp := State.packToken_of (s := { s with h := b, ref := BitVec.ofNat 33 r }) (l := 0) hd
  rw [execEChain, State.hashAt_of (pos_nonneg _) (by rwa [pos_toNat]), orFault_ok, pos_toNat, hb]
  dsimp only
  rw [State.htGet_of hok, (ref_of_entry _).1, hr, hrr, ha, orFault_ok, hp]
  simp only [decide_eq_true_eq, pos_toNat]
  split
  · next hc => exact congrArg Host.Outcome.next (if_pos hc).symm
  · next hc => exact congrArg Host.Outcome.next (if_neg hc).symm

/-- E.REHASH (R152): two entries are written. -/
theorem execERehash_of (h2 : 2 ≤ s.ip.toNat) (h4 : s.ip.toNat + 4 ≤ s.srcSize) {g b : Bucket}
    (hg : hashOf s.variant (s.wordAt (s.ip.toNat - 2)) = g) (hb : hashOf s.variant (s.wordAt s.ip.toNat) = b) :
    execERehash s = .next { (s.htPut g (BitVec.ofNat 32 (s.ip.toNat - 2))).htPut b s.ip with
      anchor := s.ip, ip := advance s.ip 1, st := .eSearchInit } := by
  have hfirst := State.insertAt_of (s := s) (n := s.ip.toNat - 2) (by omega)
  rw [hg] at hfirst
  generalize hu : s.htPut g (BitVec.ofNat 32 (s.ip.toNat - 2)) = u at hfirst ⊢
  have hsize : u.srcSize = s.srcSize := by rw [← hu, State.htPut_fields]
  have hbu : hashOf u.variant (u.wordAt s.ip.toNat) = b := by rw [← hu, State.htPut_fields]; exact hb
  have hsecond := State.insertAt_of (s := u) (n := s.ip.toNat) (by rwa [hsize])
  rw [hbu, BitVec.ofNat_toNat, BitVec.setWidth_eq] at hsecond
  rw [execERehash, pos, show (s.ip.toNat : Int) - 2 = ((s.ip.toNat - 2 : Nat) : Int) by omega,
    hfirst, orFault_ok, hsecond, orFault_ok]

/-- E.LAST, which enters DONE (R153, R154). -/
theorem execELast_of {l : Nat} (hz : s.sizesOk) (ha : s.anchor.toNat ≤ s.iend.toNat) (hs : s.iend.toNat ≤ s.srcSize)
    (hl : s.iend.toNat - s.anchor.toNat = l) (hd : s.op.toNat + (headOf l).length + l ≤ s.dstSize) :
    execELast s = .next (State.endEnc { s with
      len := BitVec.ofNat 40 l
      dst := Memory.store (Memory.store s.dst s.op.toNat (headOf l)) (s.op.toNat + (headOf l).length)
        (Memory.bytes .src s.src s.anchor.toNat l)
      tokpos := s.op, op := advance s.op ((headOf l).length + l) }) := by
  have hdst : s.dstSize ≤ 2147483647 := hz.dst_le
  have hop : (advance s.op (headOf l).length).toNat = s.op.toNat + (headOf l).length := advance_toNat (by omega)
  have hp := State.packLen_of (s := { s with len := BitVec.ofNat 40 l }) (l := l) hz (by dsimp only; omega)
  have hf := State.fcpExact_of (n := l) (a := s.anchor.toNat) (d := (advance s.op (headOf l).length).toNat) (s := { s with
    len := BitVec.ofNat 40 l, dst := Memory.store s.dst s.op.toNat (headOf l), tokpos := s.op
    op := advance s.op (headOf l).length }) (.inr (by dsimp only; omega)) (.inr (by dsimp only; omega))
  rw [execELast, ofInt_pos_sub_pos ha, hl]
  dsimp only
  rw [← hl, len_toNat, hl]
  refine (orFault_of hp).trans ((orFault_of hf).trans ?_)
  rw [advance_advance, hop]

/-! #### Each step keeps the invariant, and what it asks for is there (R156, R157) -/

theorem execEInit_encInv (hz : s.sizesOk) (hs : s.srcLen.toNat ≤ s.srcSize)
    (hd : maxCompressed s.srcLen.toNat ≤ s.dstSize) : ∃ t, execEInit s = .next t ∧ t.EncInv := by
  rcases Nat.lt_or_ge s.srcLen.toNat 17 with h | h
  · refine ⟨_, execEInit_short h, ?_⟩
    rw [State.htReset_fields]
    exact ⟨hz, hs, hd, Nat.zero_le _, Nat.zero_le _⟩
  · refine ⟨_, execEInit_long h, ?_⟩
    rw [State.htReset_fields]
    have hl := s.srcLen.isLt
    refine ⟨hz, ⟨h, hs, hd, ?_, ?_, rfl⟩, Nat.le_refl _, Nat.zero_le _, Nat.zero_le _⟩
    · rw [BitVec.toNat_ofNat]
      dsimp only [State.encStarted, mfLimit]
      omega
    · rw [BitVec.toNat_ofNat]
      dsimp only [State.encStarted, lastLiterals]
      omega

theorem execESearchInit_encInv (hz : s.sizesOk) (hb : s.encBlock) (ha : s.anchor.toNat ≤ s.ip.toNat)
    (hi : s.ip.toNat ≤ s.mflimit.toNat + 1) (ho : s.op.toNat ≤ encBudget s.anchor.toNat) :
    ∃ t, execESearchInit s = .next t ∧ t.EncInv := by
  obtain ⟨-, -, hmf, -⟩ := hb.bounds
  exact ⟨_, rfl, hz, hb, ha, by dsimp only; omega, ho⟩

/-- The next position of a search is no earlier (R143). -/
theorem fwd_le_advance {p : Pos} (a : Word) (h : p.toNat ≤ maxMemSize) :
    p.toNat ≤ (advance p (a >>> skipStrength).toNat).toNat := by
  have ha := a.isLt
  have hs : (a >>> skipStrength).toNat = a.toNat / 64 := by
    rw [BitVec.toNat_ushiftRight, Nat.shiftRight_eq_div_pow]
    rfl
  simp only [maxMemSize] at h
  rw [advance_toNat (by omega)]
  omega

theorem execEProbe_encInv (hz : s.sizesOk) (hb : s.encBlock) (ha : s.anchor.toNat ≤ s.fwd.toNat)
    (hai : s.anchor.toNat ≤ s.iend.toNat) (ho : s.op.toNat ≤ encBudget s.anchor.toNat) :
    ∃ t, execEProbe s = .next t ∧ t.EncInv := by
  obtain ⟨-, hie, hmf, -⟩ := hb.bounds
  have hsrc := hz.src_le
  rcases Nat.lt_or_ge s.mflimit.toNat s.fwd.toNat with h | h
  · obtain ⟨-, -, hroom, -⟩ := hb
    exact ⟨_, execEProbe_past h, hz, hie, hroom, hai, ho⟩
  · refine ⟨_, execEProbe_of h (by omega) rfl rfl, ?_⟩
    generalize hashOf s.variant (s.wordAt s.fwd.toNat) = b
    have href := (ref_of_entry (s.htAt b)).2
    generalize (s.htAt b).toNat = r at href ⊢
    rw [State.htPut_fields]
    split
    · next hc =>
      obtain ⟨⟨h1, h2⟩, hw⟩ := hc
      have hw := (s.wordAt_eq_iff _ _).mp hw
      refine ⟨hz, hb, ⟨h, ?_, ?_, ?_, ?_⟩, ha, ho⟩
      · dsimp only; omega
      · dsimp only; rw [href]; exact h1
      · dsimp only; rw [href]; exact h2
      · dsimp only; rw [href]; exact hw
    · exact ⟨hz, hb, Nat.le_trans ha (fwd_le_advance _ (by omega)), hai, ho⟩

theorem execECatchup_encInv (hz : s.sizesOk) (hb : s.encBlock) (hm : s.encMatch) (ha : s.anchor.toNat ≤ s.ip.toNat)
    (ho : s.op.toNat ≤ encBudget s.anchor.toNat) : ∃ t, execECatchup s = .next t ∧ t.EncInv := by
  obtain ⟨-, hie, hmf, -⟩ := hb.bounds
  obtain ⟨hi, hr, hd, hd', hw⟩ := hm
  have hsrc : s.srcSize ≤ 2147483647 := hz.src_le
  rw [pos] at hd hd'
  obtain ⟨k, hk, hka, hkr, hback, -⟩ := execECatchup_of hr (by omega) (by omega)
  have hip : (BitVec.ofNat 32 (s.ip.toNat - k)).toNat = s.ip.toNat - k := by rw [BitVec.toNat_ofNat]; omega
  have href : (BitVec.ofInt 33 (s.ref.toInt - k)).toInt = s.ref.toInt - k := ref_toInt (by omega) (by omega)
  refine ⟨_, hk, hz, hb, ⟨?_, ?_, ?_, ?_, fun j hj => ?_⟩, ?_, ho⟩ <;> dsimp only [pos]
  · rw [hip]; omega
  · rw [href]; omega
  · rw [hip, href]; omega
  · rw [hip, href]; omega
  · rw [hip, href]
    rcases Nat.lt_or_ge j k with hjk | hjk
    · have h := hback (k - j) (by omega) (by omega)
      rw [show (s.ref.toInt - k).toNat + j = s.ref.toInt.toNat - (k - j) by omega,
        show s.ip.toNat - k + j = s.ip.toNat - (k - j) by omega]
      exact h.symm
    · have h := hw (j - k) (by omega)
      rwa [show s.ref.toInt.toNat + (j - k) = (s.ref.toInt - k).toNat + j by omega,
        show s.ip.toNat + (j - k) = s.ip.toNat - k + j by omega] at h
  · rw [hip]; omega

theorem execELitlen_encInv (hz : s.sizesOk) (hb : s.encBlock) (hm : s.encMatch) (ha : s.anchor.toNat ≤ s.ip.toNat)
    (ho : s.op.toNat ≤ encBudget s.anchor.toNat) : ∃ t, execELitlen s = .next t ∧ t.EncInv := by
  obtain ⟨-, hie, hmf, -⟩ := hb.bounds
  have ⟨hi, _⟩ := hm
  obtain ⟨l, hl⟩ : ∃ l, s.ip.toNat - s.anchor.toNat = l := ⟨_, rfl⟩
  have hroom := hb.room (n := s.ip.toNat) (by omega)
  have hbud := encBudget_literals s.anchor.toNat l
  rw [show s.anchor.toNat + l = s.ip.toNat by omega] at hbud
  have hdst : s.dstSize ≤ 2147483647 := hz.dst_le
  have hh := headOf_length l
  have hop : (advance s.op (headOf l).length).toNat = s.op.toNat + (headOf l).length := advance_toNat (by omega)
  have hlen : (BitVec.ofNat 40 l).toNat = l := hl ▸ len_toNat s.ip s.anchor
  refine ⟨_, execELitlen_of hz ha hl (by omega), hz, hb, hm, ha, hlen.trans hl.symm, ?_, ?_⟩ <;> dsimp only
  · omega
  · rw [hlen]; omega

theorem execELitcopy_encInv (hz : s.sizesOk) (hb : s.encBlock) (hm : s.encMatch) (ha : s.anchor.toNat ≤ s.ip.toNat)
    (hl : s.len.toNat = s.ip.toNat - s.anchor.toNat) (ht : s.tokpos.toNat < s.op.toNat)
    (ho : s.op.toNat ≤ encBudget s.anchor.toNat + 1 + extCount s.len.toNat) :
    ∃ t, execELitcopy s = .next t ∧ t.EncInv := by
  obtain ⟨-, hie, hmf, -⟩ := hb.bounds
  have ⟨hi, _⟩ := hm
  have hroom := hb.room (n := s.ip.toNat) (by omega)
  have hbud := encBudget_literals s.anchor.toNat s.len.toNat
  rw [show s.anchor.toNat + s.len.toNat = s.ip.toNat by omega] at hbud
  have hdst : s.dstSize ≤ 2147483647 := hz.dst_le
  have hop : (advance s.op s.len.toNat).toNat = s.op.toNat + s.len.toNat := advance_toNat (by omega)
  refine ⟨_, execELitcopy_of (by omega) (by omega), hz, hb, hm, ?_, ?_⟩ <;> dsimp only <;> omega

theorem execEOffset_encInv (hz : s.sizesOk) (hb : s.encBlock) (hm : s.encMatch) (ht : s.tokpos.toNat < s.op.toNat)
    (ho : s.op.toNat ≤ encBudget s.ip.toNat + 2) : ∃ t, execEOffset s = .next t ∧ t.EncInv := by
  obtain ⟨-, hie, hmf, -⟩ := hb.bounds
  have ⟨hi, _⟩ := hm
  have hroom := hb.room (n := s.ip.toNat) (by omega)
  have hdst : s.dstSize ≤ 2147483647 := hz.dst_le
  have hop : (advance s.op 2).toNat = s.op.toNat + 2 := advance_toNat (by omega)
  refine ⟨_, execEOffset_of (by omega), hz, hb, hm, ?_, ?_⟩ <;> dsimp only <;> omega

theorem execEExtend_encInv (hz : s.sizesOk) (hb : s.encBlock) (hm : s.encMatch) (ht : s.tokpos.toNat < s.op.toNat)
    (ho : s.op.toNat ≤ encBudget s.ip.toNat + 4) : ∃ t, execEExtend s = .next t ∧ t.EncInv := by
  obtain ⟨-, hie, hmf, hml⟩ := hb.bounds
  obtain ⟨hi, hr, hd, -, hw⟩ := hm
  have hsrc : s.srcSize ≤ 2147483647 := hz.src_le
  rw [pos] at hd
  obtain ⟨k, hk, hkm, hfwd, -⟩ := execEExtend_of hz hr (by omega) (by omega) (by omega)
  have hms : (BitVec.ofNat 32 (s.ip.toNat + 4)).toNat = s.ip.toNat + 4 := by rw [BitVec.toNat_ofNat]; omega
  have hip : (BitVec.ofNat 32 (s.ip.toNat + 4 + k)).toNat = s.ip.toNat + 4 + k := by rw [BitVec.toNat_ofNat]; omega
  have href : (BitVec.ofInt 33 (s.ref.toInt + 4 + k)).toInt = s.ref.toInt + 4 + k := ref_toInt (by omega) (by omega)
  refine ⟨_, hk, hz, hb, ⟨?_, ?_, ?_, ?_, ?_, fun j hj hji => ?_⟩, ht, ?_⟩ <;> dsimp only [pos, minMatch] at *
  · omega
  · omega
  · omega
  · omega
  · omega
  · rw [hms] at hj
    rw [hip] at hji ⊢
    rw [href]
    obtain ⟨i, rfl⟩ : ∃ i, j = s.ip.toNat + i := ⟨j - s.ip.toNat, by omega⟩
    rw [show s.ip.toNat + i - (((s.ip.toNat + 4 + k : Nat) : Int) - (s.ref.toInt + 4 + k)).toNat =
      s.ref.toInt.toNat + i by omega]
    rcases Nat.lt_or_ge i 4 with hi4 | hi4
    · exact hw i hi4
    · have h := hfwd (i - 4) (by omega)
      rwa [show s.ref.toInt.toNat + 4 + (i - 4) = s.ref.toInt.toNat + i by omega,
        show s.ip.toNat + 4 + (i - 4) = s.ip.toNat + i by omega] at h
  · rw [hms]; exact ho

theorem execEMlen_encInv (hz : s.sizesOk) (hb : s.encBlock) (hm : s.encExtended) (ht : s.tokpos.toNat < s.op.toNat)
    (ho : s.op.toNat ≤ encBudget (s.mstart.toNat - minMatch) + 4) : ∃ t, execEMlen s = .next t ∧ t.EncInv := by
  obtain ⟨-, hie, hmf, hml⟩ := hb.bounds
  obtain ⟨h4, hmi, him, -⟩ := hm
  dsimp only [minMatch] at h4 ho
  obtain ⟨l, hl⟩ : ∃ l, s.ip.toNat - s.mstart.toNat = l := ⟨_, rfl⟩
  have hroom := hb.room (n := s.ip.toNat) (by omega)
  have hbud := encBudget_match (s.mstart.toNat - 4) l
  rw [show s.mstart.toNat - 4 + 4 + l = s.ip.toNat by omega] at hbud
  have hdst : s.dstSize ≤ 2147483647 := hz.dst_le
  have hx := extOf_length l
  have hop : (advance s.op (extOf l).length).toNat = s.op.toNat + (extOf l).length := advance_toNat (by omega)
  refine ⟨_, execEMlen_of hmi hl (by omega) (by omega), hz, hb, ?_, him, ?_⟩ <;> dsimp only [minMatch] <;> omega

theorem execEEndchk_encInv (hz : s.sizesOk) (hb : s.encBlock) (h4 : minMatch ≤ s.ip.toNat)
    (hi : s.ip.toNat ≤ s.matchlimit.toNat) (ho : s.op.toNat ≤ encBudget s.ip.toNat) :
    ∃ t, execEEndchk s = .next t ∧ t.EncInv := by
  obtain ⟨-, hie, hmf, hml⟩ := hb.bounds
  have ⟨_, _, hroom, _⟩ := hb
  refine ⟨_, execEEndchk_eq s, ?_⟩
  split
  · exact ⟨hz, hie, hroom, by dsimp only; omega, ho⟩
  · exact ⟨hz, hb, h4, by dsimp only; omega, ho⟩

theorem execEChain_encInv (hz : s.sizesOk) (hb : s.encBlock) (h4 : minMatch ≤ s.ip.toNat)
    (hi : s.ip.toNat ≤ s.mflimit.toNat) (ho : s.op.toNat ≤ encBudget s.ip.toNat) :
    ∃ t, execEChain s = .next t ∧ t.EncInv := by
  obtain ⟨-, hie, hmf, -⟩ := hb.bounds
  have hroom := hb.room (n := s.ip.toNat) (by omega)
  have hdst : s.dstSize ≤ 2147483647 := hz.dst_le
  have hop : (advance s.op 1).toNat = s.op.toNat + 1 := advance_toNat (by omega)
  refine ⟨_, execEChain_of (by omega) (by omega) rfl rfl, ?_⟩
  generalize hashOf s.variant (s.wordAt s.ip.toNat) = b
  have href := (ref_of_entry (s.htAt b)).2
  generalize (s.htAt b).toNat = r at href ⊢
  split
  · next hc =>
    obtain ⟨⟨h1, h2⟩, hw⟩ := hc
    have hw := (s.wordAt_eq_iff _ _).mp hw
    refine ⟨hz, hb, ⟨hi, ?_, ?_, ?_, ?_⟩, ?_, ?_⟩ <;> dsimp only
    · omega
    · rw [href]; exact h1
    · rw [href]; exact h2
    · rw [href]; exact hw
    · omega
    · omega
  · exact ⟨hz, hb, h4, hi, ho⟩

theorem execERehash_encInv (hz : s.sizesOk) (hb : s.encBlock) (h4 : minMatch ≤ s.ip.toNat)
    (hi : s.ip.toNat ≤ s.mflimit.toNat) (ho : s.op.toNat ≤ encBudget s.ip.toNat) :
    ∃ t, execERehash s = .next t ∧ t.EncInv := by
  obtain ⟨-, hie, hmf, -⟩ := hb.bounds
  have hsrc : s.srcSize ≤ 2147483647 := hz.src_le
  dsimp only [minMatch] at h4
  have hip : (advance s.ip 1).toNat = s.ip.toNat + 1 := advance_toNat (by omega)
  refine ⟨_, execERehash_of (by omega) (by omega) rfl rfl, ?_⟩
  generalize hashOf s.variant (s.wordAt s.ip.toNat) = b
  generalize hashOf s.variant (s.wordAt (s.ip.toNat - 2)) = g
  rw [State.htPut_fields, State.htPut_fields]
  refine ⟨hz, hb, ?_, ?_, ho⟩ <;> dsimp only <;> omega

/-- The command ends within the bound of MAXLEN (R157). -/
theorem execELast_encDone (hz : s.sizesOk) (hs : s.iend.toNat ≤ s.srcSize) (hd : maxCompressed s.iend.toNat ≤ s.dstSize)
    (ha : s.anchor.toNat ≤ s.iend.toNat) (ho : s.op.toNat ≤ encBudget s.anchor.toNat) :
    ∃ t, execELast s = .next t ∧ t.st = .done ∧ t.status.state = .done ∧ 0 ≤ t.result.toInt ∧
      t.result.toNat ≤ maxCompressed s.iend.toNat := by
  obtain ⟨l, hl⟩ : ∃ l, s.iend.toNat - s.anchor.toNat = l := ⟨_, rfl⟩
  have hbud := encBudget_literals s.anchor.toNat l
  rw [show s.anchor.toNat + l = s.iend.toNat by omega] at hbud
  have hmax : encBudget s.iend.toNat + 16 = maxCompressed s.iend.toNat := rfl
  have hdst := hz.dst_le
  have hh := headOf_length l
  have hop := advance_toNat_le s.op ((headOf l).length + l)
  have hle : (advance s.op ((headOf l).length + l)).toNat ≤ maxCompressed s.iend.toNat := by omega
  exact ⟨_, execELast_of hz ha hs hl (by omega), rfl, rfl, pos_toInt_nonneg (hle.trans (hd.trans hdst)), hle⟩

end

/-- Settles O43: one lemma for each step, that it keeps the invariant or, for E.LAST, ends the command. -/
theorem encNeverStops : Obligations.EncNeverStops := by
  unfold Obligations.EncNeverStops
  intro s hs
  unfold State.EncInv at hs
  obtain ⟨hz, hs⟩ := hs
  have keeps {o : Out} : (∃ t, o = .next t ∧ t.EncInv) → ∃ t, o = .next t ∧ (t.EncInv ∨
      (t.st = .done ∧ t.status.state = .done ∧ 0 ≤ t.result.toInt ∧
        t.result.toNat ≤ s.iend.toNat + s.iend.toNat / 255 + 16)) :=
    fun ⟨t, ht, hi⟩ => ⟨t, ht, .inl hi⟩
  cases hst : s.st <;> rw [hst] at hs
  case eInit => obtain ⟨h1, h2⟩ := hs; exact keeps (execEInit_encInv hz h1 h2)
  case eSearchInit => obtain ⟨hb, h1, h2, h3⟩ := hs; exact keeps (execESearchInit_encInv hz hb h1 h2 h3)
  case eProbe => obtain ⟨hb, h1, h2, h3⟩ := hs; exact keeps (execEProbe_encInv hz hb h1 h2 h3)
  case eCatchup => obtain ⟨hb, hm, h1, h2⟩ := hs; exact keeps (execECatchup_encInv hz hb hm h1 h2)
  case eLitlen => obtain ⟨hb, hm, h1, h2⟩ := hs; exact keeps (execELitlen_encInv hz hb hm h1 h2)
  case eLitcopy => obtain ⟨hb, hm, h1, h2, h3, h4⟩ := hs; exact keeps (execELitcopy_encInv hz hb hm h1 h2 h3 h4)
  case eOffset => obtain ⟨hb, hm, h1, h2⟩ := hs; exact keeps (execEOffset_encInv hz hb hm h1 h2)
  case eExtend => obtain ⟨hb, hm, h1, h2⟩ := hs; exact keeps (execEExtend_encInv hz hb hm h1 h2)
  case eMlen => obtain ⟨hb, hm, h1, h2⟩ := hs; exact keeps (execEMlen_encInv hz hb hm h1 h2)
  case eEndchk => obtain ⟨hb, h1, h2, h3⟩ := hs; exact keeps (execEEndchk_encInv hz hb h1 h2 h3)
  case eChain => obtain ⟨hb, h1, h2, h3⟩ := hs; exact keeps (execEChain_encInv hz hb h1 h2 h3)
  case eRehash => obtain ⟨hb, h1, h2, h3⟩ := hs; exact keeps (execERehash_encInv hz hb h1 h2 h3)
  case eLast =>
    obtain ⟨h1, h2, h3, h4⟩ := hs
    obtain ⟨t, ht, hdone⟩ := execELast_encDone hz h1 h2 h3 h4
    exact ⟨t, ht, .inr hdone⟩
  all_goals exact hs.elim

end Sys2Proof.Machine

/-! ### The commands -/

namespace Sys2Proof.Machine

section
variable {s : State}

theorem execMaxlen_of (hb : s.status.state ≠ .busy) (hl : s.srcLen.toNat ≤ maxSrcLen) (hs : s.srcLen.toNat ≤ s.srcSize) :
    execMaxlen s = .next (s.startCommand cmdMaxlen .mMaxlen) := by
  rw [execMaxlen, if_neg hb, if_neg (Nat.not_lt.mpr hl), if_neg (Nat.not_lt.mpr hs)]

theorem execCompress_of (hb : s.status.state ≠ .busy) (hl : s.srcLen.toNat ≤ maxSrcLen) (hs : s.srcLen.toNat ≤ s.srcSize)
    (hc : maxCompressed s.srcLen.toNat ≤ s.dstCap.toNat) (hd : s.dstCap.toNat ≤ s.dstSize) :
    execCompress s = .next (s.startCommand cmdCompress .eInit) := by
  rw [execCompress, if_neg hb, if_neg (Nat.not_lt.mpr hl), if_neg (Nat.not_lt.mpr hs), if_neg (Nat.not_lt.mpr hc),
    if_neg (Nat.not_lt.mpr hd)]

theorem execDecompressKnown_of (hb : s.status.state ≠ .busy) (hd : s.expLen.toNat ≤ s.dstSize)
    (hm : s.expLen.toNat ≤ maxMemSize) : execDecompressKnown s = .next (s.startCommand cmdKnown .dInit) := by
  rw [execDecompressKnown, if_neg hb, if_neg (Nat.not_lt.mpr hd), if_neg (Nat.not_lt.mpr hm)]

theorem execDecompressStream_of (hb : s.status.state ≠ .busy) (hs : s.srcLen.toNat ≤ s.srcSize)
    (hd : s.dstCap.toNat ≤ s.dstSize) (hm : s.dstCap.toNat ≤ maxMemSize) :
    execDecompressStream s = .next (s.startCommand cmdStream .dInit) := by
  rw [execDecompressStream, if_neg hb, if_neg (Nat.not_lt.mpr hs), if_neg (Nat.not_lt.mpr hd), if_neg (Nat.not_lt.mpr hm)]

/-- A test that refuses, before what is refused where the test passes. -/
theorem refused_of_ite {P : Prop} [Decidable P] {r : Refusal} {o : Out} (h : ¬P → ∃ r, o = .refused r) :
    ∃ q, (if P then .refused r else o) = Host.Outcome.refused q := by
  by_cases hp : P
  · exact ⟨r, if_pos hp⟩
  · rw [if_neg hp]
    exact h hp

theorem execMaxlen_refused (h : maxSrcLen < s.srcLen.toNat ∨ s.srcSize < s.srcLen.toNat) :
    ∃ r, execMaxlen s = .refused r :=
  refused_of_ite fun _ => refused_of_ite fun hl => refused_of_ite fun hs => (h.elim hl hs).elim

theorem execCompress_refused (h : maxSrcLen < s.srcLen.toNat ∨ s.srcSize < s.srcLen.toNat ∨
    s.dstCap.toNat < maxCompressed s.srcLen.toNat ∨ s.dstSize < s.dstCap.toNat) : ∃ r, execCompress s = .refused r :=
  refused_of_ite fun _ => refused_of_ite fun hl => refused_of_ite fun hs => refused_of_ite fun hc =>
    refused_of_ite fun hd => (h.elim hl fun h => h.elim hs fun h => h.elim hc hd).elim

theorem execDecompressKnown_refused (h : s.dstSize < s.expLen.toNat ∨ maxMemSize < s.expLen.toNat) :
    ∃ r, execDecompressKnown s = .refused r :=
  refused_of_ite fun _ => refused_of_ite fun hd => refused_of_ite fun hm => (h.elim hd hm).elim

theorem execDecompressStream_refused
    (h : s.srcSize < s.srcLen.toNat ∨ s.dstSize < s.dstCap.toNat ∨ maxMemSize < s.dstCap.toNat) :
    ∃ r, execDecompressStream s = .refused r :=
  refused_of_ite fun _ => refused_of_ite fun hs => refused_of_ite fun hd => refused_of_ite fun hm =>
    (h.elim hs fun h => h.elim hd hm).elim

end

/-- Settles O16: each command answers `startCommand`, whose fields are the ones stated. -/
theorem commandsStart : Obligations.CommandsStart := by
  unfold Obligations.CommandsStart
  intro s hb
  exact ⟨fun hl hs => execMaxlen_of hb hl hs, fun hl hs hc hd => execCompress_of hb hl hs hc hd,
    fun hd hm => execDecompressKnown_of hb hd (Nat.le_of_lt_succ hm),
    fun hs hm hd => execDecompressStream_of hb hs hd (Nat.le_of_lt_succ hm)⟩

/-- Settles O17: each row is a test on the way to the start of its command. -/
theorem brokenPreconditionRefused : Obligations.BrokenPreconditionRefused := by
  unfold Obligations.BrokenPreconditionRefused
  intro s
  refine ⟨fun h => ⟨execMaxlen_refused h, execCompress_refused ?_⟩, fun h => execCompress_refused (.inr (.inr (.inl h))),
    fun h => ⟨execCompress_refused (.inr (.inr (.inr h))), execDecompressStream_refused (.inr (.inl h))⟩,
    fun h => execDecompressKnown_refused h, fun h => execDecompressStream_refused ?_⟩
  · exact h.imp_right .inl
  · exact h.imp_right .inr

/-! ### The host beside a running command -/

/-- A move that is no read of STATUS and no wait waits itself, until the command has ended (log entry 12). -/
theorem State.hostBusy_of_waiting {s : State}
    (h : ∀ m rest, s.host = m :: rest → m ≠ .readCsr .status ∧ m ≠ .pollEnd ∧ m ≠ .wait) : s.hostBusy = s := by
  unfold State.hostBusy
  split
  · next hh => exact absurd rfl (h _ _ hh).1
  · next hh => exact absurd rfl (h _ _ hh).2.2
  · next hh => exact absurd rfl (h _ _ hh).2.1
  · rfl

/-- Settles O9: the step of `st` at the state that `hostBusy` gives for each next move of the host. -/
theorem busyHostOnlyPolls : Obligations.BusyHostOnlyPolls := by
  unfold Obligations.BusyHostOnlyPolls
  intro s hi hb
  have hstep := step_of_busy hi hb
  refine ⟨?_, fun rest hh => ?_, fun rest hh => ?_, fun rest hh => ?_, fun h => ?_, ?_⟩
  · have hcode : s.status.state.code.toNat = 1 := by rw [hb]; rfl
    rw [Status.word_toNat, hcode]
    omega
  · rw [hstep, State.hostBusy, hh]
    rfl
  · rw [hstep, State.hostBusy, hh]
    rfl
  · rw [hstep, State.hostBusy, hh]
  · rw [hstep, State.hostBusy_of_waiting h]
  · rintro i (rfl | rfl | rfl | rfl) <;> exact if_pos hb

/-! ### The match copies -/

/-- Settles O52: the byte-serial copy of 4 bytes, in the terms of `State.matchByte`. -/
theorem match4Step : Obligations.Match4Step := by
  unfold Obligations.Match4Step
  intro s
  refine ⟨fun h => ?_, fun h0 h1 h2 => ?_⟩
  · rw [exec, execDMatch4, State.mcopyExact_badRef _ _ h]
    rfl
  · have hsrc : s.ref.toInt.toNat + 4 ≤ s.dstSize := by omega
    exact ⟨_, orFault_of (State.mcopyExact_of h0 hsrc h2), rfl, State.dstAt_copyUp s _ _ _ 4 rfl⟩

/-- Settles O60: the byte-serial copy, and for the wild form a store of at most 7 bytes after it. -/
theorem matchCopy : Obligations.MatchCopy := by
  unfold Obligations.MatchCopy
  intro s ref op n
  refine ⟨fun form h => ?_, fun h0 h1 h2 => ?_, fun h0 h1 h2 => ?_⟩
  · cases form
    · rw [exec, execMcopy, State.matchCopy, State.mcopyExact_badRef _ _ h]
      rfl
    · rw [exec, execMcopy, State.matchCopy, State.mcopyWild, State.mcopyExact_badRef _ _ h]
      rfl
  · exact ⟨_, orFault_of (State.mcopyExact_of h0 (by omega) h2), rfl, State.dstAt_copyUp s _ _ _ _ rfl⟩
  · obtain ⟨z, hz, hw⟩ := State.mcopyWild_of h0 (by omega) h2
    refine ⟨_, orFault_of hw, rfl, fun c hc => ?_⟩
    refine (Memory.byte_store_outside .dst _ (by omega)).trans ?_
    exact State.dstAt_copyUp s { s with dst := Memory.copyUp .dst s.dst ref.toInt.toNat op.toNat n.toNat } _ _ _ rfl c

end Sys2Proof.Machine

/-! ### What an instruction stores to -/

namespace Sys2Proof.Machine

/-- Every byte of DST outside the (address, count) ranges `rs` is in `t` what it is in `s`. -/
def State.KeptBut (s t : State) (rs : List (Nat × Nat)) : Prop :=
  ∀ c, (∀ r ∈ rs, c < r.1 ∨ r.1 + r.2 ≤ c) → t.dstAt c = s.dstAt c

section
variable {s t u : State}

/-! #### Ranges -/

theorem State.KeptBut.of_dst {rs : List (Nat × Nat)} (h : t.dst = s.dst) : s.KeptBut t rs :=
  fun c _ => congrArg (Memory.byte .dst · c) h

/-- One range, from its first address to the one after its last. -/
theorem State.KeptBut.of_keptOutside {a n : Nat} (h : s.keptOutside t a (a + n)) : s.KeptBut t [(a, n)] := by
  intro c hc
  have hr := hc _ (List.mem_singleton.mpr rfl)
  exact h c (by omega)

theorem State.keptOutside_mono {lo hi lo' hi' : Nat} (h : s.keptOutside t lo hi) (hl : lo' ≤ lo) (hh : hi ≤ hi') :
    s.keptOutside t lo' hi' := fun c hc => h c (by omega)

theorem State.keptOutside_trans {lo hi : Nat} (h : s.keptOutside t lo hi) (k : t.keptOutside u lo hi) : s.keptOutside u lo hi :=
  fun c hc => (k c hc).trans (h c hc)

theorem State.KeptBut.trans {rs rs' : List (Nat × Nat)} (h : s.KeptBut t rs) (k : t.KeptBut u rs') :
    s.KeptBut u (rs ++ rs') := fun c hc =>
  (k c fun r hr => hc r (List.mem_append_right _ hr)).trans (h c fun r hr => hc r (List.mem_append_left _ hr))

/-! #### The shared operations -/

theorem State.keptOutside_store {a : Nat} {bs : List Byte} (h : t.dst = Memory.store s.dst a bs) :
    s.keptOutside t a (a + bs.length) := by
  intro c hc
  rw [State.dstAt, h]
  exact Memory.byte_store_outside .dst _ (by omega)

theorem State.keptOutside_copyUp {r d n : Nat} (h : t.dst = Memory.copyUp .dst s.dst r d n) : s.keptOutside t d (d + n) := by
  intro c hc
  rw [State.dstAt, h]
  exact Memory.byte_copyUp_outside .dst _ (by omega)

theorem State.memWrite_keptOutside {a n v : Nat} (h : s.memWrite a n v = .ok t) : s.keptOutside t a (a + n) := by
  obtain ⟨rfl, -⟩ := State.memWrite_ok h
  have hk := State.keptOutside_store (s := s) (t := { s with dst := Memory.store s.dst a (leBytes n v) }) rfl
  rwa [leBytes_length] at hk

theorem State.stride_keptOutside {k a d : Nat} {m : Space} (h : s.stride k m a d = .ok t) : s.keptOutside t d (d + k) := by
  obtain ⟨rfl, -⟩ := State.stride_ok h
  have hk := State.keptOutside_store (s := s) (t := { s with dst := Memory.store s.dst d (Memory.bytes m (s.mem m) a k) }) rfl
  rwa [Memory.bytes_length] at hk

theorem State.fcpWild_keptOutside {a d n : Nat} (h : s.fcpWild a d n = .ok t) : s.keptOutside t d (d + (n + zoneOf n)) := by
  obtain ⟨rfl, -⟩ := State.fcpWild_ok h
  intro c hc
  exact Memory.byte_store_outside .dst _ (by simp only [List.length_append, Memory.bytes_length, drawBytes_length]; omega)

/-- The zone of a wild match copy has at most 7 bytes (log entry 5). -/
theorem State.matchCopy_keptOutside {ref : Int} {d n : Nat} {f : CopyForm} (h : s.matchCopy ref d n f = .ok t) :
    s.keptOutside t d (d + (n + if f = .wild then 7 else 0)) := by
  cases f with
  | exact =>
    obtain ⟨rfl, -⟩ := State.mcopyExact_ok h
    exact State.keptOutside_copyUp rfl
  | wild =>
    obtain ⟨z, hz, rfl, -⟩ := State.mcopyWild_ok h
    intro c hc
    simp only [if_true] at hc
    exact (Memory.byte_store_outside .dst _ (by omega)).trans (Memory.byte_copyUp_outside .dst _ (by omega))

theorem State.packToken_keptOutside {l : Nat} (h : s.packToken l = .ok t) : s.keptOutside t s.op.toNat (s.op.toNat + 1) := by
  obtain ⟨-, rfl⟩ := State.packToken_ok h
  exact State.keptOutside_store (bs := [tokenByte l]) rfl

theorem State.packExt_keptOutside {r : Nat} (h : s.packExt r = .ok t) :
    s.keptOutside t s.op.toNat (s.op.toNat + (r / 255 + 1)) := by
  obtain ⟨-, rfl⟩ := State.packExt_ok h
  rw [← extBytes_length]
  exact State.keptOutside_store rfl

theorem State.packLen_keptOutside {l : Nat} (h : s.packLen l = .ok t) (hz : s.sizesOk) :
    s.keptOutside t s.op.toNat (s.op.toNat + (1 + extCount l)) := by
  obtain ⟨-, rfl⟩ := State.packLen_ok hz h
  rw [← headOf_length]
  exact State.keptOutside_store rfl

theorem State.endDec_keptOutside (s : State) : s.keptOutside s.endDec s.op.toNat s.oend.toNat := fun _ => s.endDec_dstAt

theorem State.raiseOverflow_keptOutside (s : State) : s.keptOutside s.raiseOverflow s.op.toNat s.oend.toNat :=
  fun _ => s.raiseOverflow_dstAt

/-- From `op` to a limit that may lie below it. -/
theorem State.KeptBut.of_tail (h : s.keptOutside t s.op.toNat s.oend.toNat) :
    s.KeptBut t [(s.op.toNat, s.oend.toNat - s.op.toNat)] :=
  .of_keptOutside (State.keptOutside_mono h (Nat.le_refl _) (by omega))

theorem State.tunExt_dst {r : State × Bool} (h : s.tunExt = .ok r) : r.1.dst = s.dst := by
  obtain ⟨-, rfl⟩ := State.tunExt_ok h
  rfl

theorem State.tunLoop_dst {n : Nat} (h : State.tunLoop n s = .ok t) : t.dst = s.dst := by
  induction n generalizing s with
  | zero => cases h
  | succ n ih =>
    simp only [State.tunLoop] at h
    split at h
    · cases h
    · next v more hv =>
      split at h
      · exact (ih h).trans (State.tunExt_dst hv)
      · cases h
        exact State.tunExt_dst hv

theorem State.tunLen_dst {c : BitVec 4} (h : s.tunLen c = .ok t) : t.dst = s.dst := by
  unfold State.tunLen at h
  dsimp only at h
  split at h
  · exact State.tunLoop_dst (s := { s with len := c.setWidth 40 }) h
  · cases h
    rfl

@[simp] theorem State.htPut_dst (s : State) (i : Bucket) (p : Pos) : (s.htPut i p).dst = s.dst := by rw [State.htPut_fields]
@[simp] theorem State.htGet_dst (s : State) (i : Bucket) : (s.htGet i).2.dst = s.dst := by rw [State.htGet_fields]

@[simp] theorem State.htSet_dst (s : State) (i : Bucket) (p : Pos) : (s.htSet i p).dst = s.dst := by
  unfold State.htSet
  split
  · exact s.htPut_dst i p
  · rfl

theorem State.htProbeAt_dst {p : Pos} (h : s.htProbeAt p = .ok t) : t.dst = s.dst := by
  obtain ⟨-, rfl⟩ := State.htProbeAt_ok h
  exact State.htPut_dst _ _ _

theorem State.insertAt_dst {p : Int} (h : s.insertAt p = .ok t) : t.dst = s.dst := by
  obtain ⟨-, -, rfl⟩ := State.insertAt_ok h
  exact State.htPut_dst _ _ _

/-! #### The instructions -/

theorem execToken_dst {ll ml : BitVec 4} (h : execToken ll ml s = .next t) : t.dst = s.dst := by
  unfold execToken at h
  split at h <;> cases h
  rfl

theorem execExtCont_dst (h : execExtCont s = .next t) : t.dst = s.dst := by
  unfold execExtCont at h
  split at h <;> cases h
  rfl

theorem execExtTerm_dst {v : Byte} (h : execExtTerm v s = .next t) : t.dst = s.dst := by
  unfold execExtTerm at h
  repeat' split at h
  all_goals cases h
  all_goals rfl

theorem execOffset_dst {o : BitVec 16} (h : execOffset o s = .next t) : t.dst = s.dst := by
  unfold execOffset at h
  split at h <;> cases h
  rfl

theorem execLiteral_keptBut {b : Byte} (h : execLiteral b s = .next t) : s.KeptBut t [(s.op.toNat, 1)] := by
  unfold execLiteral at h
  split at h
  · obtain ⟨u, hu, h⟩ := orFault_next h
    obtain ⟨rfl, -⟩ := State.writeDst_ok hu
    cases h
    exact .of_keptOutside (State.keptOutside_store (bs := [b]) rfl)
  · cases h

theorem execDone_keptBut (h : execDone s = .next t) : s.KeptBut t (storedAt .done s) := by
  unfold execDone at h
  rw [storedAt]
  split at h
  · cases h
    exact .of_dst rfl
  · next h2 =>
    split at h <;> cases h
    · exact .of_dst rfl
    · next h1 =>
      rw [if_neg (not_or.mpr ⟨h2, h1⟩)]
      exact .of_tail s.endDec_keptOutside

theorem execELitlen_keptBut (hz : s.sizesOk) (h : execELitlen s = .next t) : s.KeptBut t (storedAt .eLitlen s) := by
  obtain ⟨u, hu, h⟩ := orFault_next h
  cases h
  have hk := State.packLen_keptOutside hu hz
  exact .of_keptOutside hk

theorem execELitcopy_keptBut (h : execELitcopy s = .next t) : s.KeptBut t (storedAt .eLitcopy s) := by
  obtain ⟨u, hu, rfl⟩ := execELitcopy_next h
  have hk := State.stride_keptOutside hu
  exact .of_keptOutside hk

theorem execEOffset_keptBut (h : execEOffset s = .next t) : s.KeptBut t (storedAt .eOffset s) := by
  obtain ⟨v, u, hu, rfl⟩ := execEOffset_next h
  have hk := State.memWrite_keptOutside hu
  exact .of_keptOutside hk

theorem execEMlen_keptBut (h : execEMlen s = .next t) : s.KeptBut t (storedAt .eMlen s) := by
  obtain ⟨b, -, h⟩ := orFault_next h
  obtain ⟨u, hu, h⟩ := orFault_next h
  obtain ⟨w, hw, h⟩ := orFault_next h
  cases h
  have hop : u.op = s.op := by rw [(State.memWrite_ok hu).1]
  have hk := State.memWrite_keptOutside hu
  refine State.KeptBut.trans (rs := [(s.tokpos.toNat, 1)]) (.of_keptOutside hk) ?_
  dsimp only [mlMask] at hw
  split at hw
  · next hl =>
    have hx := State.packExt_keptOutside hw
    rw [hop] at hx
    rw [extCount, if_neg (Nat.not_lt.mpr hl)]
    exact .of_keptOutside hx
  · cases hw
    exact .of_dst rfl

theorem execEChain_keptBut (h : execEChain s = .next t) : s.KeptBut t (storedAt .eChain s) := by
  obtain ⟨b, -, rfl | ⟨u, hu, rfl⟩⟩ := execEChain_next h
  · exact .of_dst (s.htGet_dst b)
  · rw [State.htGet_fields] at hu
    have hk := State.packToken_keptOutside hu
    exact .of_keptOutside hk

theorem execELast_keptBut (hz : s.sizesOk) (h : execELast s = .next t) : s.KeptBut t (storedAt .eLast s) := by
  obtain ⟨u, hu, h⟩ := orFault_next h
  obtain ⟨v, hv, h⟩ := orFault_next h
  cases h
  have hp := State.packLen_keptOutside hu hz
  have hf := State.stride_keptOutside hv
  obtain ⟨hb, rfl⟩ := State.packLen_ok (s := { s with len := BitVec.ofInt 40 (pos s.iend - pos s.anchor) }) hz hu
  have hdst : s.dstSize ≤ 2147483647 := hz.dst_le
  dsimp only at hb hf hp
  rw [advance_toNat (by omega), headOf_length] at hf
  rw [headOf_length] at hb
  refine .of_keptOutside (State.keptOutside_trans (State.keptOutside_mono hp ?_ ?_) (State.keptOutside_mono hf ?_ ?_)) <;> omega

theorem execDToken_keptBut (h : execDToken s = .next t) : s.KeptBut t (storedAt .dToken s) := by
  unfold execDToken at h
  rw [storedAt]
  split at h
  · next hc =>
    cases h
    rw [if_pos hc]
    exact .of_tail s.endDec_keptOutside
  · obtain ⟨b, -, h⟩ := orFault_next h
    cases h
    exact .of_dst rfl

/-- DONE at the output limit leaves nothing unspecified (R193). -/
theorem State.endDec_dst_of_le (h : s.oend.toNat ≤ s.op.toNat) : s.endDec.dst = s.dst := by
  have hl : s.loseTail.dst = s.dst := by rw [State.loseTail_of_le h]
  exact hl

theorem execDEofchk_keptBut (h : execDEofchk s = .next t) : s.KeptBut t (storedAt .dEofchk s) := by
  unfold execDEofchk at h
  rw [storedAt]
  split at h
  · next hk =>
    cases h
    exact .of_dst (State.endDec_dst_of_le (by rw [hk.2]))
  · split at h <;> cases h
    · next hc =>
      rw [if_pos hc]
      exact .of_tail s.endDec_keptOutside
    · exact .of_dst rfl

theorem ofNat_toNat_of_le {c : Nat} {p : Pos} (h : c ≤ p.toNat) : (BitVec.ofNat 32 c).toNat = c := by
  have hp := p.isLt
  rw [BitVec.toNat_ofNat]
  omega

theorem execDLitcopy_keptBut (h : execDLitcopy s = .next t) : s.KeptBut t (storedAt .dLitcopy s) := by
  rw [storedAt]
  obtain ⟨ho, rfl⟩ | ⟨hc, ho, u, hu, rfl⟩ | ⟨hc, u, hu, rfl⟩ := execDLitcopy_next rfl h
  · rw [if_pos ((nearEnd_iff _ _).mpr (by omega))]
    have hk := State.raiseOverflow_keptOutside { s with cpy := BitVec.ofNat 40 (s.op.toNat + s.len.toNat) }
    exact .of_tail hk
  · rw [if_pos ((nearEnd_iff _ _).mpr ho)]
    have hf := State.stride_keptOutside hu
    obtain ⟨rfl, -⟩ := State.fcpExact_ok hu
    refine .of_tail (State.keptOutside_trans (State.keptOutside_mono hf (Nat.le_refl _) hc) ?_)
    refine State.keptOutside_mono (State.endDec_keptOutside _) ?_ (Nat.le_refl _)
    dsimp only
    rw [ofNat_toNat_of_le hc]
    omega
  · rw [if_neg (by rw [nearEnd_iff]; omega)]
    have hk := State.fcpWild_keptOutside hu
    exact .of_keptOutside hk

theorem execDMatchcopy_keptBut (h : execDMatchcopy s = .next t) : s.KeptBut t (storedAt .dMatchcopy s) := by
  rw [storedAt]
  obtain ⟨ho, rfl⟩ | ⟨hc, f, u, hu, hf, ht⟩ := execDMatchcopy_next rfl h
  · rw [if_pos ho]
    have hk := State.raiseOverflow_keptOutside { s with cpy := BitVec.ofNat 40 (s.op.toNat + s.len.toNat) }
    exact .of_tail hk
  · have hk := State.matchCopy_keptOutside hu
    have hoend : u.oend = s.oend := by rw [State.matchCopy_fields hu]
    have hdst : t.dst = u.dst := by
      rw [ht]
      split
      · next he =>
        refine State.endDec_dst_of_le ?_
        dsimp only
        rw [ofNat_toNat_of_le hc, hoend, he]
      · rfl
    have hkt : s.keptOutside t s.op.toNat (s.op.toNat + (s.len.toNat + if f = .wild then 7 else 0)) :=
      fun c hc => (congrArg (Memory.byte .dst · c) hdst).trans (hk c hc)
    rw [if_neg (Nat.not_lt.mpr hc)]
    cases f with
    | exact =>
      split
      · exact .of_keptOutside hkt
      · exact .of_keptOutside (State.keptOutside_mono hkt (Nat.le_refl _) (by simp))
    | wild =>
      have hf := hf rfl
      rw [if_neg (by rw [nearEnd_iff]; omega)]
      exact .of_keptOutside hkt

/-- The frame of DST, for every instruction (R53, R226, R227, R229). -/
theorem exec_keptBut {i : Instr} (hz : s.sizesOk) (h : exec i s = .next t) : s.KeptBut t (storedAt i s) := by
  cases i with
  | token => exact .of_dst (execToken_dst h)
  | extCont => exact .of_dst (execExtCont_dst h)
  | extTerm => exact .of_dst (execExtTerm_dst h)
  | literal => exact execLiteral_keptBut h
  | offset => exact .of_dst (execOffset_dst h)
  | maxlen => cases execMaxlen_next h; exact .of_dst rfl
  | compress => cases execCompress_next h; exact .of_dst rfl
  | decompressKnown => obtain ⟨-, rfl⟩ := execDecompressKnown_next h; exact .of_dst rfl
  | decompressStream => obtain ⟨-, rfl⟩ := execDecompressStream_next h; exact .of_dst rfl
  | idle => cases h; exact .of_dst rfl
  | mMaxlen => obtain ⟨-, rfl⟩ := execMMaxlen_next h; exact .of_dst rfl
  | done => exact execDone_keptBut h
  | error => cases h; exact .of_tail s.raiseOverflow_keptOutside
  | tunSplit => cases h; exact .of_dst rfl
  | tunExt => obtain ⟨r, hr, h⟩ := orFault_next h; cases h; exact .of_dst (State.tunExt_dst hr)
  | tunLen => exact .of_dst (State.tunLen_dst (orFault_next_iff.mp h))
  | packToken => exact .of_keptOutside (State.packToken_keptOutside (orFault_next_iff.mp h))
  | packExt => exact .of_keptOutside (State.packExt_keptOutside (orFault_next_iff.mp h))
  | hashW => cases h; exact .of_dst rfl
  | hashN => cases h; exact .of_dst rfl
  | htSelect => cases h; exact .of_dst rfl
  | htClear => cases h; exact .of_dst s.htReset_dst
  | htLookup i => cases h; exact .of_dst (s.htGet_dst i)
  | htInsert i p => cases h; exact .of_dst (s.htSet_dst i p)
  | htProbe => exact .of_dst (State.htProbeAt_dst (orFault_next_iff.mp h))
  | htAccept => obtain ⟨b, -, h⟩ := orFault_next h; cases h; exact .of_dst rfl
  | eInit => obtain ⟨m, l, x, -, rfl⟩ := execEInit_next h; exact .of_dst (State.htReset_dst s.encStarted)
  | eSearchInit => cases h; exact .of_dst rfl
  | eProbe =>
    obtain ⟨-, rfl⟩ | ⟨u, ok, hu, -, rfl⟩ := execEProbe_next h
    · exact .of_dst rfl
    · have hd := State.htProbeAt_dst hu
      exact .of_dst hd
  | eCatchup => obtain ⟨i, r, rfl⟩ := execECatchup_next h; exact .of_dst rfl
  | eLitlen => exact execELitlen_keptBut hz h
  | eLitcopy => exact execELitcopy_keptBut h
  | eOffset => exact execEOffset_keptBut h
  | eExtend => obtain ⟨i, r, m, rfl⟩ := execEExtend_next h; exact .of_dst rfl
  | eMlen => exact execEMlen_keptBut h
  | eEndchk => obtain ⟨a, x, -, rfl⟩ := execEEndchk_next h; exact .of_dst rfl
  | eChain => exact execEChain_keptBut h
  | eRehash =>
    obtain ⟨u, v, hu, hv, rfl⟩ := execERehash_next h
    exact .of_dst ((State.insertAt_dst hv).trans (State.insertAt_dst hu))
  | eLast => exact execELast_keptBut hz h
  | dInit => obtain ⟨-, rfl⟩ | ⟨-, rfl⟩ := execDInit_next h <;> exact .of_dst rfl
  | dToken => exact execDToken_keptBut h
  | dLitext => obtain ⟨-, x, -, rfl⟩ := takeExt_next h; exact .of_dst rfl
  | dLitcopy => exact execDLitcopy_keptBut h
  | dEofchk => exact execDEofchk_keptBut h
  | dOffset => obtain ⟨-, o, rfl⟩ := execDOffset_next h; exact .of_dst rfl
  | dMlext => obtain ⟨-, x, -, rfl⟩ := takeExt_next h; exact .of_dst rfl
  | dMatch4 =>
    obtain ⟨r, u, hu, rfl⟩ := execDMatch4_next h
    have hk := State.matchCopy_keptOutside (f := .exact) hu
    exact .of_keptOutside hk
  | dMatchcopy => exact execDMatchcopy_keptBut h
  | cp16 => exact .of_keptOutside (State.stride_keptOutside (orFault_next_iff.mp h))
  | cp8 => exact .of_keptOutside (State.stride_keptOutside (orFault_next_iff.mp h))
  | cp4 => exact .of_keptOutside (State.stride_keptOutside (orFault_next_iff.mp h))
  | cp2 => exact .of_keptOutside (State.stride_keptOutside (orFault_next_iff.mp h))
  | cp1 => exact .of_keptOutside (State.stride_keptOutside (orFault_next_iff.mp h))
  | fcpExact => exact .of_keptOutside (State.stride_keptOutside (orFault_next_iff.mp h))
  | fcpWild => exact .of_keptOutside (State.fcpWild_keptOutside (orFault_next_iff.mp h))
  | mcopy ref op n form => cases form <;> exact .of_keptOutside (State.matchCopy_keptOutside (orFault_next_iff.mp h))

end

/-- Settles O11: the frame of each instruction, by what the shared operations leave alone. -/
theorem storesStayInTheirRange : Obligations.StoresStayInTheirRange := by
  unfold Obligations.StoresStayInTheirRange
  exact fun i s t hz h => exec_keptBut hz h

/-! ### A decompress command stays below its limit -/

section
variable {s t : State}

/-- The output limit of the running decompress command: the one D.INIT is about to take, or the one it has taken (R181). -/
def State.decLimit (s : State) : Nat :=
  if s.st = .dInit then (if s.cmd = cmdKnown then s.expLen.toNat else s.dstCap.toNat) else s.oend.toNat

theorem State.decLimit_of_dInit (h : s.st = .dInit) :
    s.decLimit = if s.cmd = cmdKnown then s.expLen.toNat else s.dstCap.toNat := if_pos h

theorem State.decLimit_of_ne (h : s.st ≠ .dInit) : s.decLimit = s.oend.toNat := if_neg h

/-- Every step after D.INIT leaves the limit as D.INIT set it, and D.INIT is not entered again. -/
theorem exec_keeps_oend (hd : s.st.isDec = true) (hi : s.st ≠ .dInit) (h : exec s.st.instr s = .next t) :
    t.oend = s.oend ∧ t.st ≠ .dInit := by
  cases hst : s.st <;> rw [hst] at h hd hi
  case dInit => exact absurd rfl hi
  case dToken =>
    obtain rfl | ⟨-, rfl⟩ := execDToken_next h
    · exact ⟨s.endDec_oend, nofun⟩
    · refine ⟨rfl, ?_⟩
      rw [State.takeToken_st]
      split <;> nofun
  case dLitext =>
    obtain ⟨-, x, rfl | rfl, rfl⟩ := takeExt_next h <;> exact ⟨rfl, nofun⟩
  case dMlext =>
    obtain ⟨-, x, rfl | rfl, rfl⟩ := takeExt_next h <;> exact ⟨rfl, nofun⟩
  case dLitcopy =>
    obtain ⟨-, rfl⟩ | ⟨-, -, u, hu, rfl⟩ | ⟨-, u, hu, rfl⟩ := execDLitcopy_next rfl h
    · exact ⟨State.raiseOverflow_oend _, nofun⟩
    · obtain ⟨rfl, -⟩ := State.fcpExact_ok hu
      exact ⟨State.endDec_oend _, nofun⟩
    · obtain ⟨rfl, -⟩ := State.fcpWild_ok hu
      exact ⟨rfl, nofun⟩
  case dEofchk =>
    obtain rfl | rfl := execDEofchk_next h
    · exact ⟨s.endDec_oend, nofun⟩
    · exact ⟨rfl, nofun⟩
  case dOffset =>
    obtain ⟨-, o, rfl⟩ := execDOffset_next h
    refine ⟨rfl, ?_⟩
    rw [State.takeOffset_st]
    split <;> nofun
  case dMatch4 =>
    obtain ⟨r, u, hu, rfl⟩ := execDMatch4_next h
    obtain ⟨rfl, -⟩ := State.mcopyExact_ok hu
    exact ⟨rfl, nofun⟩
  case dMatchcopy =>
    obtain ⟨-, rfl⟩ | ⟨-, f, u, hu, -, rfl⟩ := execDMatchcopy_next rfl h
    · exact ⟨State.raiseOverflow_oend _, nofun⟩
    · rw [State.matchCopy_fields hu]
      split
      · exact ⟨State.endDec_oend _, nofun⟩
      · exact ⟨rfl, nofun⟩
  all_goals cases hd

theorem exec_keeps_decLimit (hd : s.st.isDec = true) (h : exec s.st.instr s = .next t) : t.decLimit = s.decLimit := by
  by_cases hi : s.st = .dInit
  · rw [State.decLimit_of_dInit hi]
    rw [hi] at h
    obtain ⟨hc, rfl⟩ | ⟨hc, rfl⟩ := execDInit_next h
    · rw [if_pos hc]
      exact State.decLimit_of_ne nofun
    · rw [if_neg hc]
      exact State.decLimit_of_ne nofun
  · obtain ⟨ho, hn⟩ := exec_keeps_oend hd hi h
    rw [State.decLimit_of_ne hi, State.decLimit_of_ne hn, ho]

/-- From cursors that meet the invariant a step of DEC stores to no address at or above the limit (R184, R188, R189). -/
theorem storedAt_below_decLimit (hd : s.st.isDec = true) (hp : s.phaseOk) {c : Nat} (hc : s.decLimit ≤ c) :
    ∀ r ∈ storedAt s.st.instr s, c < r.1 ∨ r.1 + r.2 ≤ c := by
  have hz := zoneOf_lt s.len.toNat
  by_cases hi : s.st = .dInit
  · rw [hi]
    exact nofun
  rw [State.decLimit_of_ne hi] at hc
  have tail : ∀ r ∈ [(s.op.toNat, s.oend.toNat - s.op.toNat)], c < r.1 ∨ r.1 + r.2 ≤ c :=
    List.forall_mem_singleton.mpr (by dsimp only; omega)
  cases hst : s.st <;> rw [hst] at hd <;> dsimp only [St.instr, storedAt]
  case dInit => exact absurd hst hi
  case dLitext | dOffset | dMlext => exact nofun
  case dToken | dEofchk =>
    split
    · exact tail
    · exact nofun
  case dLitcopy =>
    split
    · exact tail
    · next hn =>
      rw [nearEnd_iff] at hn
      exact List.forall_mem_singleton.mpr (by dsimp only; omega)
  case dMatch4 =>
    obtain ⟨-, -, h8⟩ := (State.phaseOk_match (.inr (.inr (.inr hst)))).mp hp
    exact List.forall_mem_singleton.mpr (by dsimp only; omega)
  case dMatchcopy =>
    split
    · exact tail
    · split
      · exact List.forall_mem_singleton.mpr (by dsimp only; omega)
      · next hn =>
        rw [nearEnd_iff] at hn
        exact List.forall_mem_singleton.mpr (by dsimp only; omega)
  all_goals cases hd

theorem St.busy_of_isDec {x : St} (h : x.isDec = true) : x.engState = .busy := by
  revert h
  cases x <;> simp [St.isDec, St.engState]

/-- Wherever a step of a running command leads, the cursors are as the state it enters asks. -/
theorem State.Advances.phaseOk (h : s.Advances t) : t.phaseOk := by
  cases h with
  | goesOn _ _ _ phase => exact phase
  | ends st => exact State.phaseOk_of_not_busy (by rw [st]; nofun)
  | fails st => exact State.phaseOk_of_not_busy (by rw [st]; nofun)

/-- R193: any number of steps of DEC, from cursors that meet the invariant, leave the bytes at or above the limit alone. -/
theorem runDec_keeps_above {n : Nat} (hz : s.sizesOk) (hp : s.phaseOk) (h : runDec n s = .next t) {a : Nat}
    (ha : s.decLimit ≤ a) : t.dstAt a = s.dstAt a := by
  induction n generalizing s with
  | zero => cases h; rfl
  | succ n ih =>
    unfold runDec at h
    split at h
    · next hd =>
      split at h
      · next u hu =>
        have hstep : u.dstAt a = s.dstAt a := exec_keptBut hz hu a (storedAt_below_decLimit hd hp ha)
        have hlim := exec_keeps_decLimit hd hu
        rw [← hstep]
        exact ih ((exec_keeps hu).sizesOk hz) (exec_advances hz hp (St.busy_of_isDec hd) hu).phaseOk h (hlim ▸ ha)
      · cases h
      · cases h
    · cases h
      rfl

end

/-- Settles O54: an induction over the steps, each of which keeps the limit and the cursors below it. -/
theorem decompressStaysBelowItsLimit : Obligations.DecompressStaysBelowItsLimit := by
  unfold Obligations.DecompressStaysBelowItsLimit
  intro n s t hz hst hp h a ha
  exact runDec_keeps_above hz hp h ((State.decLimit_of_dInit hst).le.trans ha)

end Sys2Proof.Machine

/-! ### Encoding -/

namespace Sys2Proof.Machine

/-! #### The parts of a token byte and of an offset -/

@[simp] theorem highNibble_append (x y : BitVec 4) : highNibble (x ++ y) = x := BitVec.extractLsb'_append_eq_left

@[simp] theorem lowNibble_append (x y : BitVec 4) : lowNibble (x ++ y) = y := BitVec.extractLsb'_append_eq_right

/-- R72: a token byte is its two nibbles. -/
@[simp] theorem highNibble_append_lowNibble (b : Byte) : highNibble b ++ lowNibble b = b :=
  (BitVec.extractLsb'_append_extractLsb'_eq_extractLsb' rfl).trans BitVec.extractLsb'_eq_self

/-- R77: the two bytes of an offset, the low one first. -/
theorem leBytes_append (h l : Byte) : leBytes 2 (h ++ l).toNat = [l, h] := by
  have hh := h.isLt
  have hl := l.isLt
  simp only [leBytes, toNat_append_eq_add, List.cons.injEq, and_true]
  constructor <;> refine BitVec.eq_of_toNat_eq ?_ <;> rw [BitVec.toNat_ofNat] <;> omega

theorem ofNat_leValue_pair (l h : Byte) : BitVec.ofNat 16 (leValue [l, h]) = h ++ l := by
  have hh := h.isLt
  have hl := l.isLt
  refine BitVec.eq_of_toNat_eq ?_
  simp only [leValue, toNat_append_eq_add, BitVec.toNat_ofNat]
  omega

/-- An offset is read from its two bytes (R77). -/
theorem decode_offset (o : BitVec 16) (rest : List Byte) : decode .offset (leBytes 2 o.toNat ++ rest) = .ok (.offset o, rest) := by
  have ho : o.extractLsb' 8 8 ++ o.extractLsb' 0 8 = o :=
    (BitVec.extractLsb'_append_extractLsb'_eq_extractLsb' rfl).trans BitVec.extractLsb'_eq_self
  rw [← ho, leBytes_append]
  rfl

theorem leBytes_one (b : Byte) : leBytes 1 b.toNat = [b] := by simp [leBytes]

/-! #### The operand byte of a memory and of a form -/

theorem spaceOf_surjective (m : Space) : ∃ b, spaceOf b = m := by
  cases m
  · exact ⟨0#1, rfl⟩
  · exact ⟨1#1, rfl⟩

theorem formOf_surjective (f : CopyForm) : ∃ b, formOf b = f := by
  cases f
  · exact ⟨0#1, rfl⟩
  · exact ⟨1#1, rfl⟩

theorem spaceOf_toNat (b : BitVec 1) : (if spaceOf b = .src then 0 else 1) = b.toNat := by
  obtain rfl | rfl := BitVec.eq_zero_or_eq_one b <;> rfl

theorem formOf_toNat (b : BitVec 1) : (if formOf b = .exact then 0 else 1) = b.toNat := by
  obtain rfl | rfl := BitVec.eq_zero_or_eq_one b <;> rfl

/-! #### The operands of a unit operation -/

/-- A read that goes on after the bytes of an operand. -/
theorem takeOperand_leBytes_bind {α : Type} {w n : Nat} (h : 2 ^ w ≤ 256 ^ n) (x : BitVec w) (rest : List Byte)
    (f : BitVec w × List Byte → Except DecodeError α) : (takeOperand w n (leBytes n x.toNat ++ rest) >>= f) = f (x, rest) := by
  rw [takeOperand_leBytes n x rest h]
  rfl

section
variable {rest : List Byte}

theorem takeOne_leBytes {w n : Nat} {k : BitVec w → Instr} (h : 2 ^ w ≤ 256 ^ n) {x : BitVec w} (hw : (k x).wf = true) :
    takeOne w n k (leBytes n x.toNat ++ rest) = .ok (k x, rest) := by
  rw [takeOne, takeOperand_leBytes_bind h]
  exact checked_of hw rest

theorem takeStride_strideBytes {k : Space → Pos → Pos → Instr} {m : Space} {a d : Pos} (hw : (k m a d).wf = true) :
    takeStride k (strideBytes m a d ++ rest) = .ok (k m a d, rest) := by
  obtain ⟨b, rfl⟩ := spaceOf_surjective m
  simp only [takeStride, strideBytes, spaceOf_toNat, List.append_assoc]
  rw [takeOperand_leBytes_bind (by decide), takeOperand_leBytes_bind (by decide), takeOperand_leBytes_bind (by decide)]
  exact checked_of hw rest

theorem takeRun_runBytes {k : Pos → Pos → Len → Instr} {a d : Pos} {n : Len} (hw : (k a d n).wf = true) :
    takeRun k (runBytes a d n ++ rest) = .ok (k a d n, rest) := by
  simp only [takeRun, runBytes, List.append_assoc]
  rw [takeOperand_leBytes_bind (by decide), takeOperand_leBytes_bind (by decide), takeOperand_leBytes_bind (by decide)]
  exact checked_of hw rest

end

/-! #### The labels of states, and the codes in CMD -/

theorem instr_of_stOf {i : Instr} {x : St} (h : stOf i = some x) : i = x.instr := by
  cases i <;> cases h <;> rfl

/-- R25, R87: a label of a state is that state's code. -/
theorem stOf_of_decodeStateOpid {n : Nat} {i : Instr} (h : decodeStateOpid n = some i) :
    ∃ x, stOf i = some x ∧ x.code.toNat = n := by
  unfold decodeStateOpid at h
  split at h <;> cases h <;> exact ⟨_, rfl, rfl⟩

/-- The step of a state is written as the code of that state, and read from it. -/
theorem encode_of_stOf {i : Instr} {x : St} (h : stOf i = some x) :
    i.wf = true ∧ i.ctx = .opid ∧ encode i = [x.code] ∧ decodeStateOpid x.code.toNat = some i := by
  obtain rfl := instr_of_stOf h
  cases x <;> exact ⟨rfl, rfl, rfl, rfl⟩

theorem decode_encode_of_stOf {i : Instr} {x : St} (h : stOf i = some x) (rest : List Byte) :
    decode i.ctx (encode i ++ rest) = .ok (i, rest) := by
  obtain ⟨-, hc, he, hd⟩ := encode_of_stOf h
  rw [hc, he, List.singleton_append, decode, decodeOpid, hd]

theorem encode_of_decodeCmd {w : Word} {i : Instr} (h : decodeCmd w = .ok i) :
    i.wf = true ∧ i.ctx = .cmd ∧ encode i = leBytes 4 w.toNat := by
  unfold decodeCmd at h
  split at h <;> cases h
  all_goals next hw => exact ⟨rfl, rfl, by rw [hw]; rfl⟩

theorem decode_encode_of_decodeCmd {w : Word} {i : Instr} (h : decodeCmd w = .ok i) (rest : List Byte) :
    decode i.ctx (encode i ++ rest) = .ok (i, rest) := by
  obtain ⟨-, hc, he⟩ := encode_of_decodeCmd h
  rw [hc, he, decode, takeOperand_leBytes_bind (by decide)]
  simp only [h]
  rfl

/-! #### Both directions -/

/-- Settles O1: the operands of each instruction are read back one after the other. -/
theorem decodeEncodeRoundTrip : Obligations.DecodeEncodeRoundTrip := by
  unfold Obligations.DecodeEncodeRoundTrip
  intro i rest hw
  cases i with
  | token ll ml => simp [Instr.ctx, encode, decode]
  | extCont => rfl
  | extTerm v => simpa [Instr.ctx, encode, decode, Instr.wf] using hw
  | literal b => rfl
  | offset o => exact decode_offset o rest
  | maxlen => exact decode_encode_of_decodeCmd (w := 1#32) rfl rest
  | compress => exact decode_encode_of_decodeCmd (w := 2#32) rfl rest
  | decompressKnown => exact decode_encode_of_decodeCmd (w := 3#32) rfl rest
  | decompressStream => exact decode_encode_of_decodeCmd (w := 4#32) rfl rest
  | tunSplit t =>
    rw [encode, ← leBytes_one]
    exact takeOne_leBytes (by decide) hw
  | tunExt => rfl
  | tunLen | packToken | packExt | hashW | hashN | htSelect | htLookup | htProbe => exact takeOne_leBytes (by decide) hw
  | htClear => rfl
  | htInsert k p =>
    rw [encode, List.cons_append, List.append_assoc]
    refine (takeOperand_leBytes_bind (by decide) k _ _).trans ?_
    refine (takeOperand_leBytes_bind (by decide) p _ _).trans ?_
    exact checked_of hw rest
  | htAccept r p =>
    rw [encode, List.cons_append, List.append_assoc]
    refine (takeOperand_leBytes_bind (by decide) r _ _).trans ?_
    refine (takeOperand_leBytes_bind (by decide) p _ _).trans ?_
    exact checked_of hw rest
  | cp16 | cp8 | cp4 | cp2 | cp1 => exact takeStride_strideBytes hw
  | fcpExact | fcpWild => exact takeRun_runBytes hw
  | mcopy r o n f =>
    obtain ⟨b, rfl⟩ := formOf_surjective f
    rw [encode, formOf_toNat, List.cons_append, List.append_assoc, List.append_assoc, List.append_assoc]
    refine (takeOperand_leBytes_bind (by decide) r _ _).trans ?_
    refine (takeOperand_leBytes_bind (by decide) o _ _).trans ?_
    refine (takeOperand_leBytes_bind (by decide) n _ _).trans ?_
    refine (takeOperand_leBytes_bind (by decide) b _ _).trans ?_
    exact checked_of hw rest
  | _ => exact decode_encode_of_stOf rfl rest

/-- An operation's label and the bytes of its operands are the operation's encoding, once the label's value is known (R87). -/
theorem label_cons {b : Byte} {l : Nat} {bs rest : List Byte} {i : Instr} (hb : b.toNat = l)
    (he : BitVec.ofNat 8 l :: bs = encode i ++ rest) : b :: bs = encode i ++ rest := by
  rw [← he, ← hb, BitVec.ofNat_toNat, BitVec.setWidth_eq]

section
variable {b : Byte} {l : Nat} {bs rest : List Byte} {i : Instr}

theorem takeOne_reads_encoding {w n : Nat} {k : BitVec w → Instr} (hb : b.toNat = l)
    (hk : ∀ x, (k x).ctx = .opid ∧ encode (k x) = BitVec.ofNat 8 l :: leBytes n x.toNat)
    (h : takeOne w n k bs = .ok (i, rest)) : i.wf = true ∧ i.ctx = .opid ∧ b :: bs = encode i ++ rest := by
  obtain ⟨⟨x, bs₁⟩, hx, h⟩ := decode_bind_ok h
  obtain ⟨hw, rfl, rfl⟩ := checked_eq_ok h
  obtain ⟨hc, he⟩ := hk x
  exact ⟨hw, hc, label_cons hb (by rw [he, takeOperand_eq_ok hx, List.cons_append])⟩

theorem takeStride_reads_encoding {k : Space → Pos → Pos → Instr} (hb : b.toNat = l)
    (hk : ∀ m a d, (k m a d).ctx = .opid ∧ encode (k m a d) = BitVec.ofNat 8 l :: strideBytes m a d)
    (h : takeStride k bs = .ok (i, rest)) : i.wf = true ∧ i.ctx = .opid ∧ b :: bs = encode i ++ rest := by
  obtain ⟨⟨m, bs₁⟩, hm, h⟩ := decode_bind_ok h
  obtain ⟨⟨a, bs₂⟩, ha, h⟩ := decode_bind_ok h
  obtain ⟨⟨d, bs₃⟩, hd, h⟩ := decode_bind_ok h
  obtain ⟨hw, rfl, rfl⟩ := checked_eq_ok h
  obtain ⟨hc, he⟩ := hk (spaceOf m) a d
  refine ⟨hw, hc, label_cons hb ?_⟩
  rw [he, strideBytes, spaceOf_toNat, takeOperand_eq_ok hm, takeOperand_eq_ok ha, takeOperand_eq_ok hd, List.cons_append,
    List.append_assoc, List.append_assoc]

theorem takeRun_reads_encoding {k : Pos → Pos → Len → Instr} (hb : b.toNat = l)
    (hk : ∀ a d n, (k a d n).ctx = .opid ∧ encode (k a d n) = BitVec.ofNat 8 l :: runBytes a d n)
    (h : takeRun k bs = .ok (i, rest)) : i.wf = true ∧ i.ctx = .opid ∧ b :: bs = encode i ++ rest := by
  obtain ⟨⟨a, bs₁⟩, ha, h⟩ := decode_bind_ok h
  obtain ⟨⟨d, bs₂⟩, hd, h⟩ := decode_bind_ok h
  obtain ⟨⟨n, bs₃⟩, hn, h⟩ := decode_bind_ok h
  obtain ⟨hw, rfl, rfl⟩ := checked_eq_ok h
  obtain ⟨hc, he⟩ := hk a d n
  refine ⟨hw, hc, label_cons hb ?_⟩
  rw [he, runBytes, takeOperand_eq_ok ha, takeOperand_eq_ok hd, takeOperand_eq_ok hn, List.cons_append, List.append_assoc,
    List.append_assoc]

/-- R87: the labels of the units; the cases are numbered in the decoder's order. -/
theorem decodeUnitOpid_eq_ok (h : decodeUnitOpid b bs = .ok (i, rest)) :
    i.wf = true ∧ i.ctx = .opid ∧ b :: bs = encode i ++ rest := by
  unfold decodeUnitOpid at h
  split at h
  case h_1 hb => exact takeOne_reads_encoding hb (fun t => ⟨rfl, by rw [leBytes_one]; rfl⟩) h
  case h_2 hb | h_9 hb =>
    cases h
    exact ⟨rfl, rfl, label_cons hb rfl⟩
  case h_3 hb | h_4 hb | h_5 hb | h_6 hb | h_7 hb | h_8 hb | h_10 hb | h_12 hb =>
    exact takeOne_reads_encoding hb (fun _ => ⟨rfl, rfl⟩) h
  case h_11 hb =>
    obtain ⟨⟨k, bs₁⟩, hk, h⟩ := decode_bind_ok h
    obtain ⟨⟨p, bs₂⟩, hp, h⟩ := decode_bind_ok h
    obtain ⟨hw, rfl, rfl⟩ := checked_eq_ok h
    refine ⟨hw, rfl, label_cons hb ?_⟩
    rw [encode, takeOperand_eq_ok hk, takeOperand_eq_ok hp, List.cons_append, List.append_assoc]
  case h_13 hb =>
    obtain ⟨⟨r, bs₁⟩, hr, h⟩ := decode_bind_ok h
    obtain ⟨⟨p, bs₂⟩, hp, h⟩ := decode_bind_ok h
    obtain ⟨hw, rfl, rfl⟩ := checked_eq_ok h
    refine ⟨hw, rfl, label_cons hb ?_⟩
    rw [encode, takeOperand_eq_ok hr, takeOperand_eq_ok hp, List.cons_append, List.append_assoc]
  case h_14 hb | h_15 hb | h_16 hb | h_17 hb | h_18 hb => exact takeStride_reads_encoding hb (fun _ _ _ => ⟨rfl, rfl⟩) h
  case h_19 hb | h_20 hb => exact takeRun_reads_encoding hb (fun _ _ _ => ⟨rfl, rfl⟩) h
  case h_21 hb =>
    obtain ⟨⟨r, bs₁⟩, hr, h⟩ := decode_bind_ok h
    obtain ⟨⟨o, bs₂⟩, ho, h⟩ := decode_bind_ok h
    obtain ⟨⟨n, bs₃⟩, hn, h⟩ := decode_bind_ok h
    obtain ⟨⟨f, bs₄⟩, hf, h⟩ := decode_bind_ok h
    obtain ⟨hw, rfl, rfl⟩ := checked_eq_ok h
    refine ⟨hw, rfl, label_cons hb ?_⟩
    rw [encode, formOf_toNat, takeOperand_eq_ok hr, takeOperand_eq_ok ho, takeOperand_eq_ok hn, takeOperand_eq_ok hf,
      List.cons_append, List.append_assoc, List.append_assoc, List.append_assoc]
  case h_22 => cases h

end

theorem decodeOpid_eq_ok {bs rest : List Byte} {i : Instr} (h : decodeOpid bs = .ok (i, rest)) :
    i.wf = true ∧ i.ctx = .opid ∧ bs = encode i ++ rest := by
  cases bs with
  | nil => cases h
  | cons b bs =>
    cases hd : decodeStateOpid b.toNat with
    | none =>
      rw [decodeOpid, hd] at h
      exact decodeUnitOpid_eq_ok h
    | some j =>
      rw [decodeOpid, hd] at h
      cases h
      obtain ⟨x, hx, hn⟩ := stOf_of_decodeStateOpid hd
      obtain ⟨hw, hc, he, -⟩ := encode_of_stOf hx
      rw [he, ← BitVec.eq_of_toNat_eq hn]
      exact ⟨hw, hc, rfl⟩

/-- Settles O2: each reader takes the bytes of what it answers. -/
theorem decodeReadsOnlyEncodings : Obligations.DecodeReadsOnlyEncodings := by
  unfold Obligations.DecodeReadsOnlyEncodings
  intro c bs i rest h
  unfold decode at h
  split at h
  · cases h
    exact ⟨rfl, rfl, by simp [encode]⟩
  · next b bs =>
    by_cases hb : b = 0xFF#8
    · rw [if_pos hb] at h
      cases h
      exact ⟨rfl, rfl, by rw [hb]; rfl⟩
    · rw [if_neg hb] at h
      cases h
      exact ⟨by simpa [Instr.wf] using hb, rfl, rfl⟩
  · cases h
    exact ⟨rfl, rfl, rfl⟩
  · cases h
    exact ⟨rfl, rfl, by rw [encode, leBytes_append]; rfl⟩
  · obtain ⟨⟨w, bs'⟩, hw, h⟩ := decode_bind_ok h
    obtain ⟨j, hj, h⟩ := decode_bind_ok h
    cases h
    obtain ⟨hwf, hc, he⟩ := encode_of_decodeCmd hj
    exact ⟨hwf, hc, he ▸ takeOperand_eq_ok hw⟩
  · exact decodeOpid_eq_ok h
  all_goals cases h

/-- Settles O3: each word is a closed list of bytes, and `decode` answers it by its own equations. -/
theorem specWordsDecode : Obligations.SpecWordsDecode := by
  unfold Obligations.SpecWordsDecode
  exact ⟨rfl, rfl, rfl, rfl, rfl, rfl, rfl, rfl, rfl, rfl, rfl, rfl, rfl, rfl⟩

/-- R86: the codes of CMD are 1 to 4. -/
theorem decodeCmd_reserved {w : Word} (h : w.toNat = 0 ∨ 4 < w.toNat) : decodeCmd w = .error (.reservedCommand w) := by
  unfold decodeCmd
  split
  case h_5 => rfl
  all_goals omega

/-- Settles O4: the host's write reaches the decoder, which has no command for the value. -/
theorem reservedCommandRefused : Obligations.ReservedCommandRefused := by
  unfold Obligations.ReservedCommandRefused
  intro s w rest hi hb hh hw
  rw [step_of_command hi hb hh, decodeCmd_reserved hw]
  rfl

/-! ### The wire elements -/

section
variable {s : State}

theorem execToken_of (h : s.st = .dToken) (ll ml : BitVec 4) : execToken ll ml s = .next (s.takeToken (ll ++ ml)) := if_pos h

theorem execExtCont_of (h : s.st = .dLitext ∨ s.st = .dMlext) : execExtCont s = .next (s.takeExt 0xFF#8) := if_pos h

theorem execExtTerm_of {v : Byte} (hv : v ≠ 0xFF#8) (h : s.st = .dLitext ∨ s.st = .dMlext) :
    execExtTerm v s = .next { s.takeExt v with st := if s.st = .dLitext then .dLitcopy else .dMatch4 } := by
  rw [execExtTerm, if_neg hv]
  obtain h | h := h
  · rw [if_pos h, if_pos h]
  · have hl : s.st ≠ .dLitext := by rw [h]; nofun
    rw [if_neg hl, if_pos h, if_neg hl]

theorem execLiteral_of (h : s.st = .dLitcopy) (b : Byte) (hd : s.op.toNat + 1 ≤ s.dstSize) : execLiteral b s = .next { s with
    dst := Memory.store s.dst s.op.toNat [b], ip := advance s.ip 1, op := advance s.op 1 } := by
  rw [execLiteral, if_pos h]
  exact orFault_of (State.writeDst_of (.inr hd))

theorem execOffset_of (h : s.st = .dOffset) (o : BitVec 16) : execOffset o s = .next (s.takeOffset o) := if_pos h

end

/-- R72, R182: consuming a token, by its two nibbles. -/
theorem State.takeToken_append (s : State) (ll ml : BitVec 4) : s.takeToken (ll ++ ml) = { s with
    tok := ll ++ ml, ll := ll, ml := ml, len := BitVec.ofNat 40 ll.toNat, ip := advance s.ip 1
    st := if ll = 15#4 then .dLitext else .dLitcopy } := by
  simp only [State.takeToken, State.tunSplit, highNibble_append, lowNibble_append, BitVec.ofNat_toNat]

/-- Settles O21: what each element consumes, in the state that reads it. -/
theorem elementsInContext : Obligations.ElementsInContext := by
  unfold Obligations.ElementsInContext
  refine fun s => ⟨fun ll ml h => ?_, fun h => execExtCont_of h, fun v hv h => execExtTerm_of hv h, fun b h hd => ?_,
    fun o h => ?_⟩
  · rw [exec, execToken_of h, State.takeToken_append]
  · exact ⟨_, execLiteral_of h b hd, rfl, State.wrote_store _ _ _ _ rfl⟩
  · rw [exec, execOffset_of h, State.takeOffset, BitVec.ofNat_toNat]
    rfl

/-- Settles O22: each element tests the state it is read in. -/
theorem elementsOutOfContext : Obligations.ElementsOutOfContext := by
  unfold Obligations.ElementsOutOfContext
  refine fun s => ⟨fun ll ml h => if_neg h, fun hl hm => if_neg (not_or.mpr ⟨hl, hm⟩), fun v h => ?_, fun b h => if_neg h,
    fun o h => if_neg h⟩
  rw [exec, execExtTerm]
  obtain ⟨hl, hm⟩ | hv := h
  · rw [if_neg hl, if_neg hm, ite_self]
  · rw [if_pos hv]

/-! ### The steps of DEC that read one element -/

section
variable {s : State} {i : Instr} {rest : List Byte}

/-- R182: with input left, D.TOKEN is the element TOKEN of the byte at `ip`. -/
theorem exec_eq_token_element (hst : s.st = .dToken) (hm : s.mode = .streaming → s.ip.toNat < s.iend.toNat)
    (hip : s.ip.toNat + 1 ≤ s.srcSize) (hd : decode .token [s.srcAt s.ip.toNat] = .ok (i, rest)) :
    exec s.st.instr s = exec i s := by
  cases hd
  have hin : ¬(s.mode = .streaming ∧ s.iend.toNat ≤ s.ip.toNat) := fun h => Nat.not_le.mpr (hm h.1) h.2
  have hread : s.readByte .src (pos s.ip) = .ok (s.srcAt s.ip.toNat) :=
    State.readByte_of (pos_nonneg _) (by rwa [pos_toNat])
  calc exec s.st.instr s
    _ = execDToken s := by rw [hst]; rfl
    _ = .next (s.takeToken (s.srcAt s.ip.toNat)) := by rw [execDToken, if_neg hin, hread, orFault_ok]
    _ = exec _ s := by rw [exec, execToken_of hst, highNibble_append_lowNibble]

/-- R102, R183, R187: TUN.EXT in a decoder state that reads an extension, going on to `y` after its last byte, is the extension
element of the byte at `ip`. -/
theorem tunExt_eq_ext_element {y : St} (hst : s.st = .dLitext ∨ s.st = .dMlext)
    (hy : y = if s.st = .dLitext then .dLitcopy else .dMatch4) (hip : s.ip.toNat + 1 ≤ s.srcSize)
    (hd : decode .ext [s.srcAt s.ip.toNat] = .ok (i, rest)) :
    orFault s.tunExt (fun r => .next { r.1 with st := if r.2 then s.st else y }) = exec i s := by
  cases hd
  rw [State.tunExt_of hip, orFault_ok]
  by_cases hb : s.srcAt s.ip.toNat = 0xFF#8
  · rw [if_pos hb, hb]
    exact (execExtCont_of hst).symm
  · rw [if_neg hb, exec, execExtTerm_of hb hst, ← hy, extMore, decide_eq_false hb]
    rfl

/-- R183, R187: D.LITEXT and D.MLEXT are the extension element of the byte at `ip`. -/
theorem exec_eq_ext_element (hst : s.st = .dLitext ∨ s.st = .dMlext) (hip : s.ip.toNat + 1 ≤ s.srcSize)
    (hd : decode .ext [s.srcAt s.ip.toNat] = .ok (i, rest)) : exec s.st.instr s = exec i s := by
  rw [← tunExt_eq_ext_element hst rfl hip hd]
  obtain h | h := hst <;> rw [h] <;> rfl

/-- R186: D.OFFSET is the element OFFSET of the two bytes at `ip`. -/
theorem exec_eq_offset_element (hst : s.st = .dOffset) (hip : s.ip.toNat + 2 ≤ s.srcSize)
    (hd : decode .offset [s.srcAt s.ip.toNat, s.srcAt (s.ip.toNat + 1)] = .ok (i, rest)) :
    exec s.st.instr s = exec i s := by
  cases hd
  have hread : s.memRead .src (pos s.ip) 2 = .ok (leValue [s.srcAt s.ip.toNat, s.srcAt (s.ip.toNat + 1)]) := by
    rw [State.memRead_of (pos_nonneg _) (by rwa [pos_toNat]), pos_toNat]
    rfl
  calc exec s.st.instr s
    _ = execDOffset s := by rw [hst]; rfl
    _ = .next (s.takeOffset (s.srcAt (s.ip.toNat + 1) ++ s.srcAt s.ip.toNat)) := by
      rw [execDOffset, hread, orFault_ok, ofNat_leValue_pair]
    _ = exec _ s := by rw [exec, execOffset_of hst]

end

/-- Settles O6: each of the three laws above, at the state with the host's own two fields moved on. -/
theorem streamStepRunsElement : Obligations.StreamStepRunsElement := by
  unfold Obligations.StreamStepRunsElement
  intro s hi hb
  obtain ⟨m, d, hbusy⟩ : ∃ m d, s.hostBusy = { s with host := m, hostData := d } := ⟨_, _, State.hostBusy_eq s⟩
  rw [step_of_busy hi hb, hbusy]
  exact ⟨fun i hst hm hip hd => exec_eq_token_element (s := { s with host := m, hostData := d }) hst hm hip hd,
    fun i hst hip hd => exec_eq_ext_element (s := { s with host := m, hostData := d }) hst hip hd,
    fun i hst hip hd => exec_eq_offset_element (s := { s with host := m, hostData := d }) hst hip hd⟩

/-! ### A near-end literal run -/

/-- R78: LITERAL on the next `n` bytes of the stream, as one store. -/
theorem runLiterals_of {n : Nat} {s : State} (hz : s.sizesOk) (hst : s.st = .dLitcopy) (hs : s.ip.toNat + n ≤ s.srcSize)
    (hd : s.op.toNat + n ≤ s.dstSize) : runLiterals n s = .next { s with
      dst := Memory.store s.dst s.op.toNat (Memory.bytes .src s.src s.ip.toNat n), ip := advance s.ip n, op := advance s.op n } := by
  induction n generalizing s with
  | zero => simp [runLiterals, Memory.bytes]
  | succ n ih =>
    have hmax : maxMemSize < 2 ^ 32 := by decide
    have ⟨_, hsz, _, hdz⟩ := hz
    have hip : (advance s.ip 1).toNat = s.ip.toNat + 1 := advance_toNat (by omega)
    have hop : (advance s.op 1).toNat = s.op.toNat + 1 := advance_toNat (by omega)
    have hrest := ih (s := { s with
      dst := Memory.store s.dst s.op.toNat [s.srcAt s.ip.toNat], ip := advance s.ip 1, op := advance s.op 1 })
      hz hst (by dsimp only; omega) (by dsimp only; omega)
    simp only [hip, hop, advance_advance, Nat.add_comm 1 n] at hrest
    rw [runLiterals, exec, execLiteral_of hst _ (by omega)]
    exact hrest

/-- R184, R190: a run of D.LITCOPY that ends at the output limit or fewer than 8 bytes before it. -/
theorem execDLitcopy_of_nearEnd {s : State} (hnear : nearEnd (s.op.toNat + s.len.toNat) s = true)
    (hend : s.op.toNat + s.len.toNat ≤ s.oend.toNat) (hs : s.ip.toNat + s.len.toNat ≤ s.srcSize)
    (hd : s.op.toNat + s.len.toNat ≤ s.dstSize) : execDLitcopy s = .next ({ s with
      cpy := BitVec.ofNat 40 (s.op.toNat + s.len.toNat)
      dst := Memory.store s.dst s.op.toNat (Memory.bytes .src s.src s.ip.toNat s.len.toNat)
      ip := advance s.ip s.len.toNat, op := advance s.op s.len.toNat } : State).endDec := by
  have hcopy := State.fcpExact_of (s := { s with cpy := BitVec.ofNat 40 (s.op.toNat + s.len.toNat) }) (.inr hs) (.inr hd)
  rw [execDLitcopy, if_pos hnear, if_neg (Nat.not_lt.mpr hend)]
  exact orFault_of hcopy

/-- Settles O7: both sides store the bytes of the run at `op` and move both cursors over it. -/
theorem nearEndRunIsItsLiterals : Obligations.NearEndRunIsItsLiterals := by
  unfold Obligations.NearEndRunIsItsLiterals
  intro s hz hst hend hnear hlim hs
  have hd : s.op.toNat + s.len.toNat ≤ s.dstSize := hend.trans hlim
  exact ⟨_, runLiterals_of hz hst hs hd, execDLitcopy_of_nearEnd (decide_eq_true hnear) hend hs hd⟩

end Sys2Proof.Machine

/-! ### The token unpacker and packer run alone -/

namespace Sys2Proof.Machine

/-! #### The token byte and the extension bytes -/

theorem highNibble_eq_ofNat (b : Byte) : highNibble b = BitVec.ofNat 4 (b.toNat / 16) := by
  refine BitVec.eq_of_toNat_eq ?_
  rw [highNibble, BitVec.extractLsb'_toNat, Nat.shiftRight_eq_div_pow, BitVec.toNat_ofNat]

theorem lowNibble_eq_ofNat (b : Byte) : lowNibble b = BitVec.ofNat 4 (b.toNat % 16) := by
  refine BitVec.eq_of_toNat_eq ?_
  rw [lowNibble, BitVec.extractLsb'_toNat, Nat.shiftRight_zero, BitVec.toNat_ofNat, Nat.mod_mod]

/-- R102: another extension byte follows exactly the byte 255. -/
theorem extMore_eq_decide (b : Byte) : extMore b = decide (b.toNat = 255) :=
  decide_eq_decide.mpr BitVec.toNat_inj.symm

/-- R105: the token byte by whether the length saturates its code. -/
theorem tokenByte_eq_ite (l : Nat) : tokenByte l = if 15 ≤ l then 0xF0#8 else BitVec.ofNat 8 (16 * l) := by
  rw [tokenByte_eq]
  split
  · next h => rw [Nat.min_eq_right h]
  · next h => rw [Nat.min_eq_left (by omega)]

theorem extOf_of_lt {l : Nat} (h : l < 15) : extOf l = [] := if_pos h

/-- R71, R74: the extension of a saturated length, by the number of its bytes `0xFF` and its final byte. -/
theorem extOf_saturated (k : Nat) {v : Nat} (hv : v < 255) :
    extOf (15 + 255 * k + v) = List.replicate k 0xFF#8 ++ [BitVec.ofNat 8 v] := by
  have hsub : 15 + 255 * k + v - 15 = 255 * k + v := by omega
  have hdiv : (255 * k + v) / 255 = k := by omega
  have hmod : (255 * k + v) % 255 = v := by omega
  rw [extOf_eq, if_neg (by omega), extBytes, hsub, hdiv, hmod]

theorem extOf_saturated_length (k : Nat) {v : Nat} (hv : v < 255) : (extOf (15 + 255 * k + v)).length = k + 1 := by
  simp [extOf_saturated k hv]

/-- R71: a length is below 15, or 15 and the value of an extension. -/
theorem length_lt_or_saturated (l : Nat) : l < 15 ∨ ∃ k v, v < 255 ∧ l = 15 + 255 * k + v := by
  by_cases h : l < 15
  · exact .inl h
  · exact .inr ⟨(l - 15) / 255, (l - 15) % 255, by omega, by omega⟩

theorem Memory.bytes_eq_replicate_iff {sp : Space} {m : Memory} {a n : Nat} {b : Byte} :
    Memory.bytes sp m a n = List.replicate n b ↔ ∀ j < n, Memory.byte sp m (a + j) = b := by
  induction n generalizing a with
  | zero => simp [Memory.bytes]
  | succ n ih =>
    rw [Memory.bytes, List.replicate_succ, List.cons.injEq, ih, Nat.forall_lt_succ_left]
    simp only [Nat.add_zero, Nat.add_assoc, Nat.add_comm 1]

/-- The bytes at `a` are the extension of a saturated length, said byte by byte. -/
theorem State.bytes_eq_extOf_saturated_iff {s : State} {a k v : Nat} (hv : v < 255) :
    Memory.bytes .src s.src a (k + 1) = extOf (15 + 255 * k + v) ↔
      (∀ j < k, (s.srcAt (a + j)).toNat = 255) ∧ (s.srcAt (a + k)).toNat = v := by
  have hFF (x : Byte) : x = 0xFF#8 ↔ x.toNat = 255 := BitVec.toNat_inj.symm
  have hlast (x : Byte) : x = BitVec.ofNat 8 v ↔ x.toNat = v := by
    rw [← BitVec.toNat_inj, BitVec.toNat_ofNat, Nat.mod_eq_of_lt (by omega)]
  rw [extOf_saturated k hv, Memory.bytes_add, List.append_eq_append_iff_of_size_eq_left (by simp)]
  simp only [Memory.bytes_eq_replicate_iff, Memory.bytes, List.cons.injEq, and_true, hFF, hlast, State.srcAt]

/-! #### The unit's instructions -/

section
variable {s t : State}

/-- R101: a code below 15 is the length. -/
theorem State.tunLen_of_lt {c : BitVec 4} (h : c.toNat < 15) :
    s.tunLen c = .ok { s with len := BitVec.ofNat 40 c.toNat } := by
  have hc : c ≠ 15#4 := by
    rintro rfl
    exact absurd h (by decide)
  rw [State.tunLen, if_neg hc, BitVec.ofNat_toNat]

theorem State.tunLen_saturated (s : State) :
    s.tunLen 15#4 = State.tunLoop (s.srcSize - s.ip.toNat) { s with len := 15#40 } := rfl

/-- R103: the code 15 over `k` bytes `0xFF` and a final byte `v`. -/
theorem State.tunLen_of_ext {k v : Nat} (hz : s.sizesOk) (hv : v < 255) (hk : s.ip.toNat + k + 1 ≤ s.srcSize)
    (hf : ∀ j < k, (s.srcAt (s.ip.toNat + j)).toNat = 255) (hl : (s.srcAt (s.ip.toNat + k)).toNat = v) :
    s.tunLen 15#4 = .ok { s with len := BitVec.ofNat 40 (15 + 255 * k + v), ip := advance s.ip (k + 1) } := by
  subst hl
  obtain ⟨_, hsz, _, _⟩ := hz
  rw [State.tunLen_saturated]
  exact State.tunLoop_of (s := { s with len := 15#40 }) hsz (by omega) hk hf hv

/-- R103, R59: the code 15 over nothing but `0xFF` up to the end of SRC. -/
theorem State.tunLen_fault (hz : s.sizesOk) (hf : ∀ a, s.ip.toNat ≤ a → a < s.srcSize → (s.srcAt a).toNat = 255) :
    s.tunLen 15#4 = .error .srcRange := by
  obtain ⟨_, hsz, _, _⟩ := hz
  rw [State.tunLen_saturated]
  exact State.tunLoop_fault (s := { s with len := 15#40 }) _ hsz hf

/-- R103, R107: where the code 15 answers, the bytes it consumed are the extension of the length. -/
theorem State.tunLen_saturated_ok (hz : s.sizesOk) (h : s.tunLen 15#4 = .ok t) :
    ∃ k v, v < 255 ∧ s.ip.toNat + k + 1 ≤ s.srcSize ∧
      Memory.bytes .src s.src s.ip.toNat (k + 1) = extOf (15 + 255 * k + v) ∧
      t = { s with len := BitVec.ofNat 40 (15 + 255 * k + v), ip := advance s.ip (k + 1) } := by
  have ⟨_, hsz, _, _⟩ := hz
  rw [State.tunLen_saturated] at h
  obtain ⟨k, -, hk, hf, hv⟩ := State.tunLoop_ok (s := { s with len := 15#40 }) hsz h
  refine ⟨k, _, hv, hk, (State.bytes_eq_extOf_saturated_iff hv).mpr ⟨hf, rfl⟩, ?_⟩
  exact Except.ok.inj (h.symm.trans (State.tunLen_of_ext hz hv hk hf rfl))

/-- R107, from the bytes to the length. -/
theorem State.tunLen_of_extOf {l : Nat} (hz : s.sizesOk) (hs : s.ip.toNat + (extOf l).length ≤ s.srcSize)
    (hb : Memory.bytes .src s.src s.ip.toNat (extOf l).length = extOf l) : s.tunLen (BitVec.ofNat 4 (min l 15)) =
      .ok { s with len := BitVec.ofNat 40 l, ip := advance s.ip (extOf l).length } := by
  obtain hl | ⟨k, v, hv, rfl⟩ := length_lt_or_saturated l
  · have hc : (BitVec.ofNat 4 l).toNat = l := Nat.mod_eq_of_lt (by omega)
    rw [Nat.min_eq_left (by omega), State.tunLen_of_lt (by rwa [hc]), hc, extOf_of_lt hl, List.length_nil, advance_zero]
  · rw [extOf_saturated_length k hv] at hs hb ⊢
    obtain ⟨hf, hl⟩ := (State.bytes_eq_extOf_saturated_iff hv).mp hb
    rw [Nat.min_eq_right (by omega)]
    exact State.tunLen_of_ext hz hv hs hf hl

/-- R107, from the length to the code and the bytes. -/
theorem State.tunLen_ok {c : BitVec 4} (hz : s.sizesOk) (h : s.tunLen c = .ok t) :
    c.toNat = min t.len.toNat 15 ∧ t.ip.toNat = s.ip.toNat + (extOf t.len.toNat).length ∧
    Memory.bytes .src s.src s.ip.toNat (extOf t.len.toNat).length = extOf t.len.toNat := by
  by_cases hc : c = 15#4
  · subst hc
    have hmax : maxMemSize < 2 ^ 31 := by decide
    have ⟨_, hsz, _, _⟩ := hz
    obtain ⟨k, v, hv, hk, hb, rfl⟩ := State.tunLen_saturated_ok hz h
    have hlen : (BitVec.ofNat 40 (15 + 255 * k + v)).toNat = 15 + 255 * k + v := Nat.mod_eq_of_lt (by omega)
    have hip : (advance s.ip (k + 1)).toNat = s.ip.toNat + (k + 1) := advance_toNat (by omega)
    dsimp only
    rw [hlen, extOf_saturated_length k hv]
    exact ⟨(Nat.min_eq_right (by omega)).symm, hip, hb⟩
  · have hlt : c.toNat < 15 := by
      have := c.isLt
      have hne : c.toNat ≠ 15 := fun h => hc (BitVec.eq_of_toNat_eq h)
      omega
    rw [State.tunLen_of_lt hlt] at h
    cases h
    have hlen : (BitVec.ofNat 40 c.toNat).toNat = c.toNat := Nat.mod_eq_of_lt (by omega)
    dsimp only
    rw [hlen, extOf_of_lt hlt]
    exact ⟨(Nat.min_eq_left (by omega)).symm, rfl, rfl⟩

end

/-! #### The statements -/

/-- Settles O24: the code below 15 directly, and the code 15 by what its loop meets. -/
theorem lengthAssembly : Obligations.LengthAssembly := by
  unfold Obligations.LengthAssembly
  refine fun s hz => ⟨fun c hc => orFault_of (State.tunLen_of_lt hc),
    fun k v hv hk hf hl => orFault_of (State.tunLen_of_ext hz hv hk hf hl), fun hf => ?_⟩
  rw [exec, execTunLen, State.tunLen_fault hz hf, orFault_error]

/-- Settles O25: each is one store at `op`. -/
theorem packWrites : Obligations.PackWrites := by
  unfold Obligations.PackWrites
  refine fun s => ⟨fun l hd => ⟨_, orFault_of (State.packToken_of hd), rfl, ?_⟩,
    fun r hd => ⟨_, orFault_of (State.packExt_of hd), rfl, State.wrote_store _ _ _ _ rfl⟩⟩
  rw [← tokenByte_eq_ite]
  exact State.wrote_store _ _ _ _ rfl

/-- Settles O26: the two directions above. -/
theorem packThenUnpack : Obligations.PackThenUnpack := by
  unfold Obligations.PackThenUnpack
  exact fun s hz => ⟨fun l _ hs hb => orFault_of (State.tunLen_of_extOf hz hs hb),
    fun c t h => State.tunLen_ok hz (orFault_next_iff.mp h)⟩

/-- Settles O23: the nibbles of a byte as numbers, and TUN.EXT by whether SRC has a byte at `ip`. -/
theorem splitAndExtension : Obligations.SplitAndExtension := by
  unfold Obligations.SplitAndExtension
  refine fun s => ⟨fun b => ?_, ?_⟩
  · rw [exec, execTunSplit, State.tunSplit, highNibble_eq_ofNat, lowNibble_eq_ofNat]
  · rw [exec, execTunExt]
    split
    · next h => rw [State.tunExt_of h, orFault_ok, extMore_eq_decide, State.takeExt]
    · next h => rw [State.tunExt_fault (by omega), orFault_error]

end Sys2Proof.Machine

/-! ### The hash table run alone -/

namespace Sys2Proof.Machine

/-! #### The two hashes as numbers -/

/-- The product of R122 and R123 without its lowest `k` bits. -/
theorem hashProduct_ushiftRight_toNat (w : Word) (k : Nat) :
    ((w * hashMul) >>> k).toNat = w.toNat * 2654435761 % 2 ^ 32 / 2 ^ k := by
  rw [BitVec.toNat_ushiftRight, Nat.shiftRight_eq_div_pow, BitVec.toNat_mul]
  rfl

/-- R122: the top 12 bits of the product. -/
theorem hashOf_wide_toNat (w : Word) : (hashOf .wide w).toNat = w.toNat * 2654435761 % 2 ^ 32 / 2 ^ 20 := by
  have hlt : w.toNat * 2654435761 % 2 ^ 32 / 2 ^ 20 < 2 ^ 12 := by omega
  rw [hashOf, hashWide, BitVec.toNat_setWidth, BitVec.toNat_setWidth, hashProduct_ushiftRight_toNat, Nat.mod_eq_of_lt]
  · exact Nat.mod_eq_of_lt hlt
  · exact (Nat.mod_le _ _).trans_lt (hlt.trans (by decide))

/-- R123: the top 13 bits of the product. -/
theorem hashOf_narrow_toNat (w : Word) : (hashOf .narrow w).toNat = w.toNat * 2654435761 % 2 ^ 32 / 2 ^ 19 := by
  have hlt : w.toNat * 2654435761 % 2 ^ 32 / 2 ^ 19 < 2 ^ 13 := by omega
  rw [hashOf, hashNarrow, BitVec.toNat_setWidth, hashProduct_ushiftRight_toNat]
  exact Nat.mod_eq_of_lt hlt

/-- R122, R123: the wide hash is the narrow one without its lowest bit. -/
theorem hashOf_wide_eq_half_narrow (w : Word) : (hashOf .wide w).toNat = (hashOf .narrow w).toNat / 2 := by
  rw [hashOf_wide_toNat, hashOf_narrow_toNat]
  omega

/-! #### The statements -/

/-- Settles O27: each index is the top bits of the product, so it fits `h`. -/
theorem hashFunctions : Obligations.HashFunctions := by
  unfold Obligations.HashFunctions
  refine fun w s => ⟨?_, ?_, hashOf_wide_eq_half_narrow w⟩
  · rw [exec, execHashW, ← hashOf_wide_toNat, BitVec.ofNat_toNat, BitVec.setWidth_eq]
  · rw [exec, execHashN, ← hashOf_narrow_toNat, BitVec.ofNat_toNat, BitVec.setWidth_eq]

/-- Settles O30: the bucket of a word is one its table has, so the laws of `htPut` say what is written and what is kept. -/
theorem probeLooksUpThenInserts : Obligations.ProbeLooksUpThenInserts := by
  unfold Obligations.ProbeLooksUpThenInserts
  intro s p hp h
  refine ⟨_, orFault_of (State.htProbeAt_of hp), ?_, State.htPut_other s h p, fun j hj => State.htAt_htPut_of_ne s p hj,
    State.htAt_htPut_self s⟩
  rw [State.htPut_fields]

/-- Settles O31: at a legal distance the words are compared, and two words are equal when their four bytes are. -/
theorem acceptDecides : Obligations.AcceptDecides := by
  unfold Obligations.AcceptDecides
  intro s ref ip h0 h1
  rw [exec, execHtAccept, State.accept_of h0 (by rwa [pos_toNat]), orFault_ok]
  simp only [pos, Int.toNat_natCast, maxDistance, Nat.cast_ofNat, State.wordAt_eq_iff, Fin.forall_iff, and_assoc]

/-- Settles O28: the threshold is that of `selectVariant`, and a clear is `htReset`. -/
theorem selectAndClear : Obligations.SelectAndClear := by
  unfold Obligations.SelectAndClear
  exact fun s => ⟨fun n => rfl, _, rfl, State.htReset_fields s, State.htAt_htReset s, State.htReset_other s⟩

end Sys2Proof.Machine

/-! ### The steps of ENC and the ends of a command -/

namespace Sys2Proof.Machine

section
variable {s : State}

/-! #### The words of the statements -/

/-- R128: the test of a candidate, said in positions and byte by byte. -/
theorem State.accept_test_iff (s : State) (p : Pos) (r : Nat) :
    ((1 ≤ pos p - r ∧ pos p - r ≤ maxDistance) ∧ s.wordAt r = s.wordAt p.toNat) ↔
      r < p.toNat ∧ p.toNat - r ≤ 65535 ∧ ∀ j : Fin 4, s.srcAt (r + j) = s.srcAt (p.toNat + j) := by
  have hdist : 1 ≤ pos p - r ∧ pos p - r ≤ maxDistance ↔ r < p.toNat ∧ p.toNat - r ≤ 65535 := by
    rw [pos, maxDistance]
    omega
  rw [hdist, and_assoc, State.wordAt_eq_iff, Fin.forall_iff]

/-- R143: the search step is the counter without its lowest 6 bits. -/
theorem State.probeMoved_eq (s : State) : s.probeMoved = { s with
    attempts := s.attempts + 1#32, ip := s.fwd, fwd := advance s.fwd (s.attempts.toNat / 64) } := by
  rw [State.probeMoved, BitVec.toNat_ushiftRight, Nat.shiftRight_eq_div_pow]
  rfl

/-- R147: a distance of 16 bits, in its two bytes. -/
theorem leBytes_distance {d : Nat} (hd : d < 65536) :
    leBytes 2 (BitVec.ofInt 16 d).toNat = [BitVec.ofNat 8 (d % 256), BitVec.ofNat 8 (d / 256)] := by
  have hlow : BitVec.ofNat 8 (d % 256) = BitVec.ofNat 8 d := BitVec.eq_of_toNat_eq (by simp)
  rw [BitVec.ofInt_natCast, BitVec.toNat_ofNat, Nat.mod_eq_of_lt hd, hlow]
  rfl

/-- One byte stored at `a`, and then bytes from an address above it on. -/
theorem Memory.byte_store_below (sp : Space) (m : Memory) {a d : Nat} (h : a < d) (b : Byte) (bs : List Byte) (c : Nat) :
    Memory.byte sp (Memory.store (Memory.store m a [b]) d bs) c =
      if c = a then b else if d ≤ c ∧ c < d + bs.length then bs.getD (c - d) 0#8 else Memory.byte sp m c := by
  rw [Memory.byte_store, Memory.store_cons, Memory.store_nil, Memory.byte_insert]
  by_cases hc : c = a
  · rw [dif_neg (by omega), if_pos hc, if_pos hc]
  · rw [if_neg hc, if_neg hc]
    split
    · exact (List.getD_eq_getElem _ _ _).symm
    · rfl

theorem State.otherTableKept_trans {t u : State} {v : Variant} (h : s.otherTableKept t v) (k : t.otherTableKept u v) :
    s.otherTableKept u v :=
  ⟨fun hv => (k.1 hv).trans (h.1 hv), fun hv => (k.2 hv).trans (h.2 hv)⟩

@[simp] theorem State.htPut_variant (s : State) (i : Bucket) (p : Pos) : (s.htPut i p).variant = s.variant := by
  rw [State.htPut_fields]

/-- E.INIT, whatever the length of the input (R141). -/
theorem execEInit_eq (s : State) : execEInit s = .next { s.encStarted.htReset with
    mflimit := if s.srcLen.toNat < 17 then s.mflimit else BitVec.ofNat 32 (s.srcLen.toNat - 12)
    matchlimit := if s.srcLen.toNat < 17 then s.matchlimit else BitVec.ofNat 32 (s.srcLen.toNat - 5)
    st := if s.srcLen.toNat < 17 then .eLast else .eSearchInit } := by
  rcases Nat.lt_or_ge s.srcLen.toNat 17 with h | h
  · rw [execEInit_short h, if_pos h, if_pos h, if_pos h, State.htReset_fields]
    rfl
  · have hn := Nat.not_lt.mpr h
    rw [execEInit_long h, if_neg hn, if_neg hn, if_neg hn]

/-- R190, R193, R197: what DONE writes after DEC, but for the bytes of DST and the counter of draws. -/
theorem State.endDec_writes (s : State) : s.endDec = { s with
    result := if s.mode = .known then s.ip else s.op
    status := { s.status with state := .done, lenmis := decide (s.mode = .known ∧ s.op ≠ s.oend) }
    st := .done, dst := s.endDec.dst, draws := s.endDec.draws } := by
  have hresult : s.endDec.result = if s.mode = .known then s.ip else s.op := by
    rw [State.endDec_result]
    cases s.mode <;> rfl
  have hmis : lenMismatch s = decide (s.mode = .known ∧ s.op ≠ s.oend) := (Bool.decide_and _ _).symm
  rw [← hresult, ← hmis]
  exact s.endDec_eq

/-- A COMPRESS that starts has met the rows of R258 that bound its input and its output. -/
theorem execCompress_bounds {t : State} (h : execCompress s = .next t) :
    s.srcLen.toNat ≤ s.srcSize ∧ maxCompressed s.srcLen.toNat ≤ s.dstCap.toNat ∧ s.dstCap.toNat ≤ s.dstSize := by
  unfold execCompress at h
  repeat' split at h
  all_goals cases h
  omega

end

/-! #### The statements -/

/-- Settles O19: DONE after DEC is `endDec`, the other three are written out. -/
theorem idleWaitsAndDoneWrites : Obligations.IdleWaitsAndDoneWrites := by
  unfold Obligations.IdleWaitsAndDoneWrites
  refine fun s => ⟨rfl, fun h => if_pos h, fun h1 h2 => ?_, fun h => ?_⟩
  · have hdec : execDone s = .next s.endDec := (if_neg h2).trans (if_neg h1)
    exact ⟨_, hdec, s.endDec_keptOutside, s.endDec_writes⟩
  · have h2 : s.cmd ≠ cmdCompress := by rw [h]; decide
    exact (if_neg h2).trans (if_pos h)

/-- Settles O32: the registers are those of `encStarted`, and the clear is that of the variant it has selected. -/
theorem encInit : Obligations.EncInit := by
  unfold Obligations.EncInit
  intro s v
  refine ⟨_, execEInit_eq s, s.encStarted.htAt_htReset, s.encStarted.htReset_other, ?_⟩
  rw [State.htReset_fields]
  rfl

/-- Settles O33: both are equations of the model. -/
theorem searchInitAndEndchk : Obligations.SearchInitAndEndchk := by
  unfold Obligations.SearchInitAndEndchk
  exact fun s => ⟨rfl, execEEndchk_eq s⟩

/-- Settles O44: R258 bounds the input by SRC, and the output by DST_CAP and so by DST. -/
theorem compressMeetsEncInv : Obligations.CompressMeetsEncInv := by
  unfold Obligations.CompressMeetsEncInv
  intro s t hz h
  obtain ⟨hsrc, hcap, hdst⟩ := execCompress_bounds h
  cases execCompress_next h
  exact ⟨rfl, hz, hsrc, hcap.trans hdst⟩

/-- Settles O34: past `mflimit` only the cursors move; a probe writes the entry of its bucket and no other. -/
theorem probeStep : Obligations.ProbeStep := by
  unfold Obligations.ProbeStep
  refine fun s => ⟨fun h => ?_, fun hm h4 => ?_⟩
  · rw [exec, execEProbe_past h, State.probeMoved_eq]
  · intro h r
    have hstep := execEProbe_of hm h4 (b := h) (r := r) rfl rfl
    simp only [State.accept_test_iff] at hstep
    refine ⟨_, hstep, fun j hj => State.htAt_htPut_of_ne s.probeMoved _ hj, State.htAt_htPut_self s.probeMoved,
      State.htPut_other s.probeMoved _ _, ?_⟩
    rw [State.htPut_fields, State.probeMoved_eq]

/-- Settles O35: the law of the backward loop. -/
theorem catchupStep : Obligations.CatchupStep := by
  unfold Obligations.CatchupStep
  exact fun s hr hi hrs => execECatchup_of hr hi hrs

/-- Settles O36: one store at `op`. -/
theorem litlenStep : Obligations.LitlenStep := by
  unfold Obligations.LitlenStep
  exact fun s hz ha hd => ⟨_, execELitlen_of hz ha rfl hd, State.wrote_store _ _ _ _ rfl, rfl⟩

/-- Settles O37: one store at `op` each. -/
theorem litcopyAndOffsetSteps : Obligations.LitcopyAndOffsetSteps := by
  unfold Obligations.LitcopyAndOffsetSteps
  refine fun s => ⟨fun hs hd => ⟨_, execELitcopy_of hs hd, State.wrote_store _ _ _ _ rfl, rfl⟩,
    fun d hd hlt h => ⟨_, execEOffset_of h, ?_, rfl⟩⟩
  have hdist : pos s.ip - s.ref.toInt = d := by rw [pos]; omega
  rw [hdist, leBytes_distance hlt]
  exact State.wrote_store _ _ _ _ rfl

/-- Settles O38: the law of the forward loop, which `matchlimit` clamps. -/
theorem extendStep : Obligations.ExtendStep := by
  unfold Obligations.ExtendStep
  intro s hz hr hri hi hm
  obtain ⟨k, hk, hle, heq, hstop⟩ := execEExtend_of hz hr hri hi hm
  exact ⟨k, hk, hle, heq, hstop.imp_left (Nat.le_antisymm hle)⟩

/-- Settles O39: the token is rewritten below `op`, where the extension bytes begin. -/
theorem mlenStep : Obligations.MlenStep := by
  unfold Obligations.MlenStep
  intro s hz hm ht hd l
  refine ⟨_, execEMlen_of hm rfl (by omega) hd, rfl, fun c => ?_⟩
  refine (Memory.byte_store_below .dst s.dst ht _ (extOf l) c).trans ?_
  exact ite_congr rfl (fun hc => by rw [hc]) fun _ => rfl

/-- Settles O40: the lookup writes no entry, and the token of an accepted candidate is `tokenByte 0`. -/
theorem chainStep : Obligations.ChainStep := by
  unfold Obligations.ChainStep
  intro s h4 hd h r
  have hstep := execEChain_of h4 hd (b := h) (r := r) rfl rfl
  rw [if_congr (s.accept_test_iff s.ip r) rfl rfl] at hstep
  split
  · next hc =>
    rw [if_pos hc] at hstep
    exact ⟨_, hstep, State.wrote_store _ _ _ _ rfl, rfl⟩
  · next hc =>
    rw [if_neg hc] at hstep
    exact hstep

/-- Settles O41: two insertions, the one at `ip` last. -/
theorem rehashStep : Obligations.RehashStep := by
  unfold Obligations.RehashStep
  intro s h2 h4 h g
  have hstep := execERehash_of h2 h4 (g := g) (b := h) rfl rfl
  have hother := State.htPut_other (s.htPut g (BitVec.ofNat 32 (s.ip.toNat - 2))) h s.ip
  rw [State.htPut_variant] at hother
  refine ⟨_, hstep, ?_, State.otherTableKept_trans (s.htPut_other g _) hother, fun j hjh hjg => ?_, fun hfit => ?_,
    fun hgh hfit => ?_⟩
  · rw [State.htPut_fields, State.htPut_fields]
  · exact (State.htAt_htPut_of_ne _ _ hjh).trans (State.htAt_htPut_of_ne s _ hjg)
  · refine State.htAt_htPut_self (s.htPut g _) fun hn => hfit ?_
    rwa [State.htPut_variant] at hn
  · refine (State.htAt_htPut_of_ne (s.htPut g _) _ hgh).trans (State.htAt_htPut_self s fun hn => ?_)
    exact (ofNat_toNat_le _).trans_lt (hfit hn)

/-- Settles O42: the head of the sequence and its literals are one store at `op`. -/
theorem lastStep : Obligations.LastStep := by
  unfold Obligations.LastStep
  intro s hz ha hs l hd
  refine ⟨_, execELast_of hz ha hs rfl hd, State.wrote_store _ _ _ _ ?_, rfl⟩
  rw [Memory.store_append]
  rfl

end Sys2Proof.Machine

/-! ### The transitions of ENC and of DEC -/

namespace Sys2Proof.Machine

section
variable {s t : State}

/-- R155: each step of ENC, by what it can answer. -/
theorem exec_encEdge (he : s.st.isEnc = true) (h : exec s.st.instr s = .next t) : encEdge s.st t.st = true := by
  cases hst : s.st <;> rw [hst] at h he
  case eInit => obtain ⟨m, l, x, rfl | rfl, rfl⟩ := execEInit_next h <;> rfl
  case eSearchInit => cases h; rfl
  case eProbe =>
    obtain ⟨-, rfl⟩ | ⟨u, ok, -, -, rfl⟩ := execEProbe_next h
    · rfl
    · cases ok <;> rfl
  case eCatchup => obtain ⟨i, r, rfl⟩ := execECatchup_next h; rfl
  case eLitlen => obtain ⟨l, u, -, rfl⟩ := execELitlen_next h; rfl
  case eLitcopy => obtain ⟨u, -, rfl⟩ := execELitcopy_next h; rfl
  case eOffset => obtain ⟨v, u, -, rfl⟩ := execEOffset_next h; rfl
  case eExtend => obtain ⟨i, r, m, rfl⟩ := execEExtend_next h; rfl
  case eMlen => obtain ⟨l, v, u, -, rfl | ⟨w, -, rfl⟩⟩ := execEMlen_next h <;> rfl
  case eEndchk => obtain ⟨a, x, rfl | rfl, rfl⟩ := execEEndchk_next h <;> rfl
  case eChain => obtain ⟨b, -, rfl | ⟨u, -, rfl⟩⟩ := execEChain_next h <;> rfl
  case eRehash => obtain ⟨u, v, -, -, rfl⟩ := execERehash_next h; rfl
  case eLast => obtain ⟨l, u, v, -, -, rfl⟩ := execELast_next h; rfl
  all_goals cases he

/-- R192: each step of DEC, by what it can answer. -/
theorem exec_decEdge (hd : s.st.isDec = true) (h : exec s.st.instr s = .next t) : decEdge s.st t.st = true := by
  cases hst : s.st <;> rw [hst] at h hd
  case dInit => obtain ⟨-, rfl⟩ | ⟨-, rfl⟩ := execDInit_next h <;> rfl
  case dToken =>
    obtain rfl | ⟨-, rfl⟩ := execDToken_next h
    · rfl
    · rw [State.takeToken_st]
      split <;> rfl
  case dLitext => obtain ⟨-, x, rfl | rfl, rfl⟩ := takeExt_next h <;> rfl
  case dLitcopy => obtain ⟨-, rfl⟩ | ⟨-, -, u, -, rfl⟩ | ⟨-, u, -, rfl⟩ := execDLitcopy_next rfl h <;> rfl
  case dEofchk => obtain rfl | rfl := execDEofchk_next h <;> rfl
  case dOffset =>
    obtain ⟨-, o, rfl⟩ := execDOffset_next h
    rw [State.takeOffset_st]
    split <;> rfl
  case dMlext => obtain ⟨-, x, rfl | rfl, rfl⟩ := takeExt_next h <;> rfl
  case dMatch4 => obtain ⟨r, u, -, rfl⟩ := execDMatch4_next h; rfl
  case dMatchcopy =>
    obtain ⟨-, rfl⟩ | ⟨-, f, u, -, -, rfl⟩ := execDMatchcopy_next rfl h
    · rfl
    · split <;> rfl
  all_goals cases hd

end

/-- Settles O45: one table for each of the two. -/
theorem transitions : Obligations.Transitions := by
  unfold Obligations.Transitions
  exact fun s t h => ⟨fun he => exec_encEdge he h, fun hd => exec_decEdge hd h⟩

/-! ### ENC uses no draw -/

/-- The state with another counter of draws (log entry 4). -/
def State.withDraws (s : State) (d : Nat) : State := { s with draws := d }

section
variable {s t : State} {d : Nat}

/-! #### The shared operations, from another counter -/

theorem State.htPut_withDraws (s : State) (i : Bucket) (p : Pos) (d : Nat) :
    (s.withDraws d).htPut i p = (s.htPut i p).withDraws d := by
  unfold State.htPut State.withDraws
  cases s.variant <;> rfl

theorem State.htReset_withDraws (s : State) (d : Nat) : (s.withDraws d).htReset = s.htReset.withDraws d := by
  unfold State.htReset State.withDraws
  cases s.variant <;> rfl

theorem State.writeDst_withDraws {a : Nat} {bs : List Byte} (h : s.writeDst a bs = .ok t) :
    (s.withDraws d).writeDst a bs = .ok (t.withDraws d) := by
  obtain ⟨rfl, hb⟩ := State.writeDst_ok h
  exact State.writeDst_of (s := s.withDraws d) hb

theorem State.packToken_withDraws {l : Nat} (h : s.packToken l = .ok t) :
    (s.withDraws d).packToken l = .ok (t.withDraws d) := by
  obtain ⟨hb, rfl⟩ := State.packToken_ok h
  exact State.packToken_of (s := s.withDraws d) hb

theorem State.packExt_withDraws {r : Nat} (h : s.packExt r = .ok t) :
    (s.withDraws d).packExt r = .ok (t.withDraws d) := by
  obtain ⟨hb, rfl⟩ := State.packExt_ok h
  exact State.packExt_of (s := s.withDraws d) hb

theorem State.packLen_withDraws {l : Nat} (h : s.packLen l = .ok t) :
    (s.withDraws d).packLen l = .ok (t.withDraws d) := by
  obtain ⟨u, hu, h⟩ := except_bind_ok h
  rw [State.packLen, State.packToken_withDraws hu, except_ok_bind]
  split at h
  · next hl => rw [if_pos hl, State.packExt_withDraws h]
  · next hl => cases h; rw [if_neg hl]

theorem State.fcpExact_withDraws {a e n : Nat} (h : s.fcpExact a e n = .ok t) :
    (s.withDraws d).fcpExact a e n = .ok (t.withDraws d) := by
  obtain ⟨bs, hbs, h⟩ := except_bind_ok h
  have hread : (s.withDraws d).readBytes .src a n = .ok bs := hbs
  rw [State.fcpExact, State.stride, hread]
  exact State.writeDst_withDraws h

theorem State.htProbeAt_withDraws {p : Pos} (h : s.htProbeAt p = .ok t) :
    (s.withDraws d).htProbeAt p = .ok (t.withDraws d) := by
  obtain ⟨h4, rfl⟩ := State.htProbeAt_ok h
  rw [State.htProbeAt_of (s := s.withDraws d) h4, State.htPut_withDraws]
  rfl

theorem State.insertAt_withDraws {p : Int} (h : s.insertAt p = .ok t) :
    (s.withDraws d).insertAt p = .ok (t.withDraws d) := by
  obtain ⟨h0, h4, rfl⟩ := State.insertAt_ok h
  lift p to Nat using h0
  rw [State.insertAt_of (s := s.withDraws d) (n := p) h4, State.htPut_withDraws, BitVec.ofInt_natCast]
  rfl

/-- A loop's comparison of two bytes it has read, before a change of the state it answers. -/
theorem ifReadsEqual_map {ra rb : Except Fault Byte} {x x' y y' : Except Fault State} {g : State → State}
    (hx : x' = x.map g) (hy : y' = y.map g) :
    (match ra, rb with
      | .ok a, .ok b => if a = b then x' else y'
      | .error f, _ => .error f
      | .ok _, .error f => .error f) =
    Except.map g (match ra, rb with
      | .ok a, .ok b => if a = b then x else y
      | .error f, _ => .error f
      | .ok _, .error f => .error f) := by
  subst hx hy
  cases ra with
  | error => rfl
  | ok a =>
    cases rb with
    | error => rfl
    | ok b => exact (apply_ite (Except.map g) (a = b) x y).symm

/-- The backward loop of E.CATCHUP reads no counter. -/
theorem catchupLoop_withDraws (n : Nat) (s : State) (d : Nat) :
    catchupLoop n (s.withDraws d) = (catchupLoop n s).map (·.withDraws d) := by
  induction n generalizing s with
  | zero => rfl
  | succ n ih =>
    have hmoved := ih { s with ip := BitVec.ofInt 32 (pos s.ip - 1), ref := BitVec.ofInt 33 (s.ref.toInt - 1) }
    rw [catchupLoop, catchupLoop, apply_ite (Except.map _)]
    exact ite_congr rfl (fun _ => ifReadsEqual_map hmoved rfl) fun _ => rfl

/-- The forward loop of E.EXTEND reads no counter. -/
theorem extendLoop_withDraws (n : Nat) (s : State) (d : Nat) :
    extendLoop n (s.withDraws d) = (extendLoop n s).map (·.withDraws d) := by
  induction n generalizing s with
  | zero => rfl
  | succ n ih =>
    have hmoved := ih { s with ip := advance s.ip 1, ref := BitVec.ofInt 33 (s.ref.toInt + 1) }
    rw [extendLoop, extendLoop, apply_ite (Except.map _)]
    exact ite_congr rfl (fun _ => ifReadsEqual_map hmoved rfl) fun _ => rfl

/-- The hash of a position is an index the selected variant has (R122, R123). -/
theorem State.hashAt_bucketOk {p : Int} {b : Bucket} (h : s.hashAt p = .ok b) : s.bucketOk b := by
  obtain ⟨-, -, rfl⟩ := State.hashAt_ok h
  exact s.hashOf_bucketOk _

theorem State.hashAt_withDraws (s : State) (p : Int) (d : Nat) : (s.withDraws d).hashAt p = s.hashAt p := rfl

theorem State.accept_withDraws (s : State) (ref ip : Int) (d : Nat) :
    (s.withDraws d).accept ref ip = s.accept ref ip := rfl

/-! #### The steps, from another counter -/

theorem execEInit_withDraws (h : execEInit s = .next t) : execEInit (s.withDraws d) = .next (t.withDraws d) := by
  have hclear : (s.withDraws d).encStarted.htReset = s.encStarted.htReset.withDraws d := s.encStarted.htReset_withDraws d
  rw [execEInit_eq] at h ⊢
  cases h
  rw [hclear]
  rfl

theorem execEProbe_withDraws (h : execEProbe s = .next t) : execEProbe (s.withDraws d) = .next (t.withDraws d) := by
  unfold execEProbe at h
  dsimp only at h
  split at h
  · next hp =>
    cases h
    exact if_pos hp
  · next hp =>
    obtain ⟨u, hu, h⟩ := orFault_next h
    obtain ⟨ok, hok, h⟩ := orFault_next h
    cases h
    refine (if_neg hp).trans ((orFault_of (State.htProbeAt_withDraws hu)).trans ?_)
    exact orFault_of ((u.accept_withDraws _ _ d).trans hok)

theorem execECatchup_withDraws (h : execECatchup s = .next t) : execECatchup (s.withDraws d) = .next (t.withDraws d) := by
  obtain ⟨u, hu, h⟩ := orFault_next h
  cases h
  exact orFault_of ((catchupLoop_withDraws _ s d).trans (by rw [hu]; rfl))

theorem execELitlen_withDraws (h : execELitlen s = .next t) : execELitlen (s.withDraws d) = .next (t.withDraws d) := by
  obtain ⟨u, hu, h⟩ := orFault_next h
  cases h
  exact orFault_of (State.packLen_withDraws hu)

theorem execELitcopy_withDraws (h : execELitcopy s = .next t) : execELitcopy (s.withDraws d) = .next (t.withDraws d) := by
  obtain ⟨u, hu, h⟩ := orFault_next h
  cases h
  exact orFault_of (State.fcpExact_withDraws hu)

theorem execEOffset_withDraws (h : execEOffset s = .next t) : execEOffset (s.withDraws d) = .next (t.withDraws d) := by
  obtain ⟨u, hu, h⟩ := orFault_next h
  cases h
  exact orFault_of (State.writeDst_withDraws hu)

theorem execEExtend_withDraws (h : execEExtend s = .next t) : execEExtend (s.withDraws d) = .next (t.withDraws d) := by
  obtain ⟨u, hu, h⟩ := orFault_next h
  cases h
  exact orFault_of ((extendLoop_withDraws _ _ d).trans (by rw [hu]; rfl))

theorem execEMlen_withDraws (h : execEMlen s = .next t) : execEMlen (s.withDraws d) = .next (t.withDraws d) := by
  obtain ⟨b, hb, h⟩ := orFault_next h
  obtain ⟨u, hu, h⟩ := orFault_next h
  obtain ⟨v, hv, h⟩ := orFault_next h
  cases h
  refine (orFault_of hb).trans ((orFault_of (State.writeDst_withDraws hu)).trans ?_)
  refine orFault_of (a := v.withDraws d) ?_
  split at hv
  · next hl => exact (if_pos hl).trans (State.packExt_withDraws hv)
  · next hl =>
    cases hv
    exact if_neg hl

theorem execEEndchk_withDraws (h : execEEndchk s = .next t) : execEEndchk (s.withDraws d) = .next (t.withDraws d) := by
  unfold execEEndchk at h
  split at h
  · next hp => cases h; exact if_pos hp
  · next hp => cases h; exact if_neg hp

theorem execEChain_withDraws (h : execEChain s = .next t) : execEChain (s.withDraws d) = .next (t.withDraws d) := by
  obtain ⟨b, hb, h⟩ := orFault_next h
  obtain ⟨ok, hok, h⟩ := orFault_next h
  have hbucket := State.hashAt_bucketOk hb
  rw [State.htGet_of hbucket] at hok h
  refine (orFault_of ((s.hashAt_withDraws _ d).trans hb)).trans ?_
  rw [State.htGet_of (s := s.withDraws d) hbucket]
  refine (orFault_of ((State.accept_withDraws _ _ _ d).trans hok)).trans ?_
  cases ok with
  | false =>
    cases h
    rfl
  | true =>
    obtain ⟨u, hu, h⟩ := orFault_next h
    cases h
    exact orFault_of (State.packToken_withDraws hu)

theorem execERehash_withDraws (h : execERehash s = .next t) : execERehash (s.withDraws d) = .next (t.withDraws d) := by
  obtain ⟨u, v, hu, hv, rfl⟩ := execERehash_next h
  exact (orFault_of (State.insertAt_withDraws hu)).trans (orFault_of (State.insertAt_withDraws hv))

theorem execELast_withDraws (h : execELast s = .next t) : execELast (s.withDraws d) = .next (t.withDraws d) := by
  obtain ⟨u, hu, h⟩ := orFault_next h
  obtain ⟨v, hv, h⟩ := orFault_next h
  cases h
  exact (orFault_of (State.packLen_withDraws hu)).trans (orFault_of (State.fcpExact_withDraws hv))

/-- R158: each step of ENC, from another counter of draws. -/
theorem exec_enc_withDraws (he : s.st.isEnc = true) (h : exec s.st.instr s = .next t) (d : Nat) :
    exec s.st.instr (s.withDraws d) = .next (t.withDraws d) := by
  cases hst : s.st <;> rw [hst] at h he
  case eInit => exact execEInit_withDraws h
  case eSearchInit => cases h; rfl
  case eProbe => exact execEProbe_withDraws h
  case eCatchup => exact execECatchup_withDraws h
  case eLitlen => exact execELitlen_withDraws h
  case eLitcopy => exact execELitcopy_withDraws h
  case eOffset => exact execEOffset_withDraws h
  case eExtend => exact execEExtend_withDraws h
  case eMlen => exact execEMlen_withDraws h
  case eEndchk => exact execEEndchk_withDraws h
  case eChain => exact execEChain_withDraws h
  case eRehash => exact execERehash_withDraws h
  case eLast => exact execELast_withDraws h
  all_goals cases he

end

/-- Settles O46: the step from another counter; from the counter it has, it answers that same counter. -/
theorem encUsesNoDraw : Obligations.EncUsesNoDraw := by
  unfold Obligations.EncUsesNoDraw
  intro s t d he h
  have hself : Host.Outcome.next t = .next (t.withDraws s.draws) := h.symm.trans (exec_enc_withDraws he h s.draws)
  refine ⟨?_, exec_enc_withDraws he h d⟩
  rw [Host.Outcome.next.inj hself]
  rfl

end Sys2Proof.Machine

/-! ### The steps of DEC -/

namespace Sys2Proof.Machine

section
variable {s t : State}

/-! #### How a decompress command ends -/

/-- RESULT of the error entry is the negated position as a signed value (R283). -/
theorem neg_pos_toInt_eq {p : Pos} (h : p.toNat < 2 ^ 31) : (-p).toInt = -(p.toNat : Int) := by
  rw [BitVec.toInt_eq_toNat_cond, BitVec.toNat_neg]
  split <;> omega

/-- R190: DONE after a streaming decompress. -/
theorem State.endDec_of_streaming (h : s.mode = .streaming) : s.endDec = { s with
    result := s.op, status := { s.status with state := .done, lenmis := false }, st := .done
    dst := s.endDec.dst, draws := s.endDec.draws } :=
  s.endDec_writes.trans (by simp [h])

/-- R190, R193, R197: DONE with the output cursor at the limit, where no byte of DST is left unspecified. -/
theorem State.endDec_of_limit (h : s.op = s.oend) : s.endDec = { s with
    result := if s.mode = .known then s.ip else s.op, status := { s.status with state := .done, lenmis := false }
    st := .done } := by
  have htail : s.loseTail = s := State.loseTail_of_le (by rw [h])
  exact s.endDec_writes.trans (by simp [h, htail])

/-! #### D.TOKEN, D.LITEXT and D.MLEXT -/

theorem highNibble_toNat (b : Byte) : (highNibble b).toNat = b.toNat / 16 := by
  have hb := b.isLt
  rw [highNibble_eq_ofNat, BitVec.toNat_ofNat, Nat.mod_eq_of_lt (by omega)]

theorem highNibble_eq_saturated_iff (b : Byte) : highNibble b = 15#4 ↔ b.toNat / 16 = 15 := by
  rw [← BitVec.toNat_inj, highNibble_toNat]
  rfl

/-- R182: consuming a token, by the two digits of its byte. -/
theorem State.takeToken_eq (s : State) (b : Byte) : s.takeToken b = { s with
    tok := b, ip := advance s.ip 1, ll := BitVec.ofNat 4 (b.toNat / 16), ml := BitVec.ofNat 4 (b.toNat % 16)
    len := BitVec.ofNat 40 (b.toNat / 16), st := if b.toNat / 16 = 15 then .dLitext else .dLitcopy } := by
  have hlen : (highNibble b).setWidth 40 = BitVec.ofNat 40 (b.toNat / 16) := by
    rw [← highNibble_toNat, BitVec.ofNat_toNat]
  simp only [State.takeToken, State.tunSplit, hlen, highNibble_eq_saturated_iff]
  rw [highNibble_eq_ofNat, lowNibble_eq_ofNat]

/-- R182: D.TOKEN with input left, by whether SRC has a byte at `ip` (R59). -/
theorem execDToken_of_input (h : ¬(s.mode = .streaming ∧ s.iend.toNat ≤ s.ip.toNat)) : execDToken s =
    if s.ip.toNat < s.srcSize then .next (s.takeToken (s.srcAt s.ip.toNat)) else .fault .srcRange := by
  rw [execDToken, if_neg h]
  split
  · next hip => exact orFault_of ((State.readByte_of (pos_nonneg _) (by rwa [pos_toNat])).trans (by rw [pos_toNat]; rfl))
  · next hip => rw [State.readByte_srcRange (pos_nonneg _) (by rw [pos_toNat]; omega), orFault_error]

/-- R183, R187: an extension byte, and the state `again` while another follows, `after` then. -/
theorem tunExt_step_eq (s : State) (again after : St) :
    (orFault s.tunExt fun r => .next { r.1 with st := if r.2 then again else after }) =
      if s.ip.toNat < s.srcSize then .next { s with
        ip := advance s.ip 1, len := BitVec.ofNat 40 (s.len.toNat + (s.srcAt s.ip.toNat).toNat)
        st := if (s.srcAt s.ip.toNat).toNat = 255 then again else after }
      else .fault .srcRange := by
  split
  · next h => simp only [State.tunExt_of h, orFault_ok, extMore_eq_decide, decide_eq_true_eq, State.takeExt]
  · next h => rw [State.tunExt_fault (by omega), orFault_error]

/-! #### D.EOFCHK and D.OFFSET -/

/-- R59, R285: some bytes of SRC, not all of which it has. -/
theorem State.readBytes_srcRange {a n : Nat} (hn : 0 < n) (h : s.srcSize < a + n) :
    s.readBytes .src a n = .error .srcRange := by
  rw [State.readBytes, if_neg (by omega), if_neg (by omega), if_neg (by simp only [State.size]; omega)]
  rfl

/-- R186: consuming an offset of the bytes `l` and `h`. -/
theorem State.takeOffset_append (s : State) (h l : Byte) : s.takeOffset (h ++ l) = { s with
    off := BitVec.ofNat 16 (l.toNat + 256 * h.toNat), ip := advance s.ip 2
    ref := BitVec.ofInt 33 ((s.op.toNat : Int) - (l.toNat + 256 * h.toNat : Nat))
    len := BitVec.ofNat 40 s.ml.toNat, st := if s.ml = 15#4 then .dMlext else .dMatch4 } := by
  have hval : (h ++ l).toNat = l.toNat + 256 * h.toNat := by rw [toNat_append_eq_add]; omega
  have hoff : BitVec.ofNat 16 (h ++ l).toNat = h ++ l := (BitVec.ofNat_toNat 16 _).trans (BitVec.setWidth_eq _)
  rw [← hval, hoff, BitVec.ofNat_toNat]
  rfl

/-- R186: D.OFFSET, by whether SRC has both bytes (R59). -/
theorem execDOffset_eq (s : State) : execDOffset s =
    if s.ip.toNat + 2 ≤ s.srcSize then .next (s.takeOffset (s.srcAt (s.ip.toNat + 1) ++ s.srcAt s.ip.toNat))
    else .fault .srcRange := by
  split
  · next h =>
    have hread : s.memRead .src (pos s.ip) 2 = .ok (leValue [s.srcAt s.ip.toNat, s.srcAt (s.ip.toNat + 1)]) := by
      rw [State.memRead_of (pos_nonneg _) (by rwa [pos_toNat]), pos_toNat]
      rfl
    rw [execDOffset, hread, orFault_ok, ofNat_leValue_pair]
  · next h =>
    rw [execDOffset, State.memRead, pos, State.readBytes_srcRange (by decide) (by omega)]
    rfl

/-! #### D.LITCOPY -/

/-- A meaning stops with the fault of a value it needs. -/
theorem orFault_of_error {α : Type} {r : Except Fault α} {f : Fault} {k : α → Out} (h : r = .error f) :
    orFault r k = .fault f := by
  rw [h, orFault_error]

theorem State.fcpExact_srcRange {a n : Nat} (d : Nat) (hn : 0 < n) (h : s.srcSize < a + n) :
    s.fcpExact a d n = .error .srcRange := by
  rw [State.fcpExact, State.stride, State.readBytes_srcRange hn h, except_error_bind]

theorem State.fcpWild_srcRange {a n : Nat} (d : Nat) (hn : 0 < n) (h : s.srcSize < a + n) :
    s.fcpWild a d n = .error .srcRange := by
  rw [State.fcpWild, State.fcpExact_srcRange d hn h, except_error_bind]

/-- What one memory holds once `n` bytes of another have been stored in it. -/
theorem Memory.byte_store_bytes (sp sq : Space) (m q : Memory) (a d n c : Nat) :
    Memory.byte sp (Memory.store m d (Memory.bytes sq q a n)) c =
      if d ≤ c ∧ c < d + n then Memory.byte sq q (a + (c - d)) else Memory.byte sp m c := by
  simp only [Memory.byte_store, Memory.bytes_length, Memory.bytes_get, dite_eq_ite]

/-- The output cursor after a run that ends at `c` is the limit exactly when `c` is. -/
theorem ofNat_eq_iff_of_le {c : Nat} {p : Pos} (h : c ≤ p.toNat) : BitVec.ofNat 32 c = p ↔ c = p.toNat := by
  rw [← BitVec.toNat_inj, ofNat_toNat_of_le h]

/-- R184, R283: a run of D.LITCOPY past the output limit. -/
theorem execDLitcopy_of_overflow (h : s.oend.toNat < s.op.toNat + s.len.toNat) : execDLitcopy s =
    .next (State.raiseOverflow { s with cpy := BitVec.ofNat 40 (s.op.toNat + s.len.toNat) }) := by
  rw [execDLitcopy, if_pos ((nearEnd_iff _ _).mpr (by omega)), if_pos h]

/-- R184, R285: a run that does not overflow and that SRC has not. -/
theorem execDLitcopy_srcRange (hc : s.op.toNat + s.len.toNat ≤ s.oend.toNat) (hn : 0 < s.len.toNat)
    (hs : s.srcSize < s.ip.toNat + s.len.toNat) : execDLitcopy s = .fault .srcRange := by
  rw [execDLitcopy]
  split
  · rw [if_neg (Nat.not_lt.mpr hc)]
    exact orFault_of_error (State.fcpExact_srcRange _ hn hs)
  · exact orFault_of_error (State.fcpWild_srcRange _ hn hs)

/-- R184, R227: a run that ends at least 8 bytes before the output limit. -/
theorem execDLitcopy_of_wide (hc : s.op.toNat + s.len.toNat + 8 ≤ s.oend.toNat)
    (hs : s.ip.toNat + s.len.toNat ≤ s.srcSize) (hd : s.oend.toNat ≤ s.dstSize) : execDLitcopy s = .next { s with
      cpy := BitVec.ofNat 40 (s.op.toNat + s.len.toNat)
      dst := Memory.store (Memory.store s.dst s.op.toNat (Memory.bytes .src s.src s.ip.toNat s.len.toNat))
        (s.op.toNat + s.len.toNat) (drawBytes s.draws (zoneOf s.len.toNat))
      draws := s.draws + zoneOf s.len.toNat, ip := advance s.ip s.len.toNat
      op := BitVec.ofNat 32 (s.op.toNat + s.len.toNat), st := .dEofchk } := by
  have hzone := zoneOf_lt s.len.toNat
  have hcopy := State.fcpWild_of (s := { s with cpy := BitVec.ofNat 40 (s.op.toNat + s.len.toNat) })
    (a := s.ip.toNat) (d := s.op.toNat) (n := s.len.toNat) (.inr hs) (by dsimp only; omega)
  rw [Memory.store_append, Memory.bytes_length] at hcopy
  rw [execDLitcopy, if_neg (by rw [nearEnd_iff]; omega)]
  exact orFault_of hcopy

/-! #### D.MATCHCOPY -/

/-- R189, R283: a match past the output limit. -/
theorem execDMatchcopy_of_overflow (h : s.oend.toNat < s.op.toNat + s.len.toNat) : execDMatchcopy s =
    .next (State.raiseOverflow { s with cpy := BitVec.ofNat 40 (s.op.toNat + s.len.toNat) }) := by
  rw [execDMatchcopy, if_pos ((nearEnd_iff _ _).mpr (by omega)), if_pos h]

/-- R188, R189: a match that does not overflow and whose source lies before the output. -/
theorem execDMatchcopy_badRef (hc : s.op.toNat + s.len.toNat ≤ s.oend.toNat) (hr : s.ref.toInt < 0) :
    execDMatchcopy s = .fault .badRef := by
  rw [execDMatchcopy]
  split
  · rw [if_neg (Nat.not_lt.mpr hc), State.matchCopy, State.mcopyExact_badRef _ _ hr, orFault_error]
  · rw [State.matchCopy, State.mcopyWild, State.mcopyExact_badRef _ _ hr, except_error_bind, orFault_error]

/-- The state once D.MATCHCOPY has copied the match and moved the output cursor over it (R189). -/
def State.matchMoved (s : State) : State :=
  { s with
    cpy := BitVec.ofNat 40 (s.op.toNat + s.len.toNat), op := BitVec.ofNat 32 (s.op.toNat + s.len.toNat)
    dst := Memory.copyUp .dst s.dst s.ref.toInt.toNat s.op.toNat s.len.toNat }

theorem State.matchMoved_dstAt (s : State) (a : Nat) : s.matchMoved.dstAt a =
    if s.op.toNat ≤ a ∧ a < s.op.toNat + s.len.toNat then s.matchByte s.ref.toInt.toNat s.op.toNat (a - s.op.toNat)
    else s.dstAt a :=
  State.dstAt_copyUp s _ _ _ _ rfl a

/-- R189, R229: a match that ends at the output limit or fewer than 8 bytes before it. -/
theorem execDMatchcopy_of_nearEnd (hnear : s.oend.toNat < s.op.toNat + s.len.toNat + 8)
    (hc : s.op.toNat + s.len.toNat ≤ s.oend.toNat) (hd : s.oend.toNat ≤ s.dstSize) (h0 : 0 ≤ s.ref.toInt)
    (hr : s.ref.toInt ≤ s.op.toNat) : execDMatchcopy s =
      if s.op.toNat + s.len.toNat = s.oend.toNat then .next s.matchMoved.endDec
      else .next { s.matchMoved with st := .dToken } := by
  have hcopy := State.mcopyExact_of (s := { s with cpy := BitVec.ofNat 40 (s.op.toNat + s.len.toNat) })
    (ref := s.ref.toInt) (d := s.op.toNat) (n := s.len.toNat) h0 (by dsimp only; omega) (by dsimp only; omega)
  rw [execDMatchcopy, if_pos ((nearEnd_iff _ _).mpr hnear), if_neg (Nat.not_lt.mpr hc)]
  exact orFault_of hcopy

/-- R189, R229: a match that ends at least 8 bytes before the output limit. -/
theorem execDMatchcopy_of_wide (hc : s.op.toNat + s.len.toNat + 8 ≤ s.oend.toNat) (hd : s.oend.toNat ≤ s.dstSize)
    (h0 : 0 ≤ s.ref.toInt) (hr : s.ref.toInt ≤ s.op.toNat) : ∃ z : List Byte, z.length ≤ 7 ∧
      execDMatchcopy s = .next { s.matchMoved with
        dst := Memory.store s.matchMoved.dst (s.op.toNat + s.len.toNat) z, draws := s.draws + 7, st := .dToken } := by
  obtain ⟨z, hz, hcopy⟩ := State.mcopyWild_of (s := { s with cpy := BitVec.ofNat 40 (s.op.toNat + s.len.toNat) })
    (ref := s.ref.toInt) (d := s.op.toNat) (n := s.len.toNat) h0 (by dsimp only; omega) (by dsimp only; omega)
  refine ⟨z, by omega, ?_⟩
  rw [execDMatchcopy, if_neg (by rw [nearEnd_iff]; omega)]
  exact orFault_of hcopy

/-! #### Why a step of DEC stops -/

/-- What a step of DEC answers from cursors that meet the invariant: a next state, or the fault of a read of SRC outside SRC or of DST
before the output (R59, R60, R285). -/
inductive State.StopsOnlyOnReads (s : State) : Out → Prop
  | goesOn (t : State) : s.StopsOnlyOnReads (.next t)
  | srcRange : s.StopsOnlyOnReads (.fault .srcRange)
  | badRef (h : s.ref.toInt < 0) : s.StopsOnlyOnReads (.fault .badRef)

theorem State.refOk_iff (s : State) : s.refOk ↔
    (s.st = .dMlext ∨ s.st = .dMatch4 ∨ s.st = .dMatchcopy → s.ref.toInt ≤ s.op.toNat) := by
  unfold State.refOk
  cases s.st <;> simp

theorem execDInit_stops (s : State) : s.StopsOnlyOnReads (execDInit s) := by
  unfold execDInit
  dsimp only
  split <;> exact .goesOn _

theorem execDToken_stops (s : State) : s.StopsOnlyOnReads (execDToken s) := by
  by_cases h : s.mode = .streaming ∧ s.iend.toNat ≤ s.ip.toNat
  · rw [execDToken, if_pos h]
    exact .goesOn _
  · rw [execDToken_of_input h]
    split
    · exact .goesOn _
    · exact .srcRange

theorem tunExt_step_stops (s : State) (again after : St) :
    s.StopsOnlyOnReads (orFault s.tunExt fun r => .next { r.1 with st := if r.2 then again else after }) := by
  rw [tunExt_step_eq]
  split
  · exact .goesOn _
  · exact .srcRange

theorem execDLitcopy_stops (hst : s.st = .dLitcopy) (hp : s.phaseOk) : s.StopsOnlyOnReads (execDLitcopy s) := by
  obtain ⟨⟨_, hoend, hip⟩, -⟩ := (State.phaseOk_literal (.inr hst)).mp hp
  rcases Nat.lt_or_ge s.oend.toNat (s.op.toNat + s.len.toNat) with hover | hc
  · rw [execDLitcopy_of_overflow hover]
    exact .goesOn _
  by_cases hs : s.ip.toNat + s.len.toNat ≤ s.srcSize
  · rcases Nat.lt_or_ge s.oend.toNat (s.op.toNat + s.len.toNat + 8) with hnear | hwide
    · rw [execDLitcopy_of_nearEnd ((nearEnd_iff _ _).mpr hnear) hc hs (hc.trans hoend)]
      exact .goesOn _
    · rw [execDLitcopy_of_wide hwide hs hoend]
      exact .goesOn _
  · rw [execDLitcopy_srcRange hc (by omega) (by omega)]
    exact .srcRange

theorem execDEofchk_stops (s : State) : s.StopsOnlyOnReads (execDEofchk s) := by
  unfold execDEofchk
  split
  · exact .goesOn _
  · split <;> exact .goesOn _

theorem execDOffset_stops (s : State) : s.StopsOnlyOnReads (execDOffset s) := by
  rw [execDOffset_eq]
  split
  · exact .goesOn _
  · exact .srcRange

theorem execDMatch4_stops (hst : s.st = .dMatch4) (hp : s.phaseOk) (hr : s.refOk) :
    s.StopsOnlyOnReads (execDMatch4 s) := by
  obtain ⟨⟨_, hoend, _⟩, -, h8⟩ := (State.phaseOk_match (.inr (.inr (.inr hst)))).mp hp
  have hr := (State.refOk_iff s).mp hr (.inr (.inl hst))
  rcases Int.lt_or_le s.ref.toInt 0 with hneg | h0
  · rw [execDMatch4, State.mcopyExact_badRef _ _ hneg]
    exact .badRef hneg
  · rw [execDMatch4, State.mcopyExact_of h0 (by simp only [minMatch]; omega) (by simp only [minMatch]; omega)]
    exact .goesOn _

theorem execDMatchcopy_stops (hst : s.st = .dMatchcopy) (hp : s.phaseOk) (hr : s.refOk) :
    s.StopsOnlyOnReads (execDMatchcopy s) := by
  obtain ⟨⟨_, hoend, _⟩, -⟩ := (State.phaseOk_dMatchcopy hst).mp hp
  have hr := (State.refOk_iff s).mp hr (.inr (.inr hst))
  rcases Nat.lt_or_ge s.oend.toNat (s.op.toNat + s.len.toNat) with hover | hc
  · rw [execDMatchcopy_of_overflow hover]
    exact .goesOn _
  rcases Int.lt_or_le s.ref.toInt 0 with hneg | h0
  · rw [execDMatchcopy_badRef hc hneg]
    exact .badRef hneg
  rcases Nat.lt_or_ge s.oend.toNat (s.op.toNat + s.len.toNat + 8) with hnear | hwide
  · rw [execDMatchcopy_of_nearEnd hnear hc hoend h0 hr]
    split <;> exact .goesOn _
  · obtain ⟨z, -, hstep⟩ := execDMatchcopy_of_wide hwide hoend h0 hr
    rw [hstep]
    exact .goesOn _

/-- R193, R285: every step of DEC. -/
theorem exec_dec_stops (hd : s.st.isDec = true) (hp : s.phaseOk) (hr : s.refOk) :
    s.StopsOnlyOnReads (exec s.st.instr s) := by
  cases hst : s.st <;> rw [hst] at hd
  case dInit => exact execDInit_stops s
  case dToken => exact execDToken_stops s
  case dLitext => exact tunExt_step_stops s _ _
  case dLitcopy => exact execDLitcopy_stops hst hp
  case dEofchk => exact execDEofchk_stops s
  case dOffset => exact execDOffset_stops s
  case dMlext => exact tunExt_step_stops s _ _
  case dMatch4 => exact execDMatch4_stops hst hp hr
  case dMatchcopy => exact execDMatchcopy_stops hst hp hr
  all_goals cases hd

/-- R186: the source that D.OFFSET computes is not past the output cursor. -/
theorem State.takeOffset_ref_le (s : State) (o : BitVec 16) : (s.takeOffset o).ref.toInt ≤ s.op.toNat := by
  have ho := o.isLt
  have hop := s.op.isLt
  rw [State.takeOffset_ref, pos, ref_toInt (by omega) (by omega)]
  omega

/-- R188: D.MATCH4 moves the source and the output cursor alike. -/
theorem execDMatch4_ref_le (hz : s.sizesOk) (hst : s.st = .dMatch4) (hp : s.phaseOk) (hr : s.refOk)
    (h : execDMatch4 s = .next t) : t.ref.toInt ≤ t.op.toNat := by
  obtain ⟨⟨_, hoend, _⟩, -, h8⟩ := (State.phaseOk_match (.inr (.inr (.inr hst)))).mp hp
  have hr := (State.refOk_iff s).mp hr (.inr (.inl hst))
  have hdst : s.dstSize ≤ 2147483647 := hz.dst_le
  obtain ⟨u, hu, h⟩ := orFault_next h
  obtain ⟨-, h0, -⟩ := State.mcopyExact_ok hu
  cases h
  have hop : (advance s.op minMatch).toNat = s.op.toNat + 4 := advance_toNat (by simp only [minMatch]; omega)
  dsimp only [minMatch] at hop ⊢
  rw [hop, ref_toInt (by omega) (by omega)]
  omega

/-- R186 to R189: no step of DEC moves the match source past the output cursor. -/
theorem exec_keeps_refOk (hz : s.sizesOk) (hd : s.st.isDec = true) (hp : s.phaseOk) (hr : s.refOk)
    (h : exec s.st.instr s = .next t) : t.refOk := by
  refine (State.refOk_iff t).mpr fun ht => ?_
  have hedge := exec_decEdge hd h
  cases hst : s.st <;> rw [hst] at h hd hedge
  case dOffset =>
    obtain ⟨-, o, rfl⟩ := execDOffset_next h
    exact s.takeOffset_ref_le o
  case dMlext =>
    obtain ⟨-, x, -, rfl⟩ := takeExt_next h
    exact (State.refOk_iff s).mp hr (.inl hst)
  case dMatch4 => exact execDMatch4_ref_le hz hst hp hr h
  case dInit | dToken | dLitext | dLitcopy | dEofchk | dMatchcopy =>
    obtain ht | ht | ht := ht <;> rw [ht] at hedge <;> cases hedge
  all_goals cases hd

end

/-! #### The statements -/

/-- Settles O50: one clause for each of the four ways the step goes. -/
theorem litcopyStep : Obligations.LitcopyStep := by
  unfold Obligations.LitcopyStep
  intro s _ n c
  refine ⟨fun h => ?_, fun hc hn hs => execDLitcopy_srcRange hc hn hs, fun hc hnear hd hs => ?_, fun hc hd hs => ?_⟩
  · refine ⟨_, execDLitcopy_of_overflow h, ?_, State.raiseOverflow_eq _⟩
    exact State.raiseOverflow_keptOutside { s with cpy := BitVec.ofNat 40 c }
  · refine ⟨_, execDLitcopy_of_nearEnd ((nearEnd_iff _ _).mpr hnear) hc hs (hc.trans hd), fun a ha => ?_, ?_⟩
    · refine (State.endDec_dstAt _ ?_).trans (Memory.byte_store_bytes .dst .src s.dst s.src _ _ _ a)
      dsimp only [advance]
      rwa [ofNat_toNat_of_le hc]
    · have hmis : decide (s.mode = .known ∧ BitVec.ofNat 32 c ≠ s.oend) = decide (s.mode = .known ∧ c ≠ s.oend.toNat) :=
        decide_eq_decide.mpr (and_congr_right' (not_congr (ofNat_eq_iff_of_le hc)))
      rw [← hmis]
      exact State.endDec_writes _
  · refine ⟨_, execDLitcopy_of_wide hc hs hd, fun a ha => ?_, rfl⟩
    refine (Memory.byte_store_outside .dst _ ?_).trans (Memory.byte_store_bytes .dst .src s.dst s.src _ _ _ a)
    rw [drawBytes_length, zoneOf]
    omega

/-- Settles O53: the overflow; then the exact form, at the limit and before it, and the wide form. -/
theorem matchcopyStep : Obligations.MatchcopyStep := by
  unfold Obligations.MatchcopyStep
  intro s _ n c
  refine ⟨fun h => ?_, fun hc hd h0 hr => ?_⟩
  · refine ⟨_, execDMatchcopy_of_overflow h, ?_, State.raiseOverflow_eq _⟩
    exact State.raiseOverflow_keptOutside { s with cpy := BitVec.ofNat 40 c }
  rcases Nat.lt_or_ge s.oend.toNat (c + 8) with hnear | hwide
  · have hstep := execDMatchcopy_of_nearEnd hnear hc hd h0 hr
    rcases Nat.eq_or_lt_of_le hc with hend | hlt
    · rw [if_pos hend] at hstep
      have hlim : s.matchMoved.op = s.matchMoved.oend := (ofNat_eq_iff_of_le hc).mpr hend
      refine ⟨_, hstep, fun a _ => ?_, fun h => absurd h (by omega), fun h => absurd h (by omega), fun _ => ?_⟩
      · rw [State.endDec_of_limit hlim]
        exact s.matchMoved_dstAt a
      · rw [State.endDec_of_limit hlim]
        rfl
    · rw [if_neg (Nat.ne_of_lt hlt)] at hstep
      exact ⟨_, hstep, fun a _ => s.matchMoved_dstAt a, fun h => absurd h (by omega), fun _ _ => rfl,
        fun h => absurd h (by omega)⟩
  · obtain ⟨z, hz, hstep⟩ := execDMatchcopy_of_wide hwide hd h0 hr
    refine ⟨_, hstep, fun a ha => ?_, fun _ => rfl, fun _ h => absurd h (by omega), fun h => absurd h (by omega)⟩
    exact (Memory.byte_store_outside .dst _ (by omega)).trans (s.matchMoved_dstAt a)

/-- Settles O55: what each step answers, and that a next state meets both invariants. -/
theorem decStopsOnlyOnReads : Obligations.DecStopsOnlyOnReads := by
  unfold Obligations.DecStopsOnlyOnReads
  intro s hz hp hr hd
  have hstop := exec_dec_stops hd hp hr
  generalize ho : exec s.st.instr s = o at hstop
  cases hstop with
  | goesOn t => exact .inl ⟨t, rfl, (exec_advances hz hp (St.busy_of_isDec hd) ho).phaseOk, exec_keeps_refOk hz hd hp hr ho⟩
  | srcRange => exact .inr (.inl rfl)
  | badRef hneg => exact .inr (.inr ⟨hneg, rfl⟩)

/-- Settles O20: the error entry of R283. -/
theorem errorEntry : Obligations.ErrorEntry := by
  unfold Obligations.ErrorEntry
  intro s h1 h
  have hresult : s.raiseOverflow.result.toInt = -(s.ip.toNat : Int) := neg_pos_toInt_eq h
  exact ⟨_, rfl, s.raiseOverflow_keptOutside, s.raiseOverflow_eq, hresult, by omega⟩

/-- Settles O47: the two branches on CMD. -/
theorem decInit : Obligations.DecInit := by
  unfold Obligations.DecInit
  exact fun s => ⟨fun h => if_pos h, fun h => if_neg h⟩

/-- Settles O48: the streaming end, or the byte at `ip`. -/
theorem tokenStep : Obligations.TokenStep := by
  unfold Obligations.TokenStep
  refine fun s => ⟨fun h => ⟨_, if_pos h, s.endDec_keptOutside, State.endDec_of_streaming h.1⟩, fun h => ?_⟩
  rw [exec, execDToken_of_input h, State.takeToken_eq]

/-- Settles O49: the two steps are one, but for the states they go to. -/
theorem extensionSteps : Obligations.ExtensionSteps := by
  unfold Obligations.ExtensionSteps
  exact fun s => ⟨tunExt_step_eq s .dLitext .dLitcopy, tunExt_step_eq s .dMlext .dMatch4⟩

/-- Settles O51: the two ends of D.EOFCHK, and the two bytes of D.OFFSET. -/
theorem eofchkAndOffsetSteps : Obligations.EofchkAndOffsetSteps := by
  unfold Obligations.EofchkAndOffsetSteps
  refine fun s => ⟨fun hm hop => ?_, fun hm hip => ?_, fun hk hs => ?_, ?_⟩
  · rw [exec, execDEofchk, if_pos ⟨hm, hop⟩, State.endDec_of_limit hop, if_pos hm]
  · have hk : ¬(s.mode = .known ∧ s.op = s.oend) := fun h => nomatch hm.symm.trans h.1
    exact ⟨_, (if_neg hk).trans (if_pos ⟨hm, hip⟩), s.endDec_keptOutside, State.endDec_of_streaming hm⟩
  · exact (if_neg hk).trans (if_neg hs)
  · rw [exec, execDOffset_eq, State.takeOffset_append]

end Sys2Proof.Machine

/-! ### The copies run alone -/

namespace Sys2Proof.Machine

section
variable {s : State} {k a d n : Nat}

/-! #### The stride moves -/

/-- The five stride moves of R221 to R225, each with its stride. -/
def strideMoveList (m : Space) (a d : Pos) : List (Nat × Instr) :=
  [(16, .cp16 m a d), (8, .cp8 m a d), (4, .cp4 m a d), (2, .cp2 m a d), (1, .cp1 m a d)]

/-- R221 to R225: all five move by one rule, and no stride is above 16. -/
theorem exec_strideMove {m : Space} {a d : Pos} {i : Instr} (h : (k, i) ∈ strideMoveList m a d) :
    k ≤ 16 ∧ ∀ s, exec i s = orFault (s.stride k m a.toNat d.toNat) .next := by
  simp only [strideMoveList, List.mem_cons, Prod.mk.injEq, List.not_mem_nil, or_false] at h
  rcases h with ⟨rfl, rfl⟩ | ⟨rfl, rfl⟩ | ⟨rfl, rfl⟩ | ⟨rfl, rfl⟩ | ⟨rfl, rfl⟩ <;> exact ⟨by decide, fun _ => rfl⟩

/-- R220: the state a stride move leaves where both ranges are inside their memories. -/
theorem exec_strideMove_of {m : Space} {a d : Pos} {i : Instr} (h : (k, i) ∈ strideMoveList m a d)
    (hs : a.toNat + k ≤ s.size m) (hd : d.toNat + k ≤ s.dstSize) :
    exec i s = .next { s with dst := Memory.store s.dst d.toNat (Memory.bytes m (s.mem m) a.toNat k) } := by
  rw [(exec_strideMove h).2]
  exact orFault_of (State.stride_of hs hd)

/-- A position is the same number as a match source. -/
theorem ref_ofNat_toInt (p : Pos) : (BitVec.ofNat 33 p.toNat).toInt = p.toNat := by
  have hp := p.isLt
  rw [← BitVec.ofInt_natCast, ref_toInt (by omega) (by omega)]

/-! #### The stride schedule -/

/-- A stride move of the first `k` bytes of a copy, and then the copy of the bytes that remain. -/
theorem State.stride_bind_eq_fcpExact {f : State → Except Fault State} (hk : k ≤ n) (hs : a + n ≤ s.srcSize)
    (hd : d + n ≤ s.dstSize)
    (hf : ∀ m, f { s with dst := m } = State.fcpExact { s with dst := m } (a + k) (d + k) (n - k)) :
    (s.stride k .src a d >>= f) = s.fcpExact a d n := by
  obtain ⟨j, rfl⟩ := Nat.exists_eq_add_of_le hk
  have hmove : s.stride k .src a d = .ok { s with dst := Memory.store s.dst d (Memory.bytes .src s.src a k) } :=
    State.stride_of (by simp only [State.size]; omega) (by omega)
  rw [hmove, except_ok_bind, hf, Nat.add_sub_cancel_left, State.fcpExact_of (.inr (by dsimp only; omega))
    (.inr (by dsimp only; omega)), State.fcpExact_of (.inr hs) (.inr hd), Memory.bytes_add, Memory.store_append,
    Memory.bytes_length]

/-- The strides of a list, each taken where so many bytes remain, copy every run of fewer than `b` bytes (R226). -/
def TailCopies (b : Nat) (ks : List Nat) : Prop :=
  ∀ (s : State) (a d n : Nat), n < b → a + n ≤ s.srcSize → d + n ≤ s.dstSize → s.strideTail a d n ks = s.fcpExact a d n

theorem tailCopies_nil : TailCopies 1 [] := by
  intro s a d n hn _ _
  obtain rfl := Nat.lt_one_iff.mp hn
  rfl

/-- A stride in front doubles the bound: a run of at least `k` bytes leaves fewer than `k` after the move. -/
theorem TailCopies.cons {ks : List Nat} (h : TailCopies k ks) : TailCopies (k + k) (k :: ks) := by
  intro s a d n hn hs hd
  rw [State.strideTail]
  split
  · next hk =>
    refine State.stride_bind_eq_fcpExact hk hs hd fun m => ?_
    exact h { s with dst := m } _ _ _ (by omega) (by dsimp only; omega) (by dsimp only; omega)
  · next hk => exact h s a d n (by omega) hs hd

/-- R226: 8, 4, 2 and 1 copy whatever the moves of 16 bytes leave. -/
theorem tailCopies_8421 : TailCopies 16 [8, 4, 2, 1] := tailCopies_nil.cons.cons.cons.cons

theorem State.strideLoop_eq_fcpExact (s : State) {a d r : Nat} (q : Nat) (hr : r < 16) (hs : a + (16 * q + r) ≤ s.srcSize)
    (hd : d + (16 * q + r) ≤ s.dstSize) : s.strideLoop a d r q = s.fcpExact a d (16 * q + r) := by
  induction q generalizing s a d with
  | zero =>
    rw [Nat.mul_zero, Nat.zero_add] at hs hd ⊢
    exact tailCopies_8421 s a d r hr hs hd
  | succ q ih =>
    refine State.stride_bind_eq_fcpExact (by omega) hs hd fun m => ?_
    rw [show 16 * (q + 1) + r - 16 = 16 * q + r by omega]
    exact ih { s with dst := m } (by dsimp only; omega) (by dsimp only; omega)

/-! #### The literal copies -/

theorem execFcpExact_of {a d : Pos} {n : Len} (hs : a.toNat + n.toNat ≤ s.srcSize) (hd : d.toNat + n.toNat ≤ s.dstSize) :
    exec (.fcpExact a d n) s =
      .next { s with dst := Memory.store s.dst d.toNat (Memory.bytes .src s.src a.toNat n.toNat) } :=
  orFault_of (State.fcpExact_of (.inr hs) (.inr hd))

theorem execFcpWild_of {a d : Pos} {n : Len} (hs : a.toNat + n.toNat ≤ s.srcSize)
    (hd : d.toNat + n.toNat + zoneOf n.toNat ≤ s.dstSize) :
    exec (.fcpWild a d n) s = .next { s with
      dst := Memory.store s.dst d.toNat (Memory.bytes .src s.src a.toNat n.toNat ++ drawBytes s.draws (zoneOf n.toNat))
      draws := s.draws + zoneOf n.toNat } :=
  orFault_of (State.fcpWild_of (.inr hs) hd)

/-- R227, R228: what a run of SRC and a zone after it leave in DST outside the zone. -/
theorem Memory.byte_store_run_outside_zone (sp sq : Space) (m q : Memory) {a d n c : Nat} {z : List Byte}
    (h : ¬(d + n ≤ c ∧ c < d + n + z.length)) : Memory.byte sp (Memory.store m d (Memory.bytes sq q a n ++ z)) c =
      if d ≤ c ∧ c < d + n then Memory.byte sq q (a + (c - d)) else Memory.byte sp m c := by
  rw [Memory.store_append, Memory.bytes_length, Memory.byte_store_outside sp _ (by omega), Memory.byte_store_bytes]

end

/-! #### The statements -/

/-- Settles O56: a store of the bytes that the source held. -/
theorem strideMoves : Obligations.StrideMoves := by
  unfold Obligations.StrideMoves
  intro s k m a d i h hs hd
  exact ⟨_, exec_strideMove_of h hs hd, rfl, State.wrote_store _ _ _ _ rfl⟩

/-- Settles O57: at a distance of at least the stride no byte is read after it is written, so both are one store. -/
theorem strideEqualsByteMoves : Obligations.StrideEqualsByteMoves := by
  unfold Obligations.StrideEqualsByteMoves
  intro s k a d i h hdist hd
  have hk : (BitVec.ofNat 40 k).toNat = k := by
    have := (exec_strideMove h).1
    rw [BitVec.toNat_ofNat]
    omega
  have hsrc : a.toNat + k ≤ s.dstSize := by omega
  have hcopy : s.mcopyExact a.toNat d.toNat k = .ok { s with dst := Memory.copyUp .dst s.dst a.toNat d.toNat k } :=
    State.mcopyExact_of (by omega) hsrc hd
  rw [exec_strideMove_of h hsrc hd, exec, execMcopy, ref_ofNat_toInt, hk, State.matchCopy, hcopy, orFault_ok,
    Memory.copyUp_eq_store .dst s.dst hdist]
  rfl

/-- Settles O58: the exact copy, the empty one, the faults, and the wild copy outside its zone. -/
theorem literalCopies : Obligations.LiteralCopies := by
  unfold Obligations.LiteralCopies
  intro s a d n
  refine ⟨fun hs hd => ?_, ?_, fun hn hs => ?_, fun hs hd => ?_⟩
  · exact ⟨_, execFcpExact_of hs hd, rfl, State.wrote_store _ _ _ _ rfl⟩
  · rintro rfl
    rfl
  · exact ⟨orFault_of_error (State.fcpExact_srcRange _ hn hs), orFault_of_error (State.fcpWild_srcRange _ hn hs)⟩
  · refine ⟨_, execFcpWild_of hs hd, rfl, fun c hc => Memory.byte_store_run_outside_zone .dst .src s.dst s.src ?_⟩
    rwa [drawBytes_length, zoneOf]

/-- Settles O59: the moves of 16 bytes take all but `n % 16` of the bytes, and the tail takes those. -/
theorem scheduleEqualsExactCopy : Obligations.ScheduleEqualsExactCopy := by
  unfold Obligations.ScheduleEqualsExactCopy
  intro s a d n hs hd
  have hn : 16 * (n / 16) + n % 16 = n := Nat.div_add_mod n 16
  rw [State.fcpSchedule, State.strideLoop_eq_fcpExact s _ (Nat.mod_lt n (by decide)) (by omega) (by omega), hn]

end Sys2Proof.Machine

/-! ### The step of MAXLEN -/

namespace Sys2Proof.Machine

section
variable {s : State}

theorem execMMaxlen_of (hl : s.srcLen.toNat ≤ maxSrcLen) (hs : s.srcLen.toNat ≤ s.srcSize) :
    execMMaxlen s = .next s.endMaxlen := by
  rw [execMMaxlen, if_neg (Nat.not_lt.mpr hl), if_neg (Nat.not_lt.mpr hs)]

theorem execMMaxlen_refused (h : maxSrcLen < s.srcLen.toNat ∨ s.srcSize < s.srcLen.toNat) :
    ∃ r, execMMaxlen s = .refused r :=
  refused_of_ite fun hl => refused_of_ite fun hs => (h.elim hl hs).elim

/-- R7 is the bound for R251: `maxCompressed maxSrcLen` is `2^31 - 1`, the largest value of the signed RESULT. -/
theorem maxCompressed_le_maxMemSize {n : Nat} (h : n ≤ maxSrcLen) : maxCompressed n ≤ maxMemSize :=
  Nat.add_le_add_right (Nat.add_le_add h (Nat.div_le_div_right h)) 16

/-- A number that fits SRC or DST stands in a register as itself, read as a signed value (R22). -/
theorem ofNat_toInt_of_le {n : Nat} (h : n ≤ maxMemSize) : (BitVec.ofNat 32 n).toInt = n := by
  simp only [maxMemSize] at h
  have hn : (BitVec.ofNat 32 n).toNat = n := by
    rw [BitVec.toNat_ofNat]
    exact Nat.mod_eq_of_lt (by omega)
  rw [BitVec.toInt_eq_toNat_of_lt (by omega), hn]

theorem State.endMaxlen_result_toInt (h : s.srcLen.toNat ≤ maxSrcLen) :
    s.endMaxlen.result.toInt = maxCompressed s.srcLen.toNat := by
  rw [State.endMaxlen_result, ofNat_toInt_of_le (maxCompressed_le_maxMemSize h)]

end

/-- Settles O18: the two tests of the step, and on the way through them `endMaxlen`, whose RESULT does not wrap. -/
theorem maxlenResult : Obligations.MaxlenResult := by
  unfold Obligations.MaxlenResult
  intro s
  split
  · next h =>
    obtain ⟨hl, hs⟩ := h
    exact ⟨s.endMaxlen, execMMaxlen_of hl hs, rfl, State.endMaxlen_result_toInt hl⟩
  · next h =>
    refine execMMaxlen_refused ?_
    rwa [not_and_or, Nat.not_le, Nat.not_le] at h

end Sys2Proof.Machine
